-- ==== Sys2Proof/Word.lean ====
section
/-! DEFINITION. The word types of the block: bytes, CPU addresses, PPU addresses and the 15-bit
scroll registers (00_scope.md R8). -/

namespace Sys2Proof

/-- A byte: A, X, Y, S, every memory cell (R8 "data width"). -/
abbrev Byte := BitVec 8

/-- A CPU address or the program counter (R8, R42). -/
abbrev Addr := BitVec 16

/-- A PPU address (R8, R58). -/
abbrev PpuAddr := BitVec 14

/-- A loopy scroll register `t` or `v` (R8, R30). -/
abbrev Loopy := BitVec 15

end Sys2Proof
end

