-- ==== Sys2Proof/Syntax.lean ====
section
/-! DEFINITION. The instructions. One constructor of `Instr` per mnemonic of spec/opcode_table.json; the
rows of one mnemonic differ only in their addressing mode, which is the form of the operand
(30_encoding.md R72, R75). A pair of a constructor and a form is one row of the table; `undef` carries
which of the 105 bytes it is (log 1). -/

namespace Sys2Proof

/-- The thirteen addressing modes of R72. -/
inductive Mode where
  | imp | acc | imm | zp | zpx | zpy | rel | indx | indy | abs | absx | absy | ind
  deriving DecidableEq, Repr

/-- An operand in memory, reached through an effective address (R87 to R94). -/
inductive MemOperand where
  | zp (n : Byte)
  | zpx (n : Byte)
  | zpy (n : Byte)
  | abs (a : Addr)
  | absx (a : Addr)
  | absy (a : Addr)
  | indx (n : Byte)
  | indy (n : Byte)
  deriving DecidableEq, Repr

/-- The operand of a read instruction (R97). -/
inductive ReadOperand where
  | imm (n : Byte)
  | mem (m : MemOperand)
  deriving DecidableEq, Repr

/-- The operand of a shift or rotate: the accumulator or memory (R85, R99). -/
inductive ShiftOperand where
  | acc
  | mem (m : MemOperand)
  deriving DecidableEq, Repr

/-- The operand of JMP (R138). -/
inductive JumpOperand where
  | abs (a : Addr)
  | ind (p : Addr)
  deriving DecidableEq, Repr

/-- The instructions of the opcode table (R74, R75, R77), in the order of the spec's files. -/
inductive Instr where
  -- 41_load_store.md
  | lda (m : ReadOperand)
  | ldx (m : ReadOperand)
  | ldy (m : ReadOperand)
  | sta (m : MemOperand)
  | stx (m : MemOperand)
  | sty (m : MemOperand)
  -- 42_arith_logic.md
  | adc (m : ReadOperand)
  | sbc (m : ReadOperand)
  | and (m : ReadOperand)
  | ora (m : ReadOperand)
  | eor (m : ReadOperand)
  | bit (m : MemOperand)
  | inc (m : MemOperand)
  | dec (m : MemOperand)
  | inx
  | iny
  | dex
  | dey
  -- 43_shift_rotate.md
  | asl (m : ShiftOperand)
  | lsr (m : ShiftOperand)
  | rol (m : ShiftOperand)
  | ror (m : ShiftOperand)
  -- 44_compare.md
  | cmp (m : ReadOperand)
  | cpx (m : ReadOperand)
  | cpy (m : ReadOperand)
  -- 45_branch_jump.md
  | bpl (d : Byte)
  | bmi (d : Byte)
  | bvc (d : Byte)
  | bvs (d : Byte)
  | bcc (d : Byte)
  | bcs (d : Byte)
  | bne (d : Byte)
  | beq (d : Byte)
  | jmp (m : JumpOperand)
  | jsr (a : Addr)
  | rts
  -- 46_stack_transfer.md
  | pha
  | php
  | pla
  | plp
  | tax
  | tay
  | txa
  | tya
  | tsx
  | txs
  -- 47_flags_system.md
  | clc
  | sec
  | cli
  | sei
  | cld
  | sed
  | clv
  | nop
  | brk
  | rti
  | undef (op : Byte)
  deriving DecidableEq, Repr

/-- The addressing mode of an operand in memory (R72). -/
def MemOperand.mode : MemOperand → Mode
  | .zp _ => .zp
  | .zpx _ => .zpx
  | .zpy _ => .zpy
  | .abs _ => .abs
  | .absx _ => .absx
  | .absy _ => .absy
  | .indx _ => .indx
  | .indy _ => .indy

/-- The addressing mode of a read operand (R72). -/
def ReadOperand.mode : ReadOperand → Mode
  | .imm _ => .imm
  | .mem m => m.mode

/-- The addressing mode of a shift operand (R72). -/
def ShiftOperand.mode : ShiftOperand → Mode
  | .acc => .acc
  | .mem m => m.mode

/-- The addressing mode of JMP's operand (R72). -/
def JumpOperand.mode : JumpOperand → Mode
  | .abs _ => .abs
  | .ind _ => .ind

/-- The bytes of an instruction in a mode, the opcode byte among them (R72). -/
def Mode.length : Mode → Nat
  | .imp | .acc => 1
  | .imm | .zp | .zpx | .zpy | .rel | .indx | .indy => 2
  | .abs | .absx | .absy | .ind => 3

end Sys2Proof
end

