-- ==== Sys2Proof/WellFormed.lean ====
section
/-! DEFINITION. Which instructions have an encoding: the filled cells of 30_encoding.md R75 for the 56
documented mnemonics, and the 105 bytes of R77 for `undef`. -/

namespace Sys2Proof

/-- The modes of the accumulator operations (R75: ADC AND CMP EOR LDA ORA SBC). -/
def accModes : List Mode := [.imm, .zp, .zpx, .abs, .absx, .absy, .indx, .indy]

/-- The modes of STA: those of LDA less `imm` (R75, R103). -/
def staModes : List Mode := [.zp, .zpx, .abs, .absx, .absy, .indx, .indy]

/-- The memory modes of the read-modify-write instructions (R75: ASL LSR ROL ROR INC DEC). -/
def rmwModes : List Mode := [.zp, .zpx, .abs, .absx]

/-- The modes of CPX and CPY (R75). -/
def cpxModes : List Mode := [.imm, .zp, .abs]

/-- The 105 unrecognised opcode bytes, as R77 lists them. -/
def undefOpcodes : List Byte :=
  [0x02, 0x03, 0x04, 0x07, 0x0B, 0x0C, 0x0F, 0x12, 0x13, 0x14, 0x17, 0x1A, 0x1B, 0x1C, 0x1F] ++
  [0x22, 0x23, 0x27, 0x2B, 0x2F, 0x32, 0x33, 0x34, 0x37, 0x3A, 0x3B, 0x3C, 0x3F] ++
  [0x42, 0x43, 0x44, 0x47, 0x4B, 0x4F, 0x52, 0x53, 0x54, 0x57, 0x5A, 0x5B, 0x5C, 0x5F] ++
  [0x62, 0x63, 0x64, 0x67, 0x6B, 0x6F, 0x72, 0x73, 0x74, 0x77, 0x7A, 0x7B, 0x7C, 0x7F] ++
  [0x80, 0x82, 0x83, 0x87, 0x89, 0x8B, 0x8F, 0x92, 0x93, 0x97, 0x9B, 0x9C, 0x9E, 0x9F] ++
  [0xA3, 0xA7, 0xAB, 0xAF, 0xB2, 0xB3, 0xB7, 0xBB, 0xBF] ++
  [0xC2, 0xC3, 0xC7, 0xCB, 0xCF, 0xD2, 0xD3, 0xD4, 0xD7, 0xDA, 0xDB, 0xDC, 0xDF] ++
  [0xE2, 0xE3, 0xE7, 0xEB, 0xEF, 0xF2, 0xF3, 0xF4, 0xF7, 0xFA, 0xFB, 0xFC, 0xFF]

/-- The instruction has an encoding (R75, R77). -/
def Instr.wf : Instr → Bool
  | .lda m | .adc m | .sbc m | .and m | .ora m | .eor m | .cmp m => accModes.contains m.mode
  | .ldx m => [Mode.imm, .zp, .zpy, .abs, .absy].contains m.mode
  | .ldy m => [Mode.imm, .zp, .zpx, .abs, .absx].contains m.mode
  | .cpx m | .cpy m => cpxModes.contains m.mode
  | .sta m => staModes.contains m.mode
  | .stx m => [Mode.zp, .zpy, .abs].contains m.mode
  | .sty m => [Mode.zp, .zpx, .abs].contains m.mode
  | .bit m => [Mode.zp, .abs].contains m.mode
  | .inc m | .dec m => rmwModes.contains m.mode
  | .asl m | .lsr m | .rol m | .ror m => (Mode.acc :: rmwModes).contains m.mode
  | .undef op => undefOpcodes.contains op
  | .inx | .iny | .dex | .dey => true
  | .bpl _ | .bmi _ | .bvc _ | .bvs _ | .bcc _ | .bcs _ | .bne _ | .beq _ => true
  | .jmp _ | .jsr _ | .rts => true
  | .pha | .php | .pla | .plp => true
  | .tax | .tay | .txa | .tya | .tsx | .txs => true
  | .clc | .sec | .cli | .sei | .cld | .sed | .clv | .nop | .brk | .rti => true

/-- The addressing mode of an instruction (R72, R75). -/
def Instr.mode : Instr → Mode
  | .lda m | .ldx m | .ldy m | .adc m | .sbc m | .and m | .ora m | .eor m => m.mode
  | .cmp m | .cpx m | .cpy m => m.mode
  | .sta m | .stx m | .sty m | .bit m | .inc m | .dec m => m.mode
  | .asl m | .lsr m | .rol m | .ror m => m.mode
  | .bpl _ | .bmi _ | .bvc _ | .bvs _ | .bcc _ | .bcs _ | .bne _ | .beq _ => .rel
  | .jmp m => m.mode
  | .jsr _ => .abs
  | .inx | .iny | .dex | .dey | .rts => .imp
  | .pha | .php | .pla | .plp => .imp
  | .tax | .tay | .txa | .tya | .tsx | .txs => .imp
  | .clc | .sec | .cli | .sei | .cld | .sed | .clv | .nop | .brk | .rti => .imp
  | .undef _ => .imp

end Sys2Proof
end

