-- ==== Sys2Proof/Decode.lean ====
section
/-! DEFINITION. Decoding, total on any bytes and rejecting by name what is cut short, from the 256-entry
opcode map of 30_encoding.md R74; and after it the encoder, from the table by mnemonic of R75. -/

namespace Sys2Proof

/-- What an opcode byte alone says (R71, R79): an instruction of 1 byte, or how the one or two operand
bytes complete it. -/
inductive OpEntry where
  | imp (i : Instr)
  | byte (build : Byte → Instr)
  | word (build : Addr → Instr)

/-- The opcode map of R74, row by row; every byte outside it is unrecognised (R77). -/
def opcodeEntry (op : Byte) : OpEntry :=
  match op.toNat with
  | 0x00 => .imp .brk
  | 0x01 => .byte fun n => .ora (.mem (.indx n))
  | 0x05 => .byte fun n => .ora (.mem (.zp n))
  | 0x06 => .byte fun n => .asl (.mem (.zp n))
  | 0x08 => .imp .php
  | 0x09 => .byte fun n => .ora (.imm n)
  | 0x0A => .imp (.asl .acc)
  | 0x0D => .word fun a => .ora (.mem (.abs a))
  | 0x0E => .word fun a => .asl (.mem (.abs a))
  | 0x10 => .byte fun d => .bpl d
  | 0x11 => .byte fun n => .ora (.mem (.indy n))
  | 0x15 => .byte fun n => .ora (.mem (.zpx n))
  | 0x16 => .byte fun n => .asl (.mem (.zpx n))
  | 0x18 => .imp .clc
  | 0x19 => .word fun a => .ora (.mem (.absy a))
  | 0x1D => .word fun a => .ora (.mem (.absx a))
  | 0x1E => .word fun a => .asl (.mem (.absx a))
  | 0x20 => .word fun a => .jsr a
  | 0x21 => .byte fun n => .and (.mem (.indx n))
  | 0x24 => .byte fun n => .bit (.zp n)
  | 0x25 => .byte fun n => .and (.mem (.zp n))
  | 0x26 => .byte fun n => .rol (.mem (.zp n))
  | 0x28 => .imp .plp
  | 0x29 => .byte fun n => .and (.imm n)
  | 0x2A => .imp (.rol .acc)
  | 0x2C => .word fun a => .bit (.abs a)
  | 0x2D => .word fun a => .and (.mem (.abs a))
  | 0x2E => .word fun a => .rol (.mem (.abs a))
  | 0x30 => .byte fun d => .bmi d
  | 0x31 => .byte fun n => .and (.mem (.indy n))
  | 0x35 => .byte fun n => .and (.mem (.zpx n))
  | 0x36 => .byte fun n => .rol (.mem (.zpx n))
  | 0x38 => .imp .sec
  | 0x39 => .word fun a => .and (.mem (.absy a))
  | 0x3D => .word fun a => .and (.mem (.absx a))
  | 0x3E => .word fun a => .rol (.mem (.absx a))
  | 0x40 => .imp .rti
  | 0x41 => .byte fun n => .eor (.mem (.indx n))
  | 0x45 => .byte fun n => .eor (.mem (.zp n))
  | 0x46 => .byte fun n => .lsr (.mem (.zp n))
  | 0x48 => .imp .pha
  | 0x49 => .byte fun n => .eor (.imm n)
  | 0x4A => .imp (.lsr .acc)
  | 0x4C => .word fun a => .jmp (.abs a)
  | 0x4D => .word fun a => .eor (.mem (.abs a))
  | 0x4E => .word fun a => .lsr (.mem (.abs a))
  | 0x50 => .byte fun d => .bvc d
  | 0x51 => .byte fun n => .eor (.mem (.indy n))
  | 0x55 => .byte fun n => .eor (.mem (.zpx n))
  | 0x56 => .byte fun n => .lsr (.mem (.zpx n))
  | 0x58 => .imp .cli
  | 0x59 => .word fun a => .eor (.mem (.absy a))
  | 0x5D => .word fun a => .eor (.mem (.absx a))
  | 0x5E => .word fun a => .lsr (.mem (.absx a))
  | 0x60 => .imp .rts
  | 0x61 => .byte fun n => .adc (.mem (.indx n))
  | 0x65 => .byte fun n => .adc (.mem (.zp n))
  | 0x66 => .byte fun n => .ror (.mem (.zp n))
  | 0x68 => .imp .pla
  | 0x69 => .byte fun n => .adc (.imm n)
  | 0x6A => .imp (.ror .acc)
  | 0x6C => .word fun a => .jmp (.ind a)
  | 0x6D => .word fun a => .adc (.mem (.abs a))
  | 0x6E => .word fun a => .ror (.mem (.abs a))
  | 0x70 => .byte fun d => .bvs d
  | 0x71 => .byte fun n => .adc (.mem (.indy n))
  | 0x75 => .byte fun n => .adc (.mem (.zpx n))
  | 0x76 => .byte fun n => .ror (.mem (.zpx n))
  | 0x78 => .imp .sei
  | 0x79 => .word fun a => .adc (.mem (.absy a))
  | 0x7D => .word fun a => .adc (.mem (.absx a))
  | 0x7E => .word fun a => .ror (.mem (.absx a))
  | 0x81 => .byte fun n => .sta (.indx n)
  | 0x84 => .byte fun n => .sty (.zp n)
  | 0x85 => .byte fun n => .sta (.zp n)
  | 0x86 => .byte fun n => .stx (.zp n)
  | 0x88 => .imp .dey
  | 0x8A => .imp .txa
  | 0x8C => .word fun a => .sty (.abs a)
  | 0x8D => .word fun a => .sta (.abs a)
  | 0x8E => .word fun a => .stx (.abs a)
  | 0x90 => .byte fun d => .bcc d
  | 0x91 => .byte fun n => .sta (.indy n)
  | 0x94 => .byte fun n => .sty (.zpx n)
  | 0x95 => .byte fun n => .sta (.zpx n)
  | 0x96 => .byte fun n => .stx (.zpy n)
  | 0x98 => .imp .tya
  | 0x99 => .word fun a => .sta (.absy a)
  | 0x9A => .imp .txs
  | 0x9D => .word fun a => .sta (.absx a)
  | 0xA0 => .byte fun n => .ldy (.imm n)
  | 0xA1 => .byte fun n => .lda (.mem (.indx n))
  | 0xA2 => .byte fun n => .ldx (.imm n)
  | 0xA4 => .byte fun n => .ldy (.mem (.zp n))
  | 0xA5 => .byte fun n => .lda (.mem (.zp n))
  | 0xA6 => .byte fun n => .ldx (.mem (.zp n))
  | 0xA8 => .imp .tay
  | 0xA9 => .byte fun n => .lda (.imm n)
  | 0xAA => .imp .tax
  | 0xAC => .word fun a => .ldy (.mem (.abs a))
  | 0xAD => .word fun a => .lda (.mem (.abs a))
  | 0xAE => .word fun a => .ldx (.mem (.abs a))
  | 0xB0 => .byte fun d => .bcs d
  | 0xB1 => .byte fun n => .lda (.mem (.indy n))
  | 0xB4 => .byte fun n => .ldy (.mem (.zpx n))
  | 0xB5 => .byte fun n => .lda (.mem (.zpx n))
  | 0xB6 => .byte fun n => .ldx (.mem (.zpy n))
  | 0xB8 => .imp .clv
  | 0xB9 => .word fun a => .lda (.mem (.absy a))
  | 0xBA => .imp .tsx
  | 0xBC => .word fun a => .ldy (.mem (.absx a))
  | 0xBD => .word fun a => .lda (.mem (.absx a))
  | 0xBE => .word fun a => .ldx (.mem (.absy a))
  | 0xC0 => .byte fun n => .cpy (.imm n)
  | 0xC1 => .byte fun n => .cmp (.mem (.indx n))
  | 0xC4 => .byte fun n => .cpy (.mem (.zp n))
  | 0xC5 => .byte fun n => .cmp (.mem (.zp n))
  | 0xC6 => .byte fun n => .dec (.zp n)
  | 0xC8 => .imp .iny
  | 0xC9 => .byte fun n => .cmp (.imm n)
  | 0xCA => .imp .dex
  | 0xCC => .word fun a => .cpy (.mem (.abs a))
  | 0xCD => .word fun a => .cmp (.mem (.abs a))
  | 0xCE => .word fun a => .dec (.abs a)
  | 0xD0 => .byte fun d => .bne d
  | 0xD1 => .byte fun n => .cmp (.mem (.indy n))
  | 0xD5 => .byte fun n => .cmp (.mem (.zpx n))
  | 0xD6 => .byte fun n => .dec (.zpx n)
  | 0xD8 => .imp .cld
  | 0xD9 => .word fun a => .cmp (.mem (.absy a))
  | 0xDD => .word fun a => .cmp (.mem (.absx a))
  | 0xDE => .word fun a => .dec (.absx a)
  | 0xE0 => .byte fun n => .cpx (.imm n)
  | 0xE1 => .byte fun n => .sbc (.mem (.indx n))
  | 0xE4 => .byte fun n => .cpx (.mem (.zp n))
  | 0xE5 => .byte fun n => .sbc (.mem (.zp n))
  | 0xE6 => .byte fun n => .inc (.zp n)
  | 0xE8 => .imp .inx
  | 0xE9 => .byte fun n => .sbc (.imm n)
  | 0xEA => .imp .nop
  | 0xEC => .word fun a => .cpx (.mem (.abs a))
  | 0xED => .word fun a => .sbc (.mem (.abs a))
  | 0xEE => .word fun a => .inc (.abs a)
  | 0xF0 => .byte fun d => .beq d
  | 0xF1 => .byte fun n => .sbc (.mem (.indy n))
  | 0xF5 => .byte fun n => .sbc (.mem (.zpx n))
  | 0xF6 => .byte fun n => .inc (.zpx n)
  | 0xF8 => .imp .sed
  | 0xF9 => .word fun a => .sbc (.mem (.absy a))
  | 0xFD => .word fun a => .sbc (.mem (.absx a))
  | 0xFE => .word fun a => .inc (.absx a)
  | _ => .imp (.undef op)

/-- The bytes of the instruction an opcode byte begins (R79). -/
def OpEntry.length : OpEntry → Nat
  | .imp _ => 1
  | .byte _ => 2
  | .word _ => 3

/-- A 16-bit operand: "`(h << 8) | l` from bytes `l` (byte 1) and `h` (byte 2)" (R73). -/
def operand16 (l h : Byte) : Addr := h ++ l

/-- Why bytes decode to no instruction: there is none, or its operand bytes are cut short. No opcode
byte is rejected: the unrecognised ones are instructions (R77). The names are the model's: log 21. -/
inductive DecodeError where
  | noBytes
  | cutShort (op : Byte)
  deriving DecidableEq, Repr

/-- The instruction at the head of a byte string, with the bytes after it (R71 to R79). BRK takes its
opcode byte only; its padding byte is skipped when it executes (R160, log 13). -/
def decode : List Byte → Except DecodeError (Instr × List Byte)
  | [] => .error .noBytes
  | op :: rest =>
    match opcodeEntry op, rest with
    | .imp i, r => .ok (i, r)
    | .byte build, n :: r => .ok (build n, r)
    | .word build, l :: h :: r => .ok (build (operand16 l h), r)
    | _, _ => .error (.cutShort op)

/-- The three bytes that the host's table word stands for: bit 0 is the least significant bit of the
first byte, and every bit from `nbits` on is 0. -/
def tableBytes (nbits w : Nat) : List Byte :=
  [0, 1, 2].map fun k => if 8 * k < nbits then BitVec.ofNat 8 (w >>> (8 * k)) else 0

/-- What this decoder reads from a word numbered as spec/opcode_table.json numbers it. -/
def decodeTableWord (nbits w : Nat) : Option Instr :=
  if nbits < 8 then none
  else
    match decode (tableBytes nbits w) with
    | .ok (i, _) => some i
    | .error _ => none

/-- The cell of one row of R75 that an operand's mode selects. -/
def MemOperand.cell (zp zpx zpy abs absx absy indx indy : Option Byte) : MemOperand → Option Byte
  | .zp _ => zp
  | .zpx _ => zpx
  | .zpy _ => zpy
  | .abs _ => abs
  | .absx _ => absx
  | .absy _ => absy
  | .indx _ => indx
  | .indy _ => indy

/-- The row of R75 of an accumulator operation with an `imm` form. -/
def accRow (imm zp zpx abs absx absy indx indy : Byte) : ReadOperand → Option Byte
  | .imm _ => some imm
  | .mem m => m.cell zp zpx none abs absx absy indx indy

/-- The row of R75 of CPX or CPY. -/
def cpxRow (imm zp abs : Byte) : ReadOperand → Option Byte
  | .imm _ => some imm
  | .mem m => m.cell zp none none abs none none none none

/-- The row of R75 of INC or DEC. -/
def rmwRow (zp zpx abs absx : Byte) : MemOperand → Option Byte :=
  MemOperand.cell zp zpx none abs absx none none none

/-- The row of R75 of a shift or rotate. -/
def shiftRow (acc zp zpx abs absx : Byte) : ShiftOperand → Option Byte
  | .acc => some acc
  | .mem m => rmwRow zp zpx abs absx m

/-- The opcode byte of an instruction by the table of R75; none where the cell is empty. -/
def Instr.opcode : Instr → Option Byte
  | .adc m => accRow 0x69 0x65 0x75 0x6D 0x7D 0x79 0x61 0x71 m
  | .and m => accRow 0x29 0x25 0x35 0x2D 0x3D 0x39 0x21 0x31 m
  | .asl m => shiftRow 0x0A 0x06 0x16 0x0E 0x1E m
  | .bcc _ => some 0x90
  | .bcs _ => some 0xB0
  | .beq _ => some 0xF0
  | .bit m => m.cell (some 0x24) none none (some 0x2C) none none none none
  | .bmi _ => some 0x30
  | .bne _ => some 0xD0
  | .bpl _ => some 0x10
  | .brk => some 0x00
  | .bvc _ => some 0x50
  | .bvs _ => some 0x70
  | .clc => some 0x18
  | .cld => some 0xD8
  | .cli => some 0x58
  | .clv => some 0xB8
  | .cmp m => accRow 0xC9 0xC5 0xD5 0xCD 0xDD 0xD9 0xC1 0xD1 m
  | .cpx m => cpxRow 0xE0 0xE4 0xEC m
  | .cpy m => cpxRow 0xC0 0xC4 0xCC m
  | .dec m => rmwRow 0xC6 0xD6 0xCE 0xDE m
  | .dex => some 0xCA
  | .dey => some 0x88
  | .eor m => accRow 0x49 0x45 0x55 0x4D 0x5D 0x59 0x41 0x51 m
  | .inc m => rmwRow 0xE6 0xF6 0xEE 0xFE m
  | .inx => some 0xE8
  | .iny => some 0xC8
  | .jmp (.abs _) => some 0x4C
  | .jmp (.ind _) => some 0x6C
  | .jsr _ => some 0x20
  | .lda m => accRow 0xA9 0xA5 0xB5 0xAD 0xBD 0xB9 0xA1 0xB1 m
  | .ldx (.imm _) => some 0xA2
  | .ldx (.mem m) => m.cell (some 0xA6) none (some 0xB6) (some 0xAE) none (some 0xBE) none none
  | .ldy (.imm _) => some 0xA0
  | .ldy (.mem m) => m.cell (some 0xA4) (some 0xB4) none (some 0xAC) (some 0xBC) none none none
  | .lsr m => shiftRow 0x4A 0x46 0x56 0x4E 0x5E m
  | .nop => some 0xEA
  | .ora m => accRow 0x09 0x05 0x15 0x0D 0x1D 0x19 0x01 0x11 m
  | .pha => some 0x48
  | .php => some 0x08
  | .pla => some 0x68
  | .plp => some 0x28
  | .rol m => shiftRow 0x2A 0x26 0x36 0x2E 0x3E m
  | .ror m => shiftRow 0x6A 0x66 0x76 0x6E 0x7E m
  | .rti => some 0x40
  | .rts => some 0x60
  | .sbc m => accRow 0xE9 0xE5 0xF5 0xED 0xFD 0xF9 0xE1 0xF1 m
  | .sec => some 0x38
  | .sed => some 0xF8
  | .sei => some 0x78
  | .sta m => m.cell (some 0x85) (some 0x95) none (some 0x8D) (some 0x9D) (some 0x99) (some 0x81)
      (some 0x91)
  | .stx m => m.cell (some 0x86) none (some 0x96) (some 0x8E) none none none none
  | .sty m => m.cell (some 0x84) (some 0x94) none (some 0x8C) none none none none
  | .tax => some 0xAA
  | .tay => some 0xA8
  | .tsx => some 0xBA
  | .txa => some 0x8A
  | .txs => some 0x9A
  | .tya => some 0x98
  | .undef op => some op

/-- A 16-bit operand's two bytes, low byte first (R72). -/
def addrBytes (a : Addr) : List Byte := [a.extractLsb' 0 8, a.extractLsb' 8 8]

/-- The operand bytes of a memory operand (R72). -/
def MemOperand.bytes : MemOperand → List Byte
  | .zp n | .zpx n | .zpy n | .indx n | .indy n => [n]
  | .abs a | .absx a | .absy a => addrBytes a

/-- The operand bytes of a read operand (R72). -/
def ReadOperand.bytes : ReadOperand → List Byte
  | .imm n => [n]
  | .mem m => m.bytes

/-- The operand bytes of a shift operand (R72). -/
def ShiftOperand.bytes : ShiftOperand → List Byte
  | .acc => []
  | .mem m => m.bytes

/-- The operand bytes of an instruction (R72). -/
def Instr.operandBytes : Instr → List Byte
  | .lda m | .ldx m | .ldy m | .adc m | .sbc m | .and m | .ora m | .eor m => m.bytes
  | .cmp m | .cpx m | .cpy m => m.bytes
  | .sta m | .stx m | .sty m | .bit m | .inc m | .dec m => m.bytes
  | .asl m | .lsr m | .rol m | .ror m => m.bytes
  | .bpl d | .bmi d | .bvc d | .bvs d | .bcc d | .bcs d | .bne d | .beq d => [d]
  | .jmp (.abs a) | .jmp (.ind a) | .jsr a => addrBytes a
  | .inx | .iny | .dex | .dey | .rts => []
  | .pha | .php | .pla | .plp => []
  | .tax | .tay | .txa | .tya | .tsx | .txs => []
  | .clc | .sec | .cli | .sei | .cld | .sed | .clv | .nop | .brk | .rti => []
  | .undef _ => []

/-- The bytes of a well-formed instruction (R71 to R75); no bytes for a form with no encoding. -/
def encode (i : Instr) : List Byte :=
  match i.opcode with
  | some op => op :: i.operandBytes
  | none => []

end Sys2Proof
end

