-- ==== Sys2Proof/Config.lean ====
section
/-! DEFINITION. What is fixed for the machine: the named parameters of 00_scope.md R8, the OPEN ones as
constants with no body, the mapper hooks of a plug-in, and the free values (the byte of a read the
spec leaves arbitrary, what the host decides). -/

namespace Sys2Proof

/-- `VIDEO_STANDARD` (R8, R39). -/
inductive VideoStandard where
  | ntsc
  | pal
  deriving DecidableEq, Repr, Inhabited

/-- `MIRRORING` (R8, R62). -/
inductive Mirroring where
  | horizontal
  | vertical
  | oneScreen
  | fourScreen
  deriving DecidableEq, Repr, Inhabited

/-- The parameters to which R8 gives a default. They are no state (R41): the machine carries them as
constant data because `step` has no other argument, so that a claim over all states is a claim over
all their values. DESIGN CHOICE, log 4. -/
structure Params where
  /-- `UNDEF_CYCLES`, the cost of an unrecognised opcode (R162, D18). -/
  undefCycles : Nat := 1
  /-- `JMP_IND_PAGE_WRAP` (R95, D24). -/
  jmpIndPageWrap : Bool := true
  /-- `SPRITE_Y_OFFSET` (R187, D35). -/
  spriteYOffset : Int := 1
  /-- `SPR0_ROW_ADJUST` (R190, D38). -/
  spr0RowAdjust : Int := 0
  deriving DecidableEq, Repr, Inhabited

/-- The eight buttons in the fixed order of R38. -/
structure Buttons where
  a : Bool
  b : Bool
  select : Bool
  start : Bool
  up : Bool
  down : Bool
  left : Bool
  right : Bool
  deriving DecidableEq, Repr, Inhabited

/-- What the host supplies when the control thread asks it: the buttons (R209.6) and its two flags
(R40, R209.4). -/
structure HostInput where
  buttons : Buttons
  running : Bool
  paused : Bool
  deriving DecidableEq, Repr, Inhabited

/-- What a `MAPPER_WRITE` hook may do (R47): a new mapper state, bytes rewritten in
`cpu_mem[0x8000..0xFFFF]` (an offset of 15 bits) and in `ppu_mem[0x0000..0x1FFF]` (an address of 13
bits), and a new `MIRRORING`; nothing else. DESIGN CHOICE (the shape), log 5. -/
structure MapperEffect where
  state : List Byte
  prg : List (BitVec 15 × Byte)
  chr : List (BitVec 13 × Byte)
  mirroring : Option Mirroring
  deriving DecidableEq, Repr, Inhabited

/-- `BUDGET_STARTUP(std)`, OPEN (R8, D40): no value, log 3. -/
opaque Config.budgetStartup : VideoStandard → Nat

/-- `BUDGET_VBLANK(std)`, OPEN (R8, D40): no value, log 3. -/
opaque Config.budgetVblank : VideoStandard → Nat

/-- `BUDGET_SCANLINE(std)`, OPEN (R8, D40): no value, log 3. -/
opaque Config.budgetScanline : VideoStandard → Nat

/-- The byte that a read of 0x2000, 0x2001, 0x2003, 0x2004, 0x2005 or 0x2006 returns: "an arbitrary
byte, a free choice of the model at each read" (R175). Applied to the count of draws, log 7. -/
opaque Config.freeByte : Nat → Byte

/-- What the host answers at a draw (R209.4, R209.6, T12): an input, so a free value, log 8. -/
opaque Config.hostInput : Nat → HostInput

/-- `MAPPER_WRITE` of a plug-in (R8, R47, D26): mapper number, address, byte, mapper state. Log 5. -/
opaque Config.pluginWrite : Byte → Addr → Byte → List Byte → MapperEffect

/-- `MAPPER_IRQ` of a plug-in (R8, R180, D41): mapper number, scanline, mapper state. Log 5. -/
opaque Config.pluginIrq : Byte → Nat → List Byte → Bool × List Byte

end Sys2Proof
end

