-- ==== Sys2Proof/Machine/State.lean ====
section
/-! DEFINITION. The state of the block as plain data (10_state.md), the reasons a step can stop, and the
state after power-on and after reset (70_reset_and_hazards.md R206 to R208). -/

namespace Sys2Proof.Machine

/-- Cells of `w` bits by index: a list with rising indexes and no cell equal to what an unlisted index
reads as (`Cells.wf`). -/
abbrev Cells (w : Nat) := List (Nat × BitVec w)

/-- A byte memory: a list of `Host.Cell`. -/
abbrev Memory := Cells 8

/-- The seven flags, stored separately (R20). -/
structure Flags where
  c : Bool
  z : Bool
  i : Bool
  d : Bool
  b : Bool
  v : Bool
  n : Bool
  deriving DecidableEq, Repr

/-- The CPU's registers (R16), flags (R20) and cycle budget (R25). `sp` is the register `S`. -/
structure Cpu where
  a : Byte
  x : Byte
  y : Byte
  sp : Byte
  pc : Addr
  flags : Flags
  budget : Int
  deriving DecidableEq, Repr

/-- The PPU registers (R26 to R29) and scroll state (R30 to R33). `fineX` is the register `x`; `w` is
true when the next write to 0x2005 or 0x2006 is the second. -/
structure Ppu where
  ctrl1 : Byte
  ctrl2 : Byte
  status : Byte
  oamAddr : Byte
  t : Loopy
  v : Loopy
  fineX : BitVec 3
  w : Bool
  readBuffer : Byte
  addrLatch : Byte
  deriving DecidableEq, Repr

/-- The frame buffer and the render caches (R34 to R36). Pixel (row, column) is index
`256 * row + column`; `spr0Line` holds one bit a row (log 18). -/
structure Video where
  fb : Memory
  bgCache : Cells 2
  spr0Cache : Cells 2
  spr0Line : Cells 1
  deriving DecidableEq, Repr

/-- Whether the default mapping or a mapper plug-in stands behind the hooks (R8, R47; log 5). -/
inductive Mapper where
  | default
  | plugin
  deriving DecidableEq, Repr

/-- The configuration set at ROM load (R39), with the parameters that have a default (R8, log 4). -/
structure Configuration where
  standard : VideoStandard
  mirroring : Mirroring
  prgBanks : Nat
  chrBanks : Nat
  mapperNumber : Byte
  mapper : Mapper
  params : Params
  deriving DecidableEq, Repr

/-- The CPU runs of a frame: steps 1, 3 and 4, and one for each scanline of step 7 (R180). -/
inductive Run where
  | startup
  | postNmi
  | vblank
  | scanline (n : Nat)
  deriving DecidableEq, Repr

/-- Where the control thread stands in the host's loop (R209.4) and the frame schedule (R180). The
model's own reading of "one control thread" (R15), log 2. -/
inductive Phase where
  /-- Between frames: the host tests its flags (R209.4). -/
  | boundary
  /-- The host's loop has ended (R209.4): nothing more runs. -/
  | halted
  /-- `CpuRun(n)` is called: it sets the budget (R179). -/
  | enter (r : Run)
  /-- The loop of `CpuRun` (R179). -/
  | running (r : Run)
  /-- Frame step 2. -/
  | vblankStart
  /-- Frame step 5. -/
  | vblankEnd
  /-- Frame step 6. -/
  | latchScroll
  /-- Frame step 7, scanline `n`, before its CPU run. -/
  | line (n : Nat)
  /-- Frame step 7, scanline `n`, after its CPU run. -/
  | lineEnd (n : Nat)
  /-- Frame step 8. -/
  | sprites
  /-- Frame step 9. -/
  | present
  /-- Frame step 10. -/
  | input
  deriving DecidableEq, Repr

/-- The state of the block (10_state.md), of the host's flags (R40), and the model's own `phase` and
`draws` (log 2, log 7). -/
structure State where
  cpu : Cpu
  ppu : Ppu
  video : Video
  cpuMem : Memory
  ppuMem : Memory
  oam : Memory
  buttons : Buttons
  padStep : Fin 8
  config : Configuration
  mapperState : List Byte
  running : Bool
  paused : Bool
  phase : Phase
  draws : Nat
  deriving DecidableEq, Repr

/-- The architecture has no fault (R13, R191): no constructor, so no step faults. -/
inductive Fault where
  deriving DecidableEq, Repr

/-- Why the model gives a step no meaning. -/
inductive Refusal where
  /-- Raised by `exec` for an instruction that has no meaning yet; safe, since the run stops. No arm
  of `exec` raises it. -/
  | notModelled (mnemonic : String)
  /-- Raised by a write of 0x20 to 0x40 to 0x4014: "OAM DMA from a page whose reads have side
  effects" (R13, R176). Safe: the run stops. -/
  | dmaFromSideEffectPage
  deriving DecidableEq, Repr

/-- The outcome of a step of this machine. -/
abbrev Result := Host.Outcome State Fault Refusal

/-- All flags 0. -/
def Flags.zero : Flags := ⟨false, false, false, false, false, false, false⟩

/-- The flags after CPU reset: `Z` is 1, the others 0 (R207). -/
def Flags.reset : Flags := { Flags.zero with z := true }

/-- Every PPU register 0 (R206). -/
def Ppu.powerOn : Ppu := ⟨0, 0, 0, 0, 0, 0, 0, false, 0, 0⟩

/-- The configuration before the host and the loader set it (log 10). -/
def Configuration.powerOn : Configuration :=
  { standard := .ntsc, mirroring := .horizontal, prgBanks := 0, chrBanks := 0,
    mapperNumber := 0, mapper := .default, params := {} }

/-- Power-on, before the loader runs: "every item of state in 10_state.md is zero" (R206). -/
def State.powerOn : State :=
  { cpu := ⟨0, 0, 0, 0, 0, Flags.zero, 0⟩
    ppu := Ppu.powerOn
    video := ⟨[], [], [], []⟩
    cpuMem := [], ppuMem := [], oam := []
    buttons := ⟨false, false, false, false, false, false, false, false⟩
    padStep := 0
    config := Configuration.powerOn
    mapperState := []
    running := true, paused := false
    phase := .boundary
    draws := 0 }

/-- The machine right after reset: power-on, nothing loaded, then `CpuReset` (R206 to R208, R209.3).
The reset vector of the empty memory reads 0x0000 (log 11). -/
def State.reset : State :=
  { State.powerOn with
    cpu := { a := 0, x := 0, y := 0, sp := 0xFF, pc := 0x0000, flags := Flags.reset, budget := 0 } }

end Sys2Proof.Machine
end

