-- ==== Sys2Proof/Machine/Cells.lean ====
section
/-! DEFINITION. Reading and writing cells in their canonical form: indexes strictly rising, no cell equal
to what an unlisted index reads as. -/

namespace Sys2Proof.Machine

/-- What an index that no cell lists reads as: 0 (R206: "every byte ... is 0", log 18). -/
def Cells.unlisted {w : Nat} : BitVec w := 0#w

/-- The value at an index. -/
def Cells.read {w : Nat} : Cells w → Nat → BitVec w
  | [], _ => Cells.unlisted
  | (j, b) :: rest, k => if j = k then b else Cells.read rest k

/-- A cell put in front of later cells, unless it says what an unlisted index says. -/
def Cells.cons {w : Nat} (k : Nat) (v : BitVec w) (rest : Cells w) : Cells w :=
  if v = Cells.unlisted then rest else (k, v) :: rest

/-- Write one cell, keeping the canonical form. -/
def Cells.write {w : Nat} : Cells w → Nat → BitVec w → Cells w
  | [], k, v => Cells.cons k v []
  | (j, b) :: rest, k, v =>
    if k < j then Cells.cons k v ((j, b) :: rest)
    else if k = j then Cells.cons k v rest
    else (j, b) :: Cells.write rest k v

/-- Write `f 0, f 1, …, f (n - 1)` at `base, base + 1, …`, in that order. -/
def Cells.fill {w : Nat} (m : Cells w) (base : Nat) : Nat → (Nat → BitVec w) → Cells w
  | 0, _ => m
  | n + 1, f => Cells.write (Cells.fill m base n f) (base + n) (f n)

/-- The canonical form. -/
def Cells.wf {w : Nat} : Cells w → Bool
  | [] => true
  | (j, b) :: rest => b != Cells.unlisted && rest.all (fun c => decide (j < c.1)) && Cells.wf rest

/-- Every listed index lies below `n`. -/
def Cells.within {w : Nat} (n : Nat) (m : Cells w) : Bool := m.all fun c => decide (c.1 < n)

/-- The canonical form of a byte memory. -/
def Memory.wf (m : Memory) : Bool := Cells.wf m

end Sys2Proof.Machine
end

