-- ==== Sys2Proof/Machine/PpuMem.lean ====
section
/-! DEFINITION. The PPU address space (20_memory.md R58 to R63), the fields of the PPU's registers (R26,
R27) and of the scroll registers (R30), and the two scroll increments (R184, R185). -/

namespace Sys2Proof.Machine

/-- `ctrl1.INC`: the VRAM increment mode (R26). -/
def Ppu.incMode (p : Ppu) : Bool := p.ctrl1.getLsbD 2

/-- `ctrl1.SPT`: the pattern table of 8x8 sprites (R26). -/
def Ppu.spritePattern (p : Ppu) : Bool := p.ctrl1.getLsbD 3

/-- `ctrl1.BPT`: the pattern table of the background (R26). -/
def Ppu.bgPattern (p : Ppu) : Bool := p.ctrl1.getLsbD 4

/-- `ctrl1.SSZ`: 8x16 sprites (R26). -/
def Ppu.tallSprites (p : Ppu) : Bool := p.ctrl1.getLsbD 5

/-- `ctrl1.NMIE`: NMI enable (R26). -/
def Ppu.nmiEnable (p : Ppu) : Bool := p.ctrl1.getLsbD 7

/-- `ctrl2.BGE`: background enable (R27). -/
def Ppu.bgEnable (p : Ppu) : Bool := p.ctrl2.getLsbD 3

/-- `ctrl2.SPE`: sprite enable (R27). -/
def Ppu.spriteEnable (p : Ppu) : Bool := p.ctrl2.getLsbD 4

/-- Coarse-X, bits 4:0 (R30). -/
def coarseX (r : Loopy) : BitVec 5 := r.extractLsb' 0 5

/-- Coarse-Y, bits 9:5 (R30). -/
def coarseY (r : Loopy) : BitVec 5 := r.extractLsb' 5 5

/-- The nametable-select bits 11:10, `nt_y` above `nt_x` (R30). -/
def ntSelect (r : Loopy) : BitVec 2 := r.extractLsb' 10 2

/-- Fine-Y, bits 14:12 (R30). -/
def fineY (r : Loopy) : BitVec 3 := r.extractLsb' 12 3

/-- `coarse_x(r) <- n` (R30). -/
def setCoarseX (r : Loopy) (n : BitVec 5) : Loopy := (r &&& 0x7FE0) ||| n.setWidth 15

/-- `coarse_y(r) <- n` (R30). -/
def setCoarseY (r : Loopy) (n : BitVec 5) : Loopy := (r &&& (0x7C1F : Loopy)) ||| (n.setWidth 15 <<< 5)

/-- `fine_y(r) <- n` (R30). -/
def setFineY (r : Loopy) (n : BitVec 3) : Loopy := (r &&& (0x0FFF : Loopy)) ||| (n.setWidth 15 <<< 12)

/-- `HInc(a)` (R184). -/
def hInc (a : Loopy) : Loopy :=
  if coarseX a = 31 then setCoarseX a 0 ^^^ 0x0400 else setCoarseX a (coarseX a + 1)

/-- `VInc(v)` (R185). -/
def vInc (v : Loopy) : Loopy :=
  if fineY v < 7 then setFineY v (fineY v + 1)
  else
    let u := setFineY v 0
    if coarseY u = 29 then setCoarseY u 0 ^^^ 0x0800
    else if coarseY u = 31 then setCoarseY u 0
    else setCoarseY u (coarseY u + 1)

/-- `Canon(a)`: the index of `ppu_mem` that holds a PPU address (R59). -/
def canon (a : PpuAddr) : PpuAddr :=
  let b := if 0x3000 ≤ a ∧ a ≤ 0x3EFF then a - 0x1000 else a
  if 0x3F20 ≤ b then 0x3F00 ||| (b &&& 0x1F) else b

/-- `PpuRead(a)` (R60). -/
def State.ppuRead (s : State) (a : PpuAddr) : Byte := s.ppuMem.read (canon a).toNat

/-- The nametables written together with nametable `n` (R62). -/
def nametableGroup : Mirroring → Nat → List Nat
  | .vertical, n => if n = 0 ∨ n = 2 then [0, 2] else [1, 3]
  | .horizontal, n => if n = 0 ∨ n = 1 then [0, 1] else [2, 3]
  | .oneScreen, _ => [0, 1, 2, 3]
  | .fourScreen, n => [n]

/-- Write every image of a nametable byte: `c` in 0x2000..0x2FFF, `n = c[11:10]`, `o = c & 0x3FF`
(R62). -/
def writeImages (m : Memory) (mir : Mirroring) (c : Nat) (v : Byte) : Memory :=
  (nametableGroup mir (c / 0x400 % 4)).foldl
    (fun m k => m.write (0x2000 + 0x400 * k + c % 0x400) v) m

/-- `PpuWrite(a, v)` on the array `ppu_mem` (R61 to R63). -/
def ppuStore (m : Memory) (mir : Mirroring) (a : PpuAddr) (v : Byte) : Memory :=
  let c := (canon a).toNat
  let m1 := m.write c v
  let m2 := if 0x2000 ≤ c ∧ c ≤ 0x2FFF then writeImages m1 mir c v else m1
  let m3 := if c = 0x3F10 then m2.write 0x3F00 v else m2
  if c = 0x3F00 then m3.write 0x3F10 v else m3

/-- `PpuWrite(a, v)` (R61). -/
def State.ppuWrite (s : State) (a : PpuAddr) (v : Byte) : State :=
  { s with ppuMem := ppuStore s.ppuMem s.config.mirroring a v }

end Sys2Proof.Machine
end

