-- ==== Sys2Proof/Machine/Bridge.lean ====
section
/-! DEFINITION. The CPU-PPU memory bridge (48_ppu_bridge.md): the PPU register accesses, OAM DMA, the
controller port, and the mapper's write hook (R47). A register is named by its low three address
bits, `r` for 0x2000 + r (R45). -/

namespace Sys2Proof.Machine

/-- `Peek(a)`: `cpu_mem[a]`, with no side effect (R50). -/
def State.peek (s : State) (a : Addr) : Byte := s.cpuMem.read a.toNat

/-- `Inc()`: 32 or 1 (R172). -/
def Ppu.inc (p : Ppu) : Loopy := if p.incMode then 32 else 1

/-- `StatusRead()` (R173). -/
def State.statusRead (s : State) : Byte × State :=
  ((s.ppu.status &&& 0xE0) ||| (s.ppu.addrLatch &&& 0x1F),
   { s with ppu := { s.ppu with status := s.ppu.status &&& 0x3F, w := false } })

/-- `DataRead()` (R174); the PPU address is the low 14 bits of `v`. -/
def State.dataRead (s : State) : Byte × State :=
  (s.ppu.readBuffer,
   { s with ppu := { s.ppu with
      readBuffer := s.ppuRead (s.ppu.v.setWidth 14), v := s.ppu.v + s.ppu.inc } })

/-- A read of a register the spec gives no value (R175): a free byte, no effect on the block's state;
only the model's count of draws moves (log 7). -/
def State.otherRead (s : State) : Byte × State :=
  (Config.freeByte s.draws, { s with draws := s.draws + 1 })

/-- `PpuRegRead(0x2000 + r)` (R163). -/
def State.ppuRegRead (s : State) (r : BitVec 3) : Byte × State :=
  if r = 2 then s.statusRead
  else if r = 7 then s.dataRead
  else s.otherRead

/-- Write to 0x2000 (R164). -/
def Ppu.write2000 (p : Ppu) (d : Byte) : Ppu :=
  { p with ctrl1 := d, t := (p.t &&& (0x73FF : Loopy)) ||| ((d &&& 0x03).setWidth 15 <<< 10) }

/-- Write to 0x2005 (R169). -/
def Ppu.write2005 (p : Ppu) (d : Byte) : Ppu :=
  if p.w then
    { p with t := (p.t &&& (0x0C1F : Loopy)) ||| ((d &&& 0x07).setWidth 15 <<< 12) |||
                  ((d >>> 3).setWidth 15 <<< 5),
             w := false }
  else
    { p with t := (p.t &&& 0x7FE0) ||| (d >>> 3).setWidth 15,
             fineX := (d &&& 0x07).setWidth 3,
             w := true }

/-- Write to 0x2006 (R170). -/
def Ppu.write2006 (p : Ppu) (d : Byte) : Ppu :=
  if p.w then
    let t := (p.t &&& 0x7F00) ||| d.setWidth 15
    { p with addrLatch := d, t := t, v := t, w := false }
  else
    { p with addrLatch := d, w := true,
             t := (p.t &&& (0x00FF : Loopy)) ||| ((d &&& 0x3F).setWidth 15 <<< 8) }

/-- Write to 0x2004 (R168). -/
def State.oamDataWrite (s : State) (d : Byte) : State :=
  { s with oam := s.oam.write s.ppu.oamAddr.toNat d,
           ppu := { s.ppu with oamAddr := s.ppu.oamAddr + 1 } }

/-- Write to 0x2007 (R171). -/
def State.dataWrite (s : State) (d : Byte) : State :=
  { s.ppuWrite (s.ppu.v.setWidth 14) d with ppu := { s.ppu with v := s.ppu.v + s.ppu.inc } }

/-- `PpuRegWrite(0x2000 + r, d)` (R163 to R171). A write to 0x2002 changes nothing (R166). -/
def State.ppuRegWrite (s : State) (r : BitVec 3) (d : Byte) : State :=
  match r.toNat with
  | 0 => { s with ppu := s.ppu.write2000 d }
  | 1 => { s with ppu := { s.ppu with ctrl2 := d } }
  | 2 => s
  | 3 => { s with ppu := { s.ppu with oamAddr := d } }
  | 4 => s.oamDataWrite d
  | 5 => { s with ppu := s.ppu.write2005 d }
  | 6 => { s with ppu := s.ppu.write2006 d }
  | _ => s.dataWrite d

/-- The pages whose reads have side effects: 0x20..0x40 (R176). -/
def sideEffectPage (d : Byte) : Bool := decide (0x20 ≤ d ∧ d ≤ 0x40)

/-- The bytes of CPU page `d` (R176). -/
def State.pageByte (s : State) (d : Byte) (i : Nat) : Byte :=
  s.peek (BitVec.ofNat 16 (d.toNat * 0x100 + i))

/-- `OamDma(d)` (R176): refused from a side-effect page, else 256 bytes to `oam[0..255]`. -/
def State.oamDma (s : State) (d : Byte) : Result :=
  if sideEffectPage d then .refused .dmaFromSideEffectPage
  else .next { s with oam := s.oam.fill 0 256 (s.pageByte d) }

/-- The `k`-th button in the order of R38. -/
def buttonAt (b : Buttons) (k : Fin 8) : Bool :=
  match k with
  | 0 => b.a
  | 1 => b.b
  | 2 => b.select
  | 3 => b.start
  | 4 => b.up
  | 5 => b.down
  | 6 => b.left
  | 7 => b.right

/-- `PadRead()` (R177). -/
def State.padRead (s : State) : Byte × State :=
  (if buttonAt s.buttons s.padStep then 0x01 else 0x00, { s with padStep := s.padStep + 1 })

/-- `PadWrite(d)`: any byte resets the sequencer (R178). -/
def State.padWrite (s : State) : State := { s with padStep := 0 }

/-- Bytes rewritten by a mapper plug-in: PRG memory (R47). -/
def writePrg (m : Memory) (l : List (BitVec 15 × Byte)) : Memory :=
  l.foldl (fun m c => m.write (0x8000 + c.1.toNat) c.2) m

/-- Bytes rewritten by a mapper plug-in: CHR memory (R47). -/
def writeChr (m : Memory) (l : List (BitVec 13 × Byte)) : Memory :=
  l.foldl (fun m c => m.write c.1.toNat c.2) m

/-- What a plug-in's hook does to the state; nothing else changes (R47). -/
def State.applyMapper (s : State) (e : MapperEffect) : State :=
  { s with mapperState := e.state
           cpuMem := writePrg s.cpuMem e.prg
           ppuMem := writeChr s.ppuMem e.chr
           config := { s.config with mirroring := e.mirroring.getD s.config.mirroring } }

/-- A write to 0x8000..0xFFFF calls `MAPPER_WRITE`; the default mapping changes nothing (R47). -/
def State.mapperWrite (s : State) (a : Addr) (v : Byte) : State :=
  match s.config.mapper with
  | .default => s
  | .plugin => s.applyMapper (Config.pluginWrite s.config.mapperNumber a v s.mapperState)

end Sys2Proof.Machine
end

