-- ==== Sys2Proof/Machine/Flags.lean ====
section
/-! DEFINITION. The status byte and every flag computation (R22 to R24, R106 to R113, R120 to R124). -/

namespace Sys2Proof.Machine

/-- `Pack()`: bit 7 to bit 0 are `N V 1 B D I Z C` (R22). -/
def Flags.pack (f : Flags) : Byte :=
  BitVec.ofBool f.n ++ BitVec.ofBool f.v ++ 1#1 ++ BitVec.ofBool f.b ++
  BitVec.ofBool f.d ++ BitVec.ofBool f.i ++ BitVec.ofBool f.z ++ BitVec.ofBool f.c

/-- `Unpack(b)`; bit 5 is discarded (R23). -/
def Flags.unpack (p : Byte) : Flags :=
  { n := p.getLsbD 7, v := p.getLsbD 6, b := p.getLsbD 4, d := p.getLsbD 3,
    i := p.getLsbD 2, z := p.getLsbD 1, c := p.getLsbD 0 }

/-- `SetNZ(r)` (R24). -/
def Flags.setNZ (f : Flags) (r : Byte) : Flags :=
  { f with z := r == 0, n := r.getLsbD 7 }

/-- The exact sum of R108: `A + m + C`, an integer 0..511. -/
def addSum (a m : Byte) (c : Bool) : Nat := a.toNat + m.toNat + c.toNat

/-- The result of ADC: the low 8 bits of the sum (R108). -/
def addResult (a m : Byte) (c : Bool) : Byte := BitVec.ofNat 8 (addSum a m c)

/-- The flags of ADC (R108): `C`, `V`, then `SetNZ`. -/
def Flags.add (f : Flags) (a m : Byte) : Flags :=
  let r := addResult a m f.c
  { f with c := decide (addSum a m f.c > 0xFF),
           v := ((a ^^^ r) &&& (m ^^^ r) &&& 0x80) != 0 }.setNZ r

/-- The flags of `Compare(r, m)` (R124); `V` is not written. -/
def Flags.compare (f : Flags) (r m : Byte) : Flags :=
  { f with c := decide (m.toNat ≤ r.toNat), z := r == m, n := (r - m).getLsbD 7 }

/-- The flags of BIT (R113): `N` and `V` come from `m`. -/
def Flags.bitTest (f : Flags) (a m : Byte) : Flags :=
  { f with z := (a &&& m) == 0, n := m.getLsbD 7, v := m.getLsbD 6 }

/-- The flags of a shift or rotate: `C` is the bit shifted out, then `SetNZ` (R120 to R123). -/
def Flags.shift (f : Flags) (r : Byte) (out : Bool) : Flags := { f with c := out }.setNZ r

/-- ASL's result and the bit shifted out (R120). -/
def aslByte (m : Byte) : Byte × Bool := (m <<< 1, m.getLsbD 7)

/-- LSR's result and the bit shifted out (R121). -/
def lsrByte (m : Byte) : Byte × Bool := (m >>> 1, m.getLsbD 0)

/-- ROL's result and the bit shifted out; the old `C` enters bit 0 (R122). -/
def rolByte (c : Bool) (m : Byte) : Byte × Bool :=
  ((m <<< 1) ||| (BitVec.ofBool c).setWidth 8, m.getLsbD 7)

/-- ROR's result and the bit shifted out; the old `C` enters bit 7 (R123). -/
def rorByte (c : Bool) (m : Byte) : Byte × Bool :=
  ((BitVec.ofBool c).setWidth 8 <<< 7 ||| m >>> 1, m.getLsbD 0)

end Sys2Proof.Machine
end

