-- ==== Sys2Proof/Machine/Ops.lean ====
section
/-! DEFINITION. The CPU memory map (R48, R49), the stack (R141), taking an interrupt and returning from
one (R160, R161, R195), CPU reset (R207) and the byte fetch (R82). -/

namespace Sys2Proof.Machine

/-- `MemRead(a, 1)` with its side effects (R48). -/
def State.memRead (s : State) (a : Addr) : Byte × State :=
  if a < 0x2000 then (s.peek a, s)
  else if a < 0x4000 then s.ppuRegRead (a.setWidth 3)
  else if a = 0x4016 then s.padRead
  else (s.peek a, s)

/-- An address whose read is plain: neither a PPU register nor the controller port (R48, R56). -/
def plainAddr (a : Addr) : Bool := !(decide (0x2000 ≤ a ∧ a < 0x4000) || a == 0x4016)

/-- A write below 0x2000: the four images of the RAM byte (R44). -/
def ramStore (m : Memory) (a : Addr) (v : Byte) : Memory :=
  (List.range 4).foldl (fun m k => m.write ((a &&& 0x07FF).toNat + 0x0800 * k) v) m

/-- The RAM arm of `MemWrite` (R44). -/
def State.ramWrite (s : State) (a : Addr) (v : Byte) : State :=
  { s with cpuMem := ramStore s.cpuMem a v }

/-- The plain-cell arm of `MemWrite` (R46). -/
def State.cellWrite (s : State) (a : Addr) (v : Byte) : State :=
  { s with cpuMem := s.cpuMem.write a.toNat v }

/-- `MemWrite(a, 1, v)` (R49). -/
def State.memWrite (s : State) (a : Addr) (v : Byte) : Result :=
  if a < 0x2000 then .next (s.ramWrite a v)
  else if a < 0x4000 then .next (s.ppuRegWrite (a.setWidth 3) v)
  else if a = 0x4014 then s.oamDma v
  else if a = 0x4016 then .next s.padWrite
  else if a < 0x8000 then .next (s.cellWrite a v)
  else .next (s.mapperWrite a v)

/-- Continue from a next state; a stop stays as it is. -/
def onNext (o : Result) (f : State → State) : Result :=
  match o with
  | .next t => .next (f t)
  | .fault r => .fault r
  | .refused r => .refused r

/-- The stack address `0x0100 + S` (R19). -/
def stackAddr (sp : Byte) : Addr := 0x0100 + sp.setWidth 16

/-- `Push(v)` (R141). The address lies in RAM, so `MemWrite` is its RAM arm (log 17). -/
def State.push (s : State) (v : Byte) : State :=
  let t := s.ramWrite (stackAddr s.cpu.sp) v
  { t with cpu := { t.cpu with sp := t.cpu.sp - 1 } }

/-- `Pull()` (R141). The address lies in RAM, so `MemRead` is its RAM arm (log 17). -/
def State.pull (s : State) : Byte × State :=
  let sp := s.cpu.sp + 1
  (s.peek (stackAddr sp), { s with cpu := { s.cpu with sp := sp } })

/-- The high byte of a 16-bit value. -/
def hiByte (a : Addr) : Byte := a.extractLsb' 8 8

/-- The low byte of a 16-bit value. -/
def loByte (a : Addr) : Byte := a.extractLsb' 0 8

/-- The address that a vector at `vec` holds, low byte first (R51, R53). The vectors lie in ROM, so
`MemRead` is its plain arm (log 17). -/
def State.vector (s : State) (vec : Addr) : Addr :=
  operand16 (s.peek vec) (s.peek (vec + 1))

/-- Push the return address `pc`, high byte first (R139, R160, R195). -/
def State.pushAddr (s : State) (pc : Addr) : State := (s.push (hiByte pc)).push (loByte pc)

/-- What BRK and the two interrupts share (R160, R195): push `PC` and `Pack()`, set `I`, load `PC` from
the vector. -/
def State.enterVector (s : State) (vec : Addr) : State :=
  let t := (s.pushAddr s.cpu.pc).push s.cpu.flags.pack
  { t with cpu := { t.cpu with flags := { t.cpu.flags with i := true }, pc := t.vector vec } }

/-- `INTERRUPT_COST` (R8, R195). -/
def interruptCost : Int := 7

/-- `Interrupt(vec)` (R195): the entry, `B` cleared after `Pack()` was pushed, 7 cycles charged. -/
def State.interrupt (s : State) (vec : Addr) : State :=
  let t := s.enterVector vec
  { t with cpu := { t.cpu with flags := { t.cpu.flags with b := false },
                               budget := t.cpu.budget - interruptCost } }

/-- Return from an interrupt: pull the flags, then the return address with no adjustment (R161,
R196). -/
def State.returnFromInterrupt (s : State) : State :=
  let (p, s1) := s.pull
  let (lo, s2) := s1.pull
  let (hi, s3) := s2.pull
  { s3 with cpu := { s3.cpu with flags := Flags.unpack p, pc := operand16 lo hi } }

/-- `CpuReset()` (R207): PPU, memory and `budget` are untouched. -/
def State.cpuReset (s : State) : State :=
  { s with cpu := { a := 0, x := 0, y := 0, sp := 0xFF, flags := Flags.reset,
                    pc := s.vector 0xFFFC, budget := s.cpu.budget } }

/-- `FetchByte()` (R82). -/
def State.fetchByte (s : State) : Byte × State :=
  let (b, t) := s.memRead s.cpu.pc
  (b, { t with cpu := { t.cpu with pc := t.cpu.pc + 1 } })

end Sys2Proof.Machine
end

