-- ==== Sys2Proof/Machine/Boot.lean ====
section
/-! DEFINITION. What the host does before the first frame (70_reset_and_hazards.md R209.1 to R209.3): the
memory that the loader of the default mapping produces, and the start. These are operations of the
host on the state, not steps of the block (log 20). -/

namespace Sys2Proof.Machine

/-- A cartridge as the loader reads it: the PRG banks, the CHR banks, and bytes 6 and 7 of the iNES
header (R209.1). -/
structure Cartridge where
  prg : List (List Byte)
  chr : List (List Byte)
  flags6 : Byte
  flags7 : Byte
  deriving DecidableEq, Repr

/-- `MIRRORING` by byte 6: bit 3 four-screen, else bit 0 vertical (R209.1). -/
def Cartridge.mirroring (c : Cartridge) : Mirroring :=
  if c.flags6.getLsbD 3 then .fourScreen
  else if c.flags6.getLsbD 0 then .vertical
  else .horizontal

/-- The mapper number: its low four bits from byte 6, its high four from byte 7 (R209.1). -/
def Cartridge.mapperNumber (c : Cartridge) : Byte :=
  (c.flags7 &&& 0xF0) ||| (c.flags6 >>> 4)

/-- Place a bank of `n` bytes at `base`. -/
def placeBank (m : Memory) (base n : Nat) (bank : List Byte) : Memory :=
  m.fill base n fun i => bank.getD i 0

/-- The PRG banks of the default mapping: one bank twice, or two banks (R209.1). Other counts need a
mapper plug-in. -/
def loadPrg (m : Memory) : List (List Byte) → Option Memory
  | [p] => some (placeBank (placeBank m 0x8000 0x4000 p) 0xC000 0x4000 p)
  | [p, q] => some (placeBank (placeBank m 0x8000 0x4000 p) 0xC000 0x4000 q)
  | _ => none

/-- The CHR bank of the default mapping, if there is one (R209.1). Other counts need a mapper
plug-in. -/
def loadChr (m : Memory) : List (List Byte) → Option Memory
  | [] => some m
  | [q] => some (placeBank m 0x0000 0x2000 q)
  | _ => none

/-- The loader of the default mapping (R209.1). -/
def State.load (s : State) (c : Cartridge) : Option State :=
  match loadPrg s.cpuMem c.prg, loadChr s.ppuMem c.chr with
  | some m, some p =>
    some { s with cpuMem := m, ppuMem := p, mapperState := []
                  config := { s.config with
                    mirroring := c.mirroring, prgBanks := c.prg.length,
                    chrBanks := c.chr.length, mapperNumber := c.mapperNumber,
                    mapper := .default } }
  | _, _ => none

/-- Power-on, loading, the video standard, `CpuReset` (R208, R209.1 to R209.3). -/
def bootState (std : VideoStandard) (c : Cartridge) : Option State :=
  ({ State.powerOn with config := { Configuration.powerOn with standard := std } }.load c).map
    State.cpuReset

/-- Store one byte as a program loader would: in RAM in all four images, so that they stay equal
(R44). -/
def State.placeByte (s : State) (a : Addr) (v : Byte) : State :=
  if a < 0x2000 then s.ramWrite a v else s.cellWrite a v

/-- Store the bytes of an instruction at an address and the two after it. -/
def State.placeWord (s : State) (a : Addr) (nbits w : Nat) : State :=
  match tableBytes nbits w with
  | [b0, b1, b2] => ((s.placeByte a b0).placeByte (a + 1) b1).placeByte (a + 2) b2
  | _ => s

/-- Where an instruction can be placed so that the next step fetches it: at `PC` if the three bytes
there are plain, else at 0x8000 (log 11). -/
def State.fetchPlace (s : State) : Addr :=
  let pc := s.cpu.pc
  if plainAddr pc && plainAddr (pc + 1) && plainAddr (pc + 2) then pc else 0x8000

/-- The CPU run in which the next instruction runs: the one in progress, else the startup run. -/
def Phase.runNow : Phase → Phase
  | .running r => .running r
  | _ => .running .startup

/-- The state in a CPU run with budget left, an instruction's bytes stored where it fetches next
(log 11). -/
def State.placeInstr (s : State) (nbits w : Nat) : State :=
  let a := s.fetchPlace
  let t := s.placeWord a nbits w
  { t with cpu := { t.cpu with pc := a, budget := if 0 < t.cpu.budget then t.cpu.budget else 1 }
           phase := s.phase.runNow }

end Sys2Proof.Machine
end

