-- ==== Sys2Proof/Machine/Operands.lean ====
section
/-! DEFINITION. The operand forms (40_addressing.md R84 to R96) and the access patterns (R97 to R99). An
instruction's operand bytes are already fetched when its meaning runs (R82, log 12). -/

namespace Sys2Proof.Machine

/-- The pointer at zero-page address `p`: its high byte is at `(p + 1) & 0xFF` (R93, R94). Page 0 is
RAM, so both reads are plain (log 17). -/
def State.zpPointer (s : State) (p : Byte) : Addr :=
  operand16 (s.peek (p.setWidth 16)) (s.peek ((p + 1).setWidth 16))

/-- `EA(mode)` (R87 to R94). -/
def State.effAddr (s : State) : MemOperand → Addr
  | .zp n => n.setWidth 16
  | .zpx n => (n + s.cpu.x).setWidth 16
  | .zpy n => (n + s.cpu.y).setWidth 16
  | .abs a => a
  | .absx a => a + s.cpu.x.setWidth 16
  | .absy a => a + s.cpu.y.setWidth 16
  | .indx n => s.zpPointer (n + s.cpu.x)
  | .indy n => s.zpPointer n + s.cpu.y.setWidth 16

/-- The operand `m` of a read instruction (R97). -/
def State.readOperand (s : State) : ReadOperand → Byte × State
  | .imm n => (n, s)
  | .mem m => s.memRead (s.effAddr m)

/-- A read instruction that ends in the CPU: read the operand, then change the CPU by it (R97). -/
def State.withOperand (s : State) (m : ReadOperand) (f : Byte → Cpu → Cpu) : Result :=
  let (b, t) := s.readOperand m
  .next { t with cpu := f b t.cpu }

/-- The read-modify-write pattern (R99): one read, one write, then the flags from the byte read and
the result. -/
def State.modify (s : State) (m : MemOperand) (f : Byte → Byte)
    (g : Byte → Flags → Flags) : Result :=
  let ea := s.effAddr m
  let (b, t) := s.memRead ea
  onNext (t.memWrite ea (f b)) fun u => { u with cpu := { u.cpu with flags := g b u.cpu.flags } }

/-- A shift or rotate of the accumulator or of memory (43_shift_rotate.md). -/
def State.shiftOperand (s : State) (m : ShiftOperand) (f : Byte → Byte × Bool) : Result :=
  match m with
  | .acc =>
    .next { s with cpu := { s.cpu with
      a := (f s.cpu.a).1, flags := s.cpu.flags.shift (f s.cpu.a).1 (f s.cpu.a).2 } }
  | .mem m => s.modify m (fun b => (f b).1) (fun b fl => fl.shift (f b).1 (f b).2)

/-- The second address of the pointer of `JMP (p)` (R95). -/
def pointerHigh (wrap : Bool) (p : Addr) : Addr :=
  if wrap then (p &&& 0xFF00) ||| ((p + 1) &&& 0x00FF) else p + 1

/-- The target of JMP, with the pointer reads of the indirect form (R95, R138). -/
def State.jumpTarget (s : State) : JumpOperand → Addr × State
  | .abs a => (a, s)
  | .ind p =>
    let (lo, s1) := s.memRead p
    let (hi, s2) := s1.memRead (pointerHigh s.config.params.jmpIndPageWrap p)
    (operand16 lo hi, s2)

/-- A conditional branch: `PC` is already the address after it (R96, R128). -/
def State.branch (s : State) (taken : Bool) (d : Byte) : State :=
  if taken then { s with cpu := { s.cpu with pc := s.cpu.pc + d.signExtend 16 } } else s

/-- Change the CPU alone. -/
def State.mapCpu (s : State) (f : Cpu → Cpu) : State := { s with cpu := f s.cpu }

end Sys2Proof.Machine
end

