-- ==== Sys2Proof/Machine/ArithLogic.lean ====
section
/-! DEFINITION. Arithmetic, logic, increment and decrement (42_arith_logic.md). -/

namespace Sys2Proof.Machine

/-- ADC (R108); `D` is ignored (R107). -/
def execAdc (m : ReadOperand) (s : State) : Result :=
  s.withOperand m fun b c =>
    { c with a := addResult c.a b c.flags.c, flags := c.flags.add c.a b }

/-- SBC: ADC of the complement of `m` (R109); `D` is ignored (R107). -/
def execSbc (m : ReadOperand) (s : State) : Result :=
  s.withOperand m fun b c =>
    { c with a := addResult c.a (~~~b) c.flags.c, flags := c.flags.add c.a (~~~b) }

/-- AND: `A <- A & m; SetNZ(A)` (R110). -/
def execAnd (m : ReadOperand) (s : State) : Result :=
  s.withOperand m fun b c => { c with a := c.a &&& b, flags := c.flags.setNZ (c.a &&& b) }

/-- ORA: `A <- A | m; SetNZ(A)` (R111). -/
def execOra (m : ReadOperand) (s : State) : Result :=
  s.withOperand m fun b c => { c with a := c.a ||| b, flags := c.flags.setNZ (c.a ||| b) }

/-- EOR: `A <- A ^ m; SetNZ(A)` (R112). -/
def execEor (m : ReadOperand) (s : State) : Result :=
  s.withOperand m fun b c => { c with a := c.a ^^^ b, flags := c.flags.setNZ (c.a ^^^ b) }

/-- BIT (R113); `A` is unchanged. -/
def execBit (m : MemOperand) (s : State) : Result :=
  s.withOperand (.mem m) fun b c => { c with flags := c.flags.bitTest c.a b }

/-- INC (R114). -/
def execInc (m : MemOperand) (s : State) : Result :=
  s.modify m (fun b => b + 1) (fun b fl => fl.setNZ (b + 1))

/-- DEC (R115). -/
def execDec (m : MemOperand) (s : State) : Result :=
  s.modify m (fun b => b - 1) (fun b fl => fl.setNZ (b - 1))

/-- INX: `X <- (X + 1) & 0xFF; SetNZ(X)` (R116). -/
def execInx (s : State) : Result :=
  .next (s.mapCpu fun c => { c with x := c.x + 1, flags := c.flags.setNZ (c.x + 1) })

/-- INY: `Y <- (Y + 1) & 0xFF; SetNZ(Y)` (R117). -/
def execIny (s : State) : Result :=
  .next (s.mapCpu fun c => { c with y := c.y + 1, flags := c.flags.setNZ (c.y + 1) })

/-- DEX: `X <- (X - 1) & 0xFF; SetNZ(X)` (R118). -/
def execDex (s : State) : Result :=
  .next (s.mapCpu fun c => { c with x := c.x - 1, flags := c.flags.setNZ (c.x - 1) })

/-- DEY: `Y <- (Y - 1) & 0xFF; SetNZ(Y)` (R119). -/
def execDey (s : State) : Result :=
  .next (s.mapCpu fun c => { c with y := c.y - 1, flags := c.flags.setNZ (c.y - 1) })


end Sys2Proof.Machine
end

