-- ==== Sys2Proof/Machine/BranchJump.lean ====
section
/-! DEFINITION. Branches, jumps, calls and returns (45_branch_jump.md). -/

namespace Sys2Proof.Machine

/-- BPL: branch if `N = 0` (R130, R128). -/
def execBpl (d : Byte) (s : State) : Result := .next (s.branch (!s.cpu.flags.n) d)

/-- BMI: branch if `N = 1` (R131, R128). -/
def execBmi (d : Byte) (s : State) : Result := .next (s.branch s.cpu.flags.n d)

/-- BVC: branch if `V = 0` (R132, R128). -/
def execBvc (d : Byte) (s : State) : Result := .next (s.branch (!s.cpu.flags.v) d)

/-- BVS: branch if `V = 1` (R133, R128). -/
def execBvs (d : Byte) (s : State) : Result := .next (s.branch s.cpu.flags.v d)

/-- BCC: branch if `C = 0` (R134, R128). -/
def execBcc (d : Byte) (s : State) : Result := .next (s.branch (!s.cpu.flags.c) d)

/-- BCS: branch if `C = 1` (R135, R128). -/
def execBcs (d : Byte) (s : State) : Result := .next (s.branch s.cpu.flags.c d)

/-- BNE: branch if `Z = 0` (R136, R128). -/
def execBne (d : Byte) (s : State) : Result := .next (s.branch (!s.cpu.flags.z) d)

/-- BEQ: branch if `Z = 1` (R137, R128). -/
def execBeq (d : Byte) (s : State) : Result := .next (s.branch s.cpu.flags.z d)

/-- JMP (R138). -/
def execJmp (m : JumpOperand) (s : State) : Result :=
  let (a, t) := s.jumpTarget m
  .next { t with cpu := { t.cpu with pc := a } }

/-- JSR: pushes the address of its own last byte, `PC - 1` (R139). -/
def execJsr (a : Addr) (s : State) : Result :=
  let t := s.pushAddr (s.cpu.pc - 1)
  .next { t with cpu := { t.cpu with pc := a } }

/-- RTS: the pulled address plus 1 (R140). -/
def execRts (s : State) : Result :=
  let (lo, s1) := s.pull
  let (hi, s2) := s1.pull
  .next { s2 with cpu := { s2.cpu with pc := operand16 lo hi + 1 } }


end Sys2Proof.Machine
end

