-- ==== Sys2Proof/Machine/Compare.lean ====
section
/-! DEFINITION. Compares (44_compare.md). -/

namespace Sys2Proof.Machine

/-- CMP: `Compare(A, m)` (R125, R124). -/
def execCmp (m : ReadOperand) (s : State) : Result :=
  s.withOperand m fun b c => { c with flags := c.flags.compare c.a b }

/-- CPX: `Compare(X, m)` (R126, R124). -/
def execCpx (m : ReadOperand) (s : State) : Result :=
  s.withOperand m fun b c => { c with flags := c.flags.compare c.x b }

/-- CPY: `Compare(Y, m)` (R127, R124). -/
def execCpy (m : ReadOperand) (s : State) : Result :=
  s.withOperand m fun b c => { c with flags := c.flags.compare c.y b }


end Sys2Proof.Machine
end

