-- ==== Sys2Proof/Machine/FlagsSystem.lean ====
section
/-! DEFINITION. Flag instructions, NOP, BRK, RTI and unrecognised opcodes (47_flags_system.md). -/

namespace Sys2Proof.Machine

/-- CLC: `C <- 0` (R152). -/
def execClc (s : State) : Result :=
  .next (s.mapCpu fun c => { c with flags := { c.flags with c := false } })

/-- SEC: `C <- 1` (R153). -/
def execSec (s : State) : Result :=
  .next (s.mapCpu fun c => { c with flags := { c.flags with c := true } })

/-- CLI: `I <- 0` (R154). -/
def execCli (s : State) : Result :=
  .next (s.mapCpu fun c => { c with flags := { c.flags with i := false } })

/-- SEI: `I <- 1` (R155). -/
def execSei (s : State) : Result :=
  .next (s.mapCpu fun c => { c with flags := { c.flags with i := true } })

/-- CLD: `D <- 0` (R156). -/
def execCld (s : State) : Result :=
  .next (s.mapCpu fun c => { c with flags := { c.flags with d := false } })

/-- SED: `D <- 1` (R157). -/
def execSed (s : State) : Result :=
  .next (s.mapCpu fun c => { c with flags := { c.flags with d := true } })

/-- CLV: `V <- 0` (R158). -/
def execClv (s : State) : Result :=
  .next (s.mapCpu fun c => { c with flags := { c.flags with v := false } })

/-- NOP: nothing beyond the step's own fetch and cost (R159). -/
def execNop (s : State) : Result := .next s

/-- BRK: skip the padding byte without reading it, set `B`, then the entry shared with the interrupts
through 0xFFFE, whatever `I` holds (R160). -/
def execBrk (s : State) : Result :=
  .next ((s.mapCpu fun c =>
    { c with pc := c.pc + 1, flags := { c.flags with b := true } }).enterVector 0xFFFE)

/-- RTI (R161). -/
def execRti (s : State) : Result := .next s.returnFromInterrupt

/-- An unrecognised opcode: a 1-byte no-op; nothing beyond the step's own fetch and cost (R162). -/
def execUndef (_op : Byte) (s : State) : Result := .next s


end Sys2Proof.Machine
end

