-- ==== Sys2Proof/Machine/LoadStore.lean ====
section
/-! DEFINITION. Loads and stores (41_load_store.md). -/

namespace Sys2Proof.Machine

/-- LDA: `A <- m; SetNZ(A)` (R100). -/
def execLda (m : ReadOperand) (s : State) : Result :=
  s.withOperand m fun b c => { c with a := b, flags := c.flags.setNZ b }

/-- LDX: `X <- m; SetNZ(X)` (R101). -/
def execLdx (m : ReadOperand) (s : State) : Result :=
  s.withOperand m fun b c => { c with x := b, flags := c.flags.setNZ b }

/-- LDY: `Y <- m; SetNZ(Y)` (R102). -/
def execLdy (m : ReadOperand) (s : State) : Result :=
  s.withOperand m fun b c => { c with y := b, flags := c.flags.setNZ b }

/-- STA: `MemWrite(EA, 1, A)` (R103, R98). -/
def execSta (m : MemOperand) (s : State) : Result := s.memWrite (s.effAddr m) s.cpu.a

/-- STX: `MemWrite(EA, 1, X)` (R104, R98). -/
def execStx (m : MemOperand) (s : State) : Result := s.memWrite (s.effAddr m) s.cpu.x

/-- STY: `MemWrite(EA, 1, Y)` (R105, R98). -/
def execSty (m : MemOperand) (s : State) : Result := s.memWrite (s.effAddr m) s.cpu.y


end Sys2Proof.Machine
end

