-- ==== Sys2Proof/Machine/ShiftRotate.lean ====
section
/-! DEFINITION. Shifts and rotates (43_shift_rotate.md). The carry a rotate reads is the one before it writes `C`. -/

namespace Sys2Proof.Machine

/-- ASL (R120). -/
def execAsl (m : ShiftOperand) (s : State) : Result := s.shiftOperand m aslByte

/-- LSR (R121). -/
def execLsr (m : ShiftOperand) (s : State) : Result := s.shiftOperand m lsrByte

/-- ROL (R122). -/
def execRol (m : ShiftOperand) (s : State) : Result := s.shiftOperand m (rolByte s.cpu.flags.c)

/-- ROR (R123). -/
def execRor (m : ShiftOperand) (s : State) : Result := s.shiftOperand m (rorByte s.cpu.flags.c)


end Sys2Proof.Machine
end

