-- ==== Sys2Proof/Machine/StackTransfer.lean ====
section
/-! DEFINITION. Stack and register transfers (46_stack_transfer.md). -/

namespace Sys2Proof.Machine

/-- PHA: `Push(A)` (R142). -/
def execPha (s : State) : Result := .next (s.push s.cpu.a)

/-- PHP: `Push(Pack() | 0x10)`; `B` is unchanged (R143). -/
def execPhp (s : State) : Result := .next (s.push (s.cpu.flags.pack ||| 0x10))

/-- PLA: `A <- Pull(); SetNZ(A)` (R144). -/
def execPla (s : State) : Result :=
  let (b, t) := s.pull
  .next (t.mapCpu fun c => { c with a := b, flags := c.flags.setNZ b })

/-- PLP: `Unpack(Pull())` (R145). -/
def execPlp (s : State) : Result :=
  let (b, t) := s.pull
  .next (t.mapCpu fun c => { c with flags := Flags.unpack b })

/-- TAX: `X <- A; SetNZ(X)` (R146). -/
def execTax (s : State) : Result :=
  .next (s.mapCpu fun c => { c with x := c.a, flags := c.flags.setNZ c.a })

/-- TAY: `Y <- A; SetNZ(Y)` (R147). -/
def execTay (s : State) : Result :=
  .next (s.mapCpu fun c => { c with y := c.a, flags := c.flags.setNZ c.a })

/-- TXA: `A <- X; SetNZ(A)` (R148). -/
def execTxa (s : State) : Result :=
  .next (s.mapCpu fun c => { c with a := c.x, flags := c.flags.setNZ c.x })

/-- TYA: `A <- Y; SetNZ(A)` (R149). -/
def execTya (s : State) : Result :=
  .next (s.mapCpu fun c => { c with a := c.y, flags := c.flags.setNZ c.y })

/-- TSX: `X <- S; SetNZ(X)` (R150). -/
def execTsx (s : State) : Result :=
  .next (s.mapCpu fun c => { c with x := c.sp, flags := c.flags.setNZ c.sp })

/-- TXS: `S <- X`; no flag changes (R151). -/
def execTxs (s : State) : Result := .next (s.mapCpu fun c => { c with sp := c.x })


end Sys2Proof.Machine
end

