-- ==== Sys2Proof/Machine/Cycles.lean ====
section
/-! DEFINITION. The fixed cost of each opcode byte (70_reset_and_hazards.md R213). -/

namespace Sys2Proof.Machine

/-- The table of R213: a row for each high nibble, a column for each low nibble. 0 stands for the `U` of
an unrecognised opcode; no documented opcode costs 0. -/
def cycleTable : List (List Nat) :=
  [[7, 6, 0, 0, 0, 3, 5, 0, 3, 2, 2, 0, 0, 4, 6, 0]] ++
  [[2, 5, 0, 0, 0, 4, 6, 0, 2, 4, 0, 0, 0, 4, 7, 0]] ++
  [[6, 6, 0, 0, 3, 3, 5, 0, 4, 2, 2, 0, 4, 4, 6, 0]] ++
  [[2, 5, 0, 0, 0, 4, 6, 0, 2, 4, 0, 0, 0, 4, 7, 0]] ++
  [[6, 6, 0, 0, 0, 3, 5, 0, 3, 2, 2, 0, 3, 4, 6, 0]] ++
  [[2, 5, 0, 0, 0, 4, 6, 0, 2, 4, 0, 0, 0, 4, 7, 0]] ++
  [[6, 6, 0, 0, 0, 3, 5, 0, 4, 2, 2, 0, 5, 4, 6, 0]] ++
  [[2, 5, 0, 0, 0, 4, 6, 0, 2, 4, 0, 0, 0, 4, 7, 0]] ++
  [[0, 6, 0, 0, 3, 3, 3, 0, 2, 0, 2, 0, 4, 4, 4, 0]] ++
  [[2, 6, 0, 0, 4, 4, 4, 0, 2, 5, 2, 0, 0, 5, 0, 0]] ++
  [[2, 6, 2, 0, 3, 3, 3, 0, 2, 2, 2, 0, 4, 4, 4, 0]] ++
  [[2, 5, 0, 0, 4, 4, 4, 0, 2, 4, 2, 0, 4, 4, 4, 0]] ++
  [[2, 6, 0, 0, 3, 3, 5, 0, 2, 2, 2, 0, 4, 4, 6, 0]] ++
  [[2, 5, 0, 0, 0, 4, 6, 0, 2, 4, 0, 0, 0, 4, 7, 0]] ++
  [[2, 6, 0, 0, 3, 3, 5, 0, 2, 2, 2, 0, 4, 4, 6, 0]] ++
  [[2, 5, 0, 0, 0, 4, 6, 0, 2, 4, 0, 0, 0, 4, 7, 0]]

/-- `CYCLES(op)` (R213, R8); an unrecognised opcode costs `UNDEF_CYCLES` (R162). -/
def cycles (p : Params) (op : Byte) : Nat :=
  match (cycleTable.getD (op.toNat / 16) []).getD (op.toNat % 16) 0 with
  | 0 => p.undefCycles
  | n + 1 => n + 1

end Sys2Proof.Machine
end

