-- ==== Sys2Proof/Machine/Fetch.lean ====
section
/-! DEFINITION. Fetching an instruction: the opcode byte, its cost, and the operand bytes that the opcode
byte asks for (R71, R79, R82, R83), each read through the memory map with its side effects (R69). -/

namespace Sys2Proof.Machine

/-- `budget <- budget - CYCLES(op)` (R83). -/
def State.charge (s : State) (n : Nat) : State :=
  { s with cpu := { s.cpu with budget := s.cpu.budget - n } }

/-- `Fetch16()`: low byte first (R82). -/
def State.fetch16 (s : State) : Addr × State :=
  let (l, s1) := s.fetchByte
  let (h, s2) := s1.fetchByte
  (operand16 l h, s2)

/-- The fetch half of `CpuStep()` (R83): the instruction at `PC`, and the state after its bytes were
fetched and its cost was charged. Every rule fetches its operand bytes before anything else it does,
and nothing reads `budget` in between (log 12). -/
def State.fetchInstr (s : State) : Instr × State :=
  let (op, s1) := s.fetchByte
  let s2 := s1.charge (cycles s.config.params op)
  match opcodeEntry op with
  | .imp i => (i, s2)
  | .byte build => (build s2.fetchByte.1, s2.fetchByte.2)
  | .word build => (build s2.fetch16.1, s2.fetch16.2)

end Sys2Proof.Machine
end

