-- ==== Sys2Proof/Machine/Background.lean ====
section
/-! DEFINITION. The background renderer (49_ppu_render.md R181 to R183). -/

namespace Sys2Proof.Machine

/-- The index of pixel (`row`, `col`) in the frame buffer and the caches. -/
def pixelKey (row col : Nat) : Nat := 256 * row + col

/-- Bit `b` of the two bit-planes: `((lo >> b) & 1) | (((hi >> b) & 1) << 1)` (R183, R187). -/
def planePixel (lo hi : Byte) (b : Nat) : BitVec 2 :=
  BitVec.ofBool (hi.getLsbD b) ++ BitVec.ofBool (lo.getLsbD b)

/-- The offset of a pixel in its palette: `(group << 2) | p` (R182, R189). -/
def paletteIndex (group p : BitVec 2) : PpuAddr := (group ++ p).setWidth 14

/-- One background tile row: its two bit-planes and its palette group (R183). -/
structure BgTile where
  lo : Byte
  hi : Byte
  group : BitVec 2
  deriving DecidableEq, Repr

/-- Pixel `i` of a tile row; bit 7 is leftmost (R183). -/
def tilePixel (t : BgTile) (i : Nat) : BitVec 2 := planePixel t.lo t.hi (7 - i)

/-- The nametable byte of the working address `a` (R183). -/
def State.tileByte (s : State) (a : Loopy) : Byte :=
  s.ppuRead (0x2000 ||| (a &&& 0x0FFF).setWidth 14)

/-- The attribute byte of the working address `a` (R183). -/
def State.attrByte (s : State) (a : Loopy) : Byte :=
  s.ppuRead ((0x23C0 : PpuAddr) ||| (a &&& 0x0C00).setWidth 14 |||
    (((coarseY a) >>> 2).setWidth 14 <<< 3) ||| ((coarseX a) >>> 2).setWidth 14)

/-- The shift of the quadrant of the working address `a` in its attribute byte (R183). -/
def quadrantShift (a : Loopy) : Nat :=
  (((coarseY a &&& (2 : BitVec 5)) <<< 1) ||| (coarseX a &&& (2 : BitVec 5))).toNat

/-- The PPU address of bit-plane 0 (R183). -/
def bgRowAddr (p : Ppu) (tile : Byte) (fy : BitVec 3) : PpuAddr :=
  (if p.bgPattern then 0x1000 else 0x0000) + tile.setWidth 14 * 16 + fy.setWidth 14

/-- `BgTile(a, fy)` (R183). -/
def State.bgTile (s : State) (a : Loopy) (fy : BitVec 3) : BgTile :=
  let base := bgRowAddr s.ppu (s.tileByte a) fy
  { lo := s.ppuRead base
    hi := s.ppuRead (base + 8)
    group := ((s.attrByte a >>> quadrantShift a) &&& 0x03).setWidth 2 }

/-- Pixel `i` of tile column `c` on row `row`: `X = 8 * c + i - x`, dropped outside 0..255 (R182). -/
def State.drawBgPixel (s : State) (row c : Nat) (t : BgTile) (vd : Video) (i : Nat) : Video :=
  let x := s.ppu.fineX.toNat
  if x ≤ 8 * c + i ∧ 8 * c + i - x ≤ 255 then
    let k := pixelKey row (8 * c + i - x)
    { vd with fb := vd.fb.write k (s.ppuRead (0x3F00 + paletteIndex t.group (tilePixel t i)))
              bgCache := vd.bgCache.write k (tilePixel t i) }
  else vd

/-- The eight pixels of one tile column (R182). -/
def State.drawBgTile (s : State) (row c : Nat) (t : BgTile) (vd : Video) : Video :=
  (List.range 8).foldl (s.drawBgPixel row c t) vd

/-- `n` tile columns from column `c` with the working address `a` (R182). -/
def State.drawBgTiles (s : State) (row : Nat) (fy : BitVec 3) : Nat → Nat → Loopy → Video → Video
  | 0, _, _, vd => vd
  | n + 1, c, a, vd =>
    s.drawBgTiles row fy n (c + 1) (hInc a) (s.drawBgTile row c (s.bgTile a fy) vd)

/-- The horizontal reload: coarse-X and `nt_x` from `t` (R182). -/
def reloadX (v t : Loopy) : Loopy := (v &&& 0x7BE0) ||| (t &&& 0x041F)

/-- `RenderBackground(N)` (R182): the reload, 33 tile columns, the vertical increment. -/
def State.renderBackground (s : State) (row : Nat) : State :=
  let v := reloadX s.ppu.v s.ppu.t
  { s with video := s.drawBgTiles row (fineY v) 33 0 v s.video
           ppu := { s.ppu with v := vInc v } }

/-- `BgEnabled(N)` (R181). -/
def State.bgEnabled (s : State) (row : Nat) : Bool :=
  s.ppu.bgEnable && !(decide (s.config.standard = .ntsc) && decide (row < 8))

end Sys2Proof.Machine
end

