-- ==== Sys2Proof/Machine/Sprites.lean ====
section
/-! DEFINITION. The sprite compositor (49_ppu_render.md R186 to R189) and the sprite-zero collision
detector (R190). -/

namespace Sys2Proof.Machine

/-- One sprite of OAM: Y, tile, attribute, X (R37, R187). -/
structure Sprite where
  y : Byte
  tile : Byte
  attr : Byte
  x : Byte
  deriving DecidableEq, Repr

/-- Sprite `n` of `oam` (R37). -/
def State.sprite (s : State) (n : Nat) : Sprite :=
  { y := s.oam.read (4 * n), tile := s.oam.read (4 * n + 1)
    attr := s.oam.read (4 * n + 2), x := s.oam.read (4 * n + 3) }

/-- Attribute bits 1:0: the palette group (R187). -/
def Sprite.group (o : Sprite) : BitVec 2 := o.attr.setWidth 2

/-- Attribute bit 5: behind the background (R187). -/
def Sprite.behind (o : Sprite) : Bool := o.attr.getLsbD 5

/-- Attribute bit 6: horizontal flip (R187). -/
def Sprite.flipX (o : Sprite) : Bool := o.attr.getLsbD 6

/-- Attribute bit 7: vertical flip (R187). -/
def Sprite.flipY (o : Sprite) : Bool := o.attr.getLsbD 7

/-- The rows of a sprite: 16 or 8 (R187). -/
def Ppu.spriteHeight (p : Ppu) : Nat := if p.tallSprites then 16 else 8

/-- `SprRowAddr(tile, rr)` (R188). -/
def sprRowAddr (p : Ppu) (tile : Byte) (rr : Nat) : PpuAddr :=
  if p.tallSprites then
    (tile &&& 1).setWidth 14 * 0x1000 +
      ((tile &&& 0xFE).setWidth 14 + BitVec.ofNat 14 (rr / 8)) * 16 + BitVec.ofNat 14 (rr % 8)
  else
    (if p.spritePattern then 0x1000 else 0x0000) + tile.setWidth 14 * 16 + BitVec.ofNat 14 rr

/-- `SprPixel(n, row, col, p, group, pri)` (R189). -/
def State.sprPixel (s : State) (n row col : Nat) (p group : BitVec 2) (pri : Bool)
    (vd : Video) : Video :=
  let k := pixelKey row col
  if p = 0 then vd
  else if pri && vd.bgCache.read k != 0 then vd
  else
    let vd := { vd with fb := vd.fb.write k (s.ppuRead (0x3F10 + paletteIndex group p)) }
    if n = 0 then
      { vd with spr0Cache := vd.spr0Cache.write k p, spr0Line := vd.spr0Line.write row 1 }
    else vd

/-- Column `i` of a sprite row: off the right edge nothing is drawn; the horizontal flip reverses the
bit order (R187). -/
def State.drawSpritePixel (s : State) (n : Nat) (o : Sprite) (row : Nat) (lo hi : Byte)
    (vd : Video) (i : Nat) : Video :=
  let col := o.x.toNat + i
  if 255 < col then vd
  else s.sprPixel n row col (planePixel lo hi (if o.flipX then i else 7 - i)) o.group o.behind vd

/-- The row of the frame buffer of row `r` of a sprite: `sy + SPRITE_Y_OFFSET + r` (R187). -/
def State.spriteRow (s : State) (o : Sprite) (r : Nat) : Int :=
  o.y.toNat + s.config.params.spriteYOffset + r

/-- Row `r` of a sprite: off the bottom nothing is drawn; the vertical flip reverses the row fetch
(R187). A row above the picture, which only a negative offset gives, is not drawn either (log 14). -/
def State.drawSpriteRow (s : State) (n : Nat) (o : Sprite) (vd : Video) (r : Nat) : Video :=
  let row := s.spriteRow o r
  if row < 0 ∨ 239 < row then vd
  else
    let rr := if o.flipY then s.ppu.spriteHeight - 1 - r else r
    let base := sprRowAddr s.ppu o.tile rr
    (List.range 8).foldl
      (s.drawSpritePixel n o row.toNat (s.ppuRead base) (s.ppuRead (base + 8))) vd

/-- Sprite `n` of `oam` (R187). -/
def State.drawSprite (s : State) (vd : Video) (n : Nat) : Video :=
  (List.range s.ppu.spriteHeight).foldl (s.drawSpriteRow n (s.sprite n)) vd

/-- `RenderSprites()` (R186, R187): the sprite-zero caches are always cleared; with sprites enabled,
sprite 63 is drawn first and sprite 0 last. -/
def State.renderSprites (s : State) : State :=
  let vd := { s.video with spr0Cache := [], spr0Line := [] }
  { s with video :=
      if s.ppu.spriteEnable then (List.range 64).reverse.foldl s.drawSprite vd else vd }

/-- An opaque background pixel under an opaque sprite-zero pixel on a row (R190). -/
def Video.hitOn (vd : Video) (row : Nat) : Bool :=
  (List.range 256).any fun col =>
    vd.bgCache.read (pixelKey row col) != 0 && vd.spr0Cache.read (pixelKey row col) != 0

/-- Whether sprite 0 wrote a pixel on a row in the last sprite pass (R36). -/
def Video.spr0On (vd : Video) (row : Nat) : Bool := vd.spr0Line.read row == 1

/-- The row that the check at scanline `n` looks at (R190). -/
def State.s0Row (s : State) (n : Nat) : Int := n - 1 + s.config.params.spr0RowAdjust

/-- The condition under which `S0Check(N)` sets the hit bit (R190). -/
def State.s0Hit (s : State) (n : Nat) : Bool :=
  let row := s.s0Row n
  if row < 0 ∨ 239 < row then false
  else s.video.spr0On row.toNat && s.video.hitOn row.toNat

/-- `S0Check(N)` (R190). -/
def State.s0Check (s : State) (n : Nat) : State :=
  if s.s0Hit n then { s with ppu := { s.ppu with status := s.ppu.status ||| 0x40 } } else s

end Sys2Proof.Machine
end

