-- ==== Sys2Proof/Machine/Schedule.lean ====
section
/-! DEFINITION. The frame schedule (49_ppu_render.md R179, R180), the interrupt sources (60_exceptions.md
R192 to R194) and the host's loop around the frames (70_reset_and_hazards.md R209.4). -/

namespace Sys2Proof.Machine

/-- `BUDGET_POSTNMI`: 12 cycles (R8, R180). -/
def budgetPostNmi : Nat := 12

/-- The budget of a CPU run (R180). -/
def Run.budget (std : VideoStandard) : Run → Nat
  | .startup => Config.budgetStartup std
  | .postNmi => budgetPostNmi
  | .vblank => Config.budgetVblank std
  | .scanline _ => Config.budgetScanline std

/-- `FIRST(std)` (R180). -/
def firstLine : VideoStandard → Nat
  | .ntsc => 8
  | .pal => 0

/-- `LAST(std)` (R180). -/
def lastLine : VideoStandard → Nat
  | .ntsc => 231
  | .pal => 239

/-- The frame step after a CPU run (R180). -/
def Run.after : Run → Phase
  | .startup => .vblankStart
  | .postNmi => .enter .vblank
  | .vblank => .vblankEnd
  | .scanline n => .lineEnd n

/-- Move to a place in the schedule. -/
def State.goto (s : State) (p : Phase) : State := { s with phase := p }

/-- One free draw of what the host supplies (log 8). -/
def State.askHost (s : State) : HostInput × State :=
  (Config.hostInput s.draws, { s with draws := s.draws + 1 })

/-- Between frames: `while running: if not paused: Frame()` (R209.4). The host's two flags are what it
answers now; when `running` is false the loop ends (log 9). -/
def State.frameBoundary (s : State) : State :=
  let (h, t) := s.askHost
  { t with running := h.running, paused := h.paused
           phase := if h.running then (if h.paused then .boundary else .enter .startup)
                    else .halted }

/-- The first line of `CpuRun(n)`: `budget <- n` (R179). -/
def State.enterRun (s : State) (r : Run) : State :=
  { s with cpu := { s.cpu with budget := r.budget s.config.standard }, phase := .running r }

/-- The end of `CpuRun`'s loop (R179). -/
def State.leaveRun (s : State) (r : Run) : State := s.goto r.after

/-- Frame step 2: `VBL` is set, and the NMI fires if it is enabled at that moment, whatever `I` holds
(R180, R193). -/
def State.vblankStart (s : State) : State :=
  let t := { s with ppu := { s.ppu with status := s.ppu.status ||| 0x80 } }
  (if t.ppu.nmiEnable then t.interrupt 0xFFFA else t).goto (.enter .postNmi)

/-- Frame step 5: `VBL` and `S0` are cleared (R180). -/
def State.vblankEnd (s : State) : State :=
  { s with ppu := { s.ppu with status := s.ppu.status &&& 0x3F }, phase := .latchScroll }

/-- Frame step 6: `v <- t` (R180). -/
def State.latchScroll (s : State) : State :=
  { s with ppu := { s.ppu with v := s.ppu.t }, phase := .line (firstLine s.config.standard) }

/-- Frame step 7 before the CPU run: the sprite-zero check, then the background if it is enabled
(R180). -/
def State.lineStart (s : State) (n : Nat) : State :=
  let t := s.s0Check n
  (if t.bgEnabled n then t.renderBackground n else t).goto (.enter (.scanline n))

/-- `MAPPER_IRQ(N, mapper_state)`: the default mapping answers `false` and changes nothing (R192). -/
def State.mapperIrq (s : State) (n : Nat) : Bool × State :=
  match s.config.mapper with
  | .default => (false, s)
  | .plugin =>
    let (irq, m) := Config.pluginIrq s.config.mapperNumber n s.mapperState
    (irq, { s with mapperState := m })

/-- `IrqRequest()`: dropped while `I` is 1 (R194). -/
def State.irqRequest (s : State) : State :=
  if s.cpu.flags.i then s else s.interrupt 0xFFFE

/-- Frame step 7 after the CPU run: the mapper's scanline IRQ, then the next scanline or step 8
(R180). -/
def State.lineDone (s : State) (n : Nat) : State :=
  let (irq, t) := s.mapperIrq n
  (if irq then t.irqRequest else t).goto
    (if n < lastLine s.config.standard then .line (n + 1) else .sprites)

/-- Frame step 8 (R180, R186). -/
def State.spriteStep (s : State) : State := s.renderSprites.goto .present

/-- Frame step 9: the presenter takes `presentedRows`; no state of the block changes (R209.5, log
15). -/
def State.presentStep (s : State) : State := s.goto .input

/-- What the presenter receives at frame step 9: `fb` rows `FIRST(std)`..`LAST(std)` (R209.5). -/
def State.presentedRows (s : State) : List (List Byte) :=
  let first := firstLine s.config.standard
  (List.range (lastLine s.config.standard + 1 - first)).map fun r =>
    (List.range 256).map fun col => s.video.fb.read (pixelKey (first + r) col)

/-- Frame step 10: the host writes the buttons; `pad_step` is not changed (R180, R209.6). -/
def State.inputStep (s : State) : State :=
  let (h, t) := s.askHost
  { t with buttons := h.buttons, phase := .boundary }

end Sys2Proof.Machine
end

