-- ==== Sys2Proof/Machine/Step.lean ====
section
/-! DEFINITION. One move of the control thread (R15): an instruction while a CPU run has budget left
(R83, R179), else one step of the frame schedule (R180) or of the host's loop (R209.4). -/

namespace Sys2Proof.Machine

/-- `CpuStep()` (R83). -/
def cpuStep (s : State) : Result :=
  let (i, t) := s.fetchInstr
  exec i t

/-- One step. -/
def step (s : State) : Host.Outcome State Fault Refusal :=
  match s.phase with
  | .boundary => .next s.frameBoundary
  | .halted => .next s
  | .enter r => .next (s.enterRun r)
  | .running r => if 0 < s.cpu.budget then cpuStep s else .next (s.leaveRun r)
  | .vblankStart => .next s.vblankStart
  | .vblankEnd => .next s.vblankEnd
  | .latchScroll => .next s.latchScroll
  | .line n => .next (s.lineStart n)
  | .lineEnd n => .next (s.lineDone n)
  | .sprites => .next s.spriteStep
  | .present => .next s.presentStep
  | .input => .next s.inputStep

/-- The host's table word stored where `step` fetches its next instruction, in a CPU run with budget
left, so that the very next step runs it (log 11). -/
def State.withFetchWord (s : State) (nbits w : Nat) : State := s.placeInstr nbits w

end Sys2Proof.Machine
end

