-- ==== Sys2Proof/Safety.lean ====
section
/-! DEFINITION. The terms in which the claims are stated: the encodings and costs of a rule, which addresses an
instruction reads and stores to, the machine's invariants, and what a sprite shows at a pixel. None of
this is used by `step`. -/

namespace Sys2Proof

/-- The operand in memory that an instruction reads or writes (R97, R98, R99). -/
def Instr.memOperand : Instr → Option MemOperand
  | .lda (.mem m) | .ldx (.mem m) | .ldy (.mem m) | .adc (.mem m) | .sbc (.mem m) => some m
  | .and (.mem m) | .ora (.mem m) | .eor (.mem m) => some m
  | .cmp (.mem m) | .cpx (.mem m) | .cpy (.mem m) => some m
  | .sta m | .stx m | .sty m | .bit m | .inc m | .dec m => some m
  | .asl (.mem m) | .lsr (.mem m) | .rol (.mem m) | .ror (.mem m) => some m
  | _ => none

/-- The operand in memory that an instruction stores to (R98, R99). -/
def Instr.storeOperand : Instr → Option MemOperand
  | .sta m | .stx m | .sty m | .inc m | .dec m => some m
  | .asl (.mem m) | .lsr (.mem m) | .rol (.mem m) | .ror (.mem m) => some m
  | _ => none

/-- The cost of an instruction that reads its operand, by mode (R213). -/
def Mode.readCost : Mode → Nat
  | .imp | .acc | .imm | .rel => 2
  | .zp => 3
  | .zpx | .zpy | .abs | .absx | .absy => 4
  | .indy | .ind => 5
  | .indx => 6

/-- The cost of a store, by mode: one more where an index is added to a 16-bit address (R213). -/
def Mode.storeCost : Mode → Nat
  | .absx | .absy => 5
  | .indy => 6
  | m => m.readCost

/-- The cost of a read-modify-write instruction, by mode (R213). -/
def Mode.rmwCost : Mode → Nat
  | .acc => 2
  | .absx => 7
  | m => m.readCost + 2

/-- The cost of an instruction (R213, R162). -/
def Instr.cost (p : Params) : Instr → Nat
  | .lda m | .ldx m | .ldy m | .adc m | .sbc m | .and m | .ora m | .eor m => m.mode.readCost
  | .cmp m | .cpx m | .cpy m => m.mode.readCost
  | .bit m => m.mode.readCost
  | .sta m | .stx m | .sty m => m.mode.storeCost
  | .inc m | .dec m => m.mode.rmwCost
  | .asl m | .lsr m | .rol m | .ror m => m.mode.rmwCost
  | .bpl _ | .bmi _ | .bvc _ | .bvs _ | .bcc _ | .bcs _ | .bne _ | .beq _ => 2
  | .inx | .iny | .dex | .dey => 2
  | .tax | .tay | .txa | .tya | .tsx | .txs => 2
  | .clc | .sec | .cli | .sei | .cld | .sed | .clv | .nop => 2
  | .pha | .php | .jmp (.abs _) => 3
  | .pla | .plp => 4
  | .jmp (.ind _) => 5
  | .jsr _ | .rts | .rti => 6
  | .brk => 7
  | .undef _ => p.undefCycles

/-- How many bytes an instruction pushes (R139, R142, R143, R160). -/
def Instr.pushes : Instr → Nat
  | .pha | .php => 1
  | .jsr _ => 2
  | .brk => 3
  | _ => 0

end Sys2Proof

namespace Sys2Proof.Machine

/-- The byte `op` alone is the instruction `i`, whatever bytes follow (R72: `imp` and `acc`). -/
def PlainForm (op : Byte) (i : Instr) : Prop := ∀ rest, decode (op :: rest) = .ok (i, rest)

/-- The byte `op` and one operand byte are the instruction `f n` (R72, R73). -/
def ByteForm (op : Byte) (f : Byte → Instr) : Prop :=
  ∀ n rest, decode (op :: n :: rest) = .ok (f n, rest)

/-- The byte `op` and two operand bytes, low byte first, are the instruction `f a` (R72, R73). -/
def WordForm (op : Byte) (f : Addr → Instr) : Prop :=
  ∀ (l h : Byte) (rest : List Byte), decode (op :: l :: h :: rest) = .ok (f (h ++ l), rest)

/-- The eight encodings of an accumulator operation, in the order `imm`, `zp`, `zpx`, `abs`, `absx`,
`absy`, `indx`, `indy` (R100, R108 to R112, R125). -/
def AccForms (imm zp zpx abs absx absy indx indy : Byte) (f : ReadOperand → Instr) : Prop :=
  ByteForm imm (fun n => f (.imm n)) ∧ ByteForm zp (fun n => f (.mem (.zp n))) ∧
  ByteForm zpx (fun n => f (.mem (.zpx n))) ∧ WordForm abs (fun a => f (.mem (.abs a))) ∧
  WordForm absx (fun a => f (.mem (.absx a))) ∧ WordForm absy (fun a => f (.mem (.absy a))) ∧
  ByteForm indx (fun n => f (.mem (.indx n))) ∧ ByteForm indy (fun n => f (.mem (.indy n)))

/-- The four memory encodings of a read-modify-write instruction, in the order `zp`, `zpx`, `abs`,
`absx` (R114, R115, R120 to R123). -/
def RmwForms (zp zpx abs absx : Byte) (f : MemOperand → Instr) : Prop :=
  ByteForm zp (fun n => f (.zp n)) ∧ ByteForm zpx (fun n => f (.zpx n)) ∧
  WordForm abs (fun a => f (.abs a)) ∧ WordForm absx (fun a => f (.absx a))

/-- The three encodings of CPX or CPY, in the order `imm`, `zp`, `abs` (R126, R127). -/
def CpxForms (imm zp abs : Byte) (f : ReadOperand → Instr) : Prop :=
  ByteForm imm (fun n => f (.imm n)) ∧ ByteForm zp (fun n => f (.mem (.zp n))) ∧
  WordForm abs (fun a => f (.mem (.abs a)))

/-- The flags with `Z` and `N` those of the byte `r`, written with numbers (R24). -/
def Flags.withNZ (f : Flags) (r : Byte) : Flags :=
  { f with z := decide (r.toNat = 0), n := decide (128 ≤ r.toNat) }

/-- The state with the CPU replaced. -/
def State.withCpu (s : State) (c : Cpu) : State := { s with cpu := c }

/-- A bit as a number. -/
def bitNat (b : Bool) : Nat := if b then 1 else 0

/-- The write of `v` to `a` is the one that the model refuses (R13, R176). -/
def DmaRefused (a : Addr) (v : Byte) : Prop := a = 0x4014 ∧ 0x20 ≤ v.toNat ∧ v.toNat ≤ 0x40

/-- The last byte that a list of rewrites gives an offset (R47, log 5). -/
def lastByte {w : Nat} (l : List (BitVec w × Byte)) (k : Nat) : Option Byte :=
  (l.reverse.find? fun c => c.1.toNat == k).map fun c => c.2

/-- The bytes of `cpu_mem` that a write to `a` stores to: four images below 0x2000 (R44), the byte
itself among the plain cells (R46), none anywhere else (R45, R46, R47). -/
def storedCells (a : Addr) : List Nat :=
  if a.toNat < 0x2000 then (List.range 4).map fun k => a.toNat % 0x800 + 0x800 * k
  else if a.toNat < 0x4000 ∨ a = 0x4014 ∨ a = 0x4016 ∨ 0x8000 ≤ a.toNat then []
  else [a.toNat]

/-- The bytes of `cpu_mem` that an instruction stores to, computed from its operand's address or from
the stack slots below `S` (R98, R99, R141). -/
def State.storedBytes (s : State) (i : Instr) : List Nat :=
  match i.storeOperand with
  | some m => storedCells (s.effAddr m)
  | none => (List.range i.pushes).flatMap fun k => storedCells (stackAddr (s.cpu.sp - BitVec.ofNat 8 k))

/-- The addresses of an instruction's own data accesses: its operand's address, or the two bytes of
the pointer of `JMP (p)` (R95, R97 to R99). Stack, zero-page pointer and vector accesses are to RAM
and ROM and are not listed. -/
def State.accessed (s : State) : Instr → List Addr
  | .jmp (.ind p) => [p, pointerHigh s.config.params.jmpIndPageWrap p]
  | i => match i.memOperand with
    | some m => [s.effAddr m]
    | none => []

/-- An address whose access by instruction `i` has no side effect on the PPU, OAM, the controller port
or the mapper (R56). -/
def State.quiet (s : State) (i : Instr) (a : Addr) : Prop :=
  plainAddr a = true ∧
    (i.storeOperand = none ∨ (a ≠ 0x4014 ∧ (a.toNat < 0x8000 ∨ s.config.mapper = .default)))

/-- Cells in canonical form, all below an index. -/
def Cells.ok {w : Nat} (n : Nat) (m : Cells w) : Prop := m.wf = true ∧ m.within n = true

/-- The scanline that a phase of the schedule works on (R180 step 7). -/
def Phase.scanline : Phase → Option Nat
  | .line n | .lineEnd n | .enter (.scanline n) | .running (.scanline n) => some n
  | _ => none

/-- Every memory and cache is in canonical form and within its size (R34 to R37); `ppu_mem` lists
nothing at an alias (R59); a scanline in progress is one of the standard's (R180). -/
structure State.Canonical (s : State) : Prop where
  cpuMem : s.cpuMem.ok 65536
  ppuMem : s.ppuMem.ok 16384
  oam : s.oam.ok 256
  fb : s.video.fb.ok 61440
  bgCache : s.video.bgCache.ok 61440
  spr0Cache : s.video.spr0Cache.ok 61440
  spr0Line : s.video.spr0Line.ok 240
  noAlias : ∀ c ∈ s.ppuMem, c.1 < 0x3000 ∨ (0x3F00 ≤ c.1 ∧ c.1 < 0x3F20)
  line : ∀ n, s.phase.scanline = some n →
    firstLine s.config.standard ≤ n ∧ n ≤ lastLine s.config.standard

/-- The four images of RAM hold equal bytes (the invariant of R44). -/
def RamMirrored (m : Memory) : Prop :=
  ∀ a < 0x800, ∀ k < 4, m.read (a + 0x800 * k) = m.read a

/-- The nametables of one group hold equal bytes (the invariant of R62). -/
def NametablesMirrored (m : Memory) (mir : Mirroring) : Prop :=
  ∀ n < 4, ∀ k ∈ nametableGroup mir n, ∀ o < 0x400,
    m.read (0x2000 + 0x400 * k + o) = m.read (0x2000 + 0x400 * n + o)

/-- The mirrors of the machine: RAM (R44), the palette pair (R63), and the nametables while no mapper
can change `MIRRORING` (R62). -/
structure State.Mirrored (s : State) : Prop where
  ram : RamMirrored s.cpuMem
  palette : s.ppuMem.read 0x3F10 = s.ppuMem.read 0x3F00
  nametables : s.config.mapper = .default → NametablesMirrored s.ppuMem s.config.mirroring

/-- `spr0_line` holds exactly for the rows where `spr0_cache` has a pixel (R36). -/
def Video.SpriteZeroTracked (vd : Video) : Prop :=
  ∀ row < 240, vd.spr0On row = true ↔ ∃ col < 256, vd.spr0Cache.read (pixelKey row col) ≠ 0

/-- The 2-bit value of sprite `n` at a pixel, before priority: `none` where the sprite does not reach
the pixel (R187, R188), computed from the pixel and not by the renderer's loops. -/
def State.spriteValue (s : State) (n row col : Nat) : Option (BitVec 2) :=
  let o := s.sprite n
  let r := (row : Int) - (o.y.toNat + s.config.params.spriteYOffset)
  if 0 ≤ r ∧ r < s.ppu.spriteHeight ∧ o.x.toNat ≤ col ∧ col < o.x.toNat + 8 then
    let rr := if o.flipY then s.ppu.spriteHeight - 1 - r.toNat else r.toNat
    let b := if o.flipX then col - o.x.toNat else 7 - (col - o.x.toNat)
    let base := sprRowAddr s.ppu o.tile rr
    some (planePixel (s.ppuRead base) (s.ppuRead (base + 8)) b)
  else none

/-- The 2-bit value that sprite `n` shows at a pixel: opaque, and not behind an opaque background
pixel (R189). -/
def State.spriteShows (s : State) (n row col : Nat) : Option (BitVec 2) :=
  match s.spriteValue n row col with
  | some p =>
    if p ≠ 0 ∧ ¬((s.sprite n).behind = true ∧ s.video.bgCache.read (pixelKey row col) ≠ 0) then some p
    else none
  | none => none

/-- The palette byte of the sprite of lowest index that shows at a pixel (R187: "lower-indexed sprites
take final on-screen priority"). -/
def State.spriteColour (s : State) (row col : Nat) : Option Byte :=
  (List.range 64).findSome? fun n =>
    (s.spriteShows n row col).map fun p => s.ppuRead (0x3F10 + paletteIndex (s.sprite n).group p)

/-- The working address of tile column `c`: `HInc` applied `c` times (R182). -/
def walkAddr (a : Loopy) : Nat → Loopy
  | 0 => a
  | c + 1 => hInc (walkAddr a c)

end Sys2Proof.Machine
end

