-- ==== Sys2Proof/Certificates/Slice0/Obligations.lean ====
section
/-! DEFINITION. The statements: what the rules of spec/ say of the decoder, the instructions, the memory
bridge, the renderers and the frame schedule, over all states and operands. -/

open Sys2Proof Sys2Proof.Machine

/-! ## Encoding -/

/-- Decoding the bytes of a well-formed instruction gives it back, with the bytes after it untouched
(R71 to R75). -/
def Obligations.DecodeOfEncode : Prop :=
  ∀ (i : Instr) (rest : List Byte), i.wf = true → decode (encode i ++ rest) = .ok (i, rest)

/-- Whatever decodes is well-formed, and its encoding is exactly the bytes consumed: every byte string
has one meaning (R71, R74, R75, R77). -/
def Obligations.EncodeOfDecode : Prop :=
  ∀ (bs : List Byte) (i : Instr) (rest : List Byte),
    decode bs = .ok (i, rest) → i.wf = true ∧ encode i ++ rest = bs

/-- Twelve byte strings written out from the spec's tables and examples decode as the spec says, among
them the exceptions R76 warns of (R74 to R77). The last two clauses, what the decoder answers to no
byte and to a cut-short instruction, are the model's choice: log 21. -/
def Obligations.SpecWordsDecode : Prop :=
  decode [0x69, 0x01] = .ok (.adc (.imm 0x01), []) ∧
  decode [0xC9, 0x10] = .ok (.cmp (.imm 0x10), []) ∧
  decode [0x8D, 0x00, 0x03] = .ok (.sta (.abs 0x0300), []) ∧
  decode [0x96, 0x10] = .ok (.stx (.zpy 0x10), []) ∧
  decode [0xBE, 0x34, 0x12] = .ok (.ldx (.mem (.absy 0x1234)), []) ∧
  decode [0x0A] = .ok (.asl .acc, []) ∧
  decode [0x6C, 0xFF, 0x12] = .ok (.jmp (.ind 0x12FF), []) ∧
  decode [0xD0, 0xF0] = .ok (.bne 0xF0, []) ∧
  decode [0x20, 0x00, 0x90] = .ok (.jsr 0x9000, []) ∧
  decode [0x48] = .ok (.pha, []) ∧
  decode [0x00, 0xEA] = .ok (.brk, [0xEA]) ∧
  decode [0x89, 0x05] = .ok (.undef 0x89, [0x05]) ∧
  decode [] = .error .noBytes ∧
  decode [0xAD, 0x02] = .error (.cutShort 0xAD)

/-! ## The CPU step and the schedule -/

/-- A step inside a CPU run with budget left is `exec` of the instruction at `PC`, on the state with `PC`
after its bytes and `CYCLES(op)` subtracted (R83, R18). First where the bytes lie at plain addresses;
then anywhere: the opcode byte and the operand bytes it asks for are successive reads through the memory
map at `PC`, each on the state the one before it left, so that a fetch from a register has that
register's side effect (R69, R82). Every opcode byte asks for none, one or two operand bytes. The model
fetches all the bytes before the instruction's own effects: log 12. -/
def Obligations.StepRunsDecoded : Prop :=
  (∀ (s : State) (r : Run) (i : Instr),
    s.phase = .running r → 0 < s.cpu.budget → i.wf = true →
    (∀ (k : Nat) (h : k < (encode i).length),
      plainAddr (s.cpu.pc + BitVec.ofNat 16 k) = true ∧
      s.cpuMem.read (s.cpu.pc + BitVec.ofNat 16 k).toNat = (encode i)[k]) →
    step s = exec i (s.withCpu { s.cpu with
      pc := s.cpu.pc + BitVec.ofNat 16 (encode i).length
      budget := s.cpu.budget - cycles s.config.params ((encode i).headD 0) })) ∧
  (∀ (s : State) (r : Run), s.phase = .running r → 0 < s.cpu.budget →
    let first := s.memRead s.cpu.pc
    let paid : Cpu := { s.cpu with budget := s.cpu.budget - cycles s.config.params first.1 }
    let s1 := first.2.withCpu { paid with pc := s.cpu.pc + 1 }
    let second := s1.memRead (s.cpu.pc + 1)
    let s2 := second.2.withCpu { paid with pc := s.cpu.pc + 2 }
    let third := s2.memRead (s.cpu.pc + 2)
    let s3 := third.2.withCpu { paid with pc := s.cpu.pc + 3 }
    (∀ i, PlainForm first.1 i → step s = exec i s1) ∧
    (∀ f, ByteForm first.1 f → step s = exec (f second.1) s2) ∧
    (∀ f, WordForm first.1 f → step s = exec (f (third.1 ++ second.1)) s3)) ∧
  ∀ op, (∃ i, PlainForm op i) ∨ (∃ f, ByteForm op f) ∨ ∃ f, WordForm op f

/-- The ten steps of a frame, in order (R180), with the CPU runs between them (R179). What the host
answers at the boundary and at step 10 is free (log 8), and one step per phase is the model's own
division (log 2). The default mapping raises no IRQ; a plug-in answers the request and a new
`mapper_state` and changes nothing else (R192), its hook being an uninterpreted function (log 5). That
the machine waits at the boundary while paused and that it does nothing more once the loop has ended
are the model's choice (log 9). -/
def Obligations.FrameSchedule : Prop :=
  ∀ s : State,
    (∀ r, s.phase = .enter r →
      step s = .next (({ s with phase := .running r } : State).withCpu { s.cpu with
        budget := match r with
          | .startup => Config.budgetStartup s.config.standard
          | .postNmi => (12 : Nat)
          | .vblank => Config.budgetVblank s.config.standard
          | .scanline _ => Config.budgetScanline s.config.standard })) ∧
    (∀ r, s.phase = .running r → s.cpu.budget ≤ 0 →
      step s = .next { s with phase := match r with
        | .startup => .vblankStart
        | .postNmi => .enter .vblank
        | .vblank => .vblankEnd
        | .scanline n => .lineEnd n }) ∧
    (s.phase = .vblankStart →
      let u : State := { s with ppu := { s.ppu with status := s.ppu.status ||| 0x80 } }
      step s = .next { (if s.ppu.ctrl1.getLsbD 7 then u.interrupt 0xFFFA else u) with
        phase := .enter .postNmi }) ∧
    (s.phase = .vblankEnd →
      step s = .next { s with ppu := { s.ppu with status := s.ppu.status &&& 0x3F }
                              phase := .latchScroll }) ∧
    (s.phase = .latchScroll →
      step s = .next { s with ppu := { s.ppu with v := s.ppu.t }
                              phase := .line (match s.config.standard with
                                | .ntsc => 8
                                | .pal => 0) }) ∧
    (∀ n, s.phase = .line n →
      let u := s.s0Check n
      step s = .next { (if s.ppu.ctrl2.getLsbD 3 = true ∧ ¬(s.config.standard = .ntsc ∧ n < 8)
        then u.renderBackground n else u) with phase := .enter (.scanline n) }) ∧
    (∀ n, s.phase = .lineEnd n →
      let u := (s.mapperIrq n).2
      step s = .next { (if (s.mapperIrq n).1 then u.irqRequest else u) with
        phase := if n < (match s.config.standard with | .ntsc => 231 | .pal => 239) then .line (n + 1)
          else .sprites }) ∧
    (s.config.mapper = .default → ∀ n, s.mapperIrq n = (false, s)) ∧
    (s.config.mapper = .plugin → ∀ n,
      let hook := Config.pluginIrq s.config.mapperNumber n s.mapperState
      s.mapperIrq n = (hook.1, { s with mapperState := hook.2 })) ∧
    (s.phase = .sprites → step s = .next { s.renderSprites with phase := .present }) ∧
    (s.phase = .present → step s = .next { s with phase := .input }) ∧
    (s.phase = .input → ∃ b, step s = .next { s with
      buttons := b, phase := .boundary, draws := s.draws + 1 }) ∧
    (s.phase = .boundary → ∃ run pause, step s = .next { s with
      running := run, paused := pause, draws := s.draws + 1
      phase := if run then (if pause then .boundary else .enter .startup) else .halted }) ∧
    (s.phase = .halted → step s = .next s)

/-- A CPU run ends: with a cost of 1 to 7 for unrecognised opcodes, at most `budget` steps lead to a
state of the same run with no budget left, overshot by at most 6, or to the one refusal; and the next
step leaves the run. The end and the overshoot are R179's. That one step is one instruction, so that
`budget` bounds the steps, and that leaving the run is a step of its own are the model's choice: log 2.
The bounds rest on the costs of R213, which the model fixes: log 19. An `UNDEF_CYCLES` of 0 or above 7
is left out: at 0 a run need not end, above 7 it can overshoot by more than 6. -/
def Obligations.CpuRunEnds : Prop :=
  ∀ (s : State) (r : Run), s.phase = .running r →
    1 ≤ s.config.params.undefCycles → s.config.params.undefCycles ≤ 7 → 0 < s.cpu.budget →
    ∃ k ≤ s.cpu.budget.toNat,
      core.run k s = .refused .dmaFromSideEffectPage ∨
      ∃ t, core.run k s = .next t ∧ t.phase = .running r ∧
        -6 ≤ t.cpu.budget ∧ t.cpu.budget ≤ 0 ∧ step t = .next { t with phase := r.after }

/-! ## Power-on, reset, loading -/

/-- Power-on: every item of state is zero (R206). That the default mapping is plugged in is the model's
choice: log 10. -/
def Obligations.PowerOnIsZero : Prop :=
  let s := State.powerOn
  (s.cpu.a = 0 ∧ s.cpu.x = 0 ∧ s.cpu.y = 0 ∧ s.cpu.sp = 0 ∧ s.cpu.pc = 0 ∧ s.cpu.budget = 0) ∧
  s.cpu.flags = ⟨false, false, false, false, false, false, false⟩ ∧
  (s.ppu.ctrl1 = 0 ∧ s.ppu.ctrl2 = 0 ∧ s.ppu.status = 0 ∧ s.ppu.oamAddr = 0 ∧ s.ppu.t = 0 ∧
    s.ppu.v = 0 ∧ s.ppu.fineX = 0 ∧ s.ppu.w = false ∧ s.ppu.readBuffer = 0 ∧ s.ppu.addrLatch = 0) ∧
  (∀ a, s.cpuMem.read a = 0 ∧ s.ppuMem.read a = 0 ∧ s.oam.read a = 0) ∧
  (∀ k, s.video.fb.read k = 0 ∧ s.video.bgCache.read k = 0 ∧ s.video.spr0Cache.read k = 0) ∧
  (∀ row, s.video.spr0On row = false) ∧
  (∀ k, buttonAt s.buttons k = false) ∧ s.padStep = 0 ∧
  s.config.mapper = .default ∧ s.mapperState = []

/-- `CpuReset()` writes the five registers and the seven flags, reads the reset vector through the
memory map, and touches nothing else (R207). -/
def Obligations.CpuResetState : Prop :=
  ∀ s : State,
    s.cpuReset = s.withCpu
      { a := 0, x := 0, y := 0, sp := 0xFF
        flags := ⟨false, true, false, false, false, false, false⟩
        pc := (s.memRead 0xFFFD).1 ++ (s.memRead 0xFFFC).1
        budget := s.cpu.budget } ∧
    s.cpuReset.cpu.flags.pack = 0x22

/-- What the default loader and the start leave (R208, R209): one PRG bank appears twice, two banks
once each; the CHR bank below 0x2000; zero elsewhere; the CPU as after `CpuReset`; `MIRRORING` and the
mapper number from the header's bytes 6 and 7, and the bank counts. Bytes missing from a bank read as
0: log 20. The host's loop is at its boundary: log 2. -/
def Obligations.BootMapsTheBanks : Prop :=
  ∀ (std : VideoStandard) (c : Cartridge) (p q : List Byte),
    (c.prg = [p] ∧ q = p ∨ c.prg = [p, q]) → c.chr.length ≤ 1 →
    ∃ s, bootState std c = some s ∧
      (∀ i < 0x4000, s.cpuMem.read (0x8000 + i) = p.getD i 0 ∧
        s.cpuMem.read (0xC000 + i) = q.getD i 0) ∧
      (∀ a < 0x8000, s.cpuMem.read a = 0) ∧
      (∀ i < 0x2000, s.ppuMem.read i = (c.chr.getD 0 []).getD i 0) ∧
      (∀ a, 0x2000 ≤ a → s.ppuMem.read a = 0) ∧
      s.cpu = { a := 0, x := 0, y := 0, sp := 0xFF, flags := Flags.reset, budget := 0
                pc := q.getD 0x3FFD 0 ++ q.getD 0x3FFC 0 } ∧
      s.config.standard = std ∧
      s.config.mirroring = (if c.flags6.getLsbD 3 = true then .fourScreen
        else if c.flags6.getLsbD 0 = true then .vertical else .horizontal) ∧
      s.config.mapperNumber.toNat = c.flags7.toNat / 16 * 16 + c.flags6.toNat / 16 ∧
      s.config.prgBanks = c.prg.length ∧ s.config.chrBanks = c.chr.length ∧
      s.config.mapper = .default ∧ s.mapperState = [] ∧
      s.ppu = State.powerOn.ppu ∧ s.video = State.powerOn.video ∧ s.oam = [] ∧
      s.phase = .boundary

/-! ## The CPU memory map -/

/-- `MemRead` and `MemWrite` by region (R48, R49, R45): registers repeat every 8 bytes from 0x2000 to
0x3FFF. -/
def Obligations.MemoryMapRegions : Prop :=
  ∀ (s : State) (a : Addr) (v : Byte),
    (a.toNat < 0x2000 →
      s.memRead a = (s.cpuMem.read a.toNat, s) ∧
      s.memWrite a v = .next { s with cpuMem :=
        (((s.cpuMem.write (a.toNat % 0x800) v).write (a.toNat % 0x800 + 0x800) v).write
          (a.toNat % 0x800 + 0x1000) v).write (a.toNat % 0x800 + 0x1800) v }) ∧
    (0x2000 ≤ a.toNat → a.toNat < 0x4000 →
      s.memRead a = s.ppuRegRead (BitVec.ofNat 3 (a.toNat % 8)) ∧
      s.memWrite a v = .next (s.ppuRegWrite (BitVec.ofNat 3 (a.toNat % 8)) v)) ∧
    (a.toNat = 0x4014 → s.memRead a = (s.cpuMem.read a.toNat, s) ∧ s.memWrite a v = s.oamDma v) ∧
    (a.toNat = 0x4016 → s.memRead a = s.padRead ∧ s.memWrite a v = .next s.padWrite) ∧
    (0x4000 ≤ a.toNat → a.toNat < 0x8000 → a.toNat ≠ 0x4014 → a.toNat ≠ 0x4016 →
      s.memRead a = (s.cpuMem.read a.toNat, s) ∧
      s.memWrite a v = .next { s with cpuMem := s.cpuMem.write a.toNat v }) ∧
    (0x8000 ≤ a.toNat →
      s.memRead a = (s.cpuMem.read a.toNat, s) ∧ s.memWrite a v = .next (s.mapperWrite a v))

/-- RAM (R44): a read below 0x2000 gives the cell; a write there makes exactly the four images of the
byte read `v`. That the images are equal at power-on and stay equal under every write of the CPU is the
spec's own derived invariant (R44, R206). -/
def Obligations.RamImages : Prop :=
  (∀ (s : State) (a : Addr) (v : Byte), s.cpuMem.wf = true → a.toNat < 0x2000 →
    s.memRead a = (s.cpuMem.read a.toNat, s) ∧
    ∃ t, s.memWrite a v = .next t ∧ t.cpuMem.wf = true ∧
      ∀ b, t.cpuMem.read b =
        if b < 0x2000 ∧ b % 0x800 = a.toNat % 0x800 then v else s.cpuMem.read b) ∧
  RamMirrored State.powerOn.cpuMem ∧
  (∀ (s t : State) (a : Addr) (v : Byte), s.cpuMem.wf = true → RamMirrored s.cpuMem →
    s.memWrite a v = .next t → RamMirrored t.cpuMem)

/-- ROM (R47): a read gives the cell; a write calls the hook: the default mapping changes nothing; a
plug-in's answer to its number, the address, the byte and `mapper_state` becomes the new `mapper_state`
and `MIRRORING` and rewrites bytes of the upper half of `cpu_mem` and of the pattern tables, and nothing
else changes. The plug-in is an uninterpreted function, and of two rewrites of one byte the later
stands: log 5. -/
def Obligations.RomGoesToTheMapper : Prop :=
  ∀ (s : State) (a : Addr) (v : Byte), 0x8000 ≤ a.toNat →
    s.cpuMem.wf = true → s.ppuMem.wf = true →
    s.memRead a = (s.cpuMem.read a.toNat, s) ∧
    (s.config.mapper = .default → s.memWrite a v = .next s) ∧
    (s.config.mapper = .plugin →
      let hook := Config.pluginWrite s.config.mapperNumber a v s.mapperState
      ∃ t, s.memWrite a v = .next t ∧ t.mapperState = hook.state ∧
        t.config.mirroring = hook.mirroring.getD s.config.mirroring ∧
        (∀ k < 0x8000, t.cpuMem.read (0x8000 + k) =
          (lastByte hook.prg k).getD (s.cpuMem.read (0x8000 + k))) ∧
        ∀ k < 0x2000, t.ppuMem.read k = (lastByte hook.chr k).getD (s.ppuMem.read k)) ∧
    ∃ t, s.memWrite a v = .next t ∧
      (∀ b < 0x8000, t.cpuMem.read b = s.cpuMem.read b) ∧
      (∀ b, 0x2000 ≤ b → t.ppuMem.read b = s.ppuMem.read b) ∧
      t = { s with cpuMem := t.cpuMem, ppuMem := t.ppuMem, mapperState := t.mapperState
                   config := { s.config with mirroring := t.config.mirroring } }

/-! ## Operands -/

/-- The effective addresses (R87 to R94) with numbers: which sums wrap in page 0 and which modulo
2^16; a pointer's bytes are read through the memory map, without effect on the state; an immediate
operand is the byte itself and any other is one read at the address (R86, R97). The operand byte or
word is the one the instruction carries. -/
def Obligations.EffectiveAddresses : Prop :=
  ∀ (s : State) (n : Byte) (a : Addr) (m : MemOperand),
    (s.effAddr (.zp n)).toNat = n.toNat ∧
    (s.effAddr (.zpx n)).toNat = (n.toNat + s.cpu.x.toNat) % 0x100 ∧
    (s.effAddr (.zpy n)).toNat = (n.toNat + s.cpu.y.toNat) % 0x100 ∧
    (s.effAddr (.abs a)).toNat = a.toNat ∧
    (s.effAddr (.absx a)).toNat = (a.toNat + s.cpu.x.toNat) % 0x10000 ∧
    (s.effAddr (.absy a)).toNat = (a.toNat + s.cpu.y.toNat) % 0x10000 ∧
    (let p := (n.toNat + s.cpu.x.toNat) % 0x100
     let lo := s.memRead (BitVec.ofNat 16 p)
     let hi := lo.2.memRead (BitVec.ofNat 16 ((p + 1) % 0x100))
     hi.2 = s ∧ (s.effAddr (.indx n)).toNat = hi.1.toNat * 0x100 + lo.1.toNat) ∧
    (let lo := s.memRead (BitVec.ofNat 16 n.toNat)
     let hi := lo.2.memRead (BitVec.ofNat 16 ((n.toNat + 1) % 0x100))
     hi.2 = s ∧
       (s.effAddr (.indy n)).toNat = (hi.1.toNat * 0x100 + lo.1.toNat + s.cpu.y.toNat) % 0x10000) ∧
    s.readOperand (.imm n) = (n, s) ∧
    s.readOperand (.mem m) = s.memRead (s.effAddr m)

/-! ## Loads and stores -/

/-- LDA, LDX and LDY (R100 to R102) complete in every state and form: the register and `N`, `Z` change,
on the state after the operand's read. -/
def Obligations.LoadResults : Prop :=
  (∀ (s : State) (m : ReadOperand),
    let b := (s.readOperand m).1
    let u := (s.readOperand m).2
    exec (.lda m) s = .next (u.withCpu { u.cpu with a := b, flags := u.cpu.flags.withNZ b }) ∧
    exec (.ldx m) s = .next (u.withCpu { u.cpu with x := b, flags := u.cpu.flags.withNZ b }) ∧
    exec (.ldy m) s = .next (u.withCpu { u.cpu with y := b, flags := u.cpu.flags.withNZ b })) ∧
  AccForms 0xA9 0xA5 0xB5 0xAD 0xBD 0xB9 0xA1 0xB1 .lda ∧
  (ByteForm 0xA2 (fun n => .ldx (.imm n)) ∧ ByteForm 0xA6 (fun n => .ldx (.mem (.zp n))) ∧
    ByteForm 0xB6 (fun n => .ldx (.mem (.zpy n))) ∧ WordForm 0xAE (fun a => .ldx (.mem (.abs a))) ∧
    WordForm 0xBE (fun a => .ldx (.mem (.absy a)))) ∧
  (ByteForm 0xA0 (fun n => .ldy (.imm n)) ∧ ByteForm 0xA4 (fun n => .ldy (.mem (.zp n))) ∧
    ByteForm 0xB4 (fun n => .ldy (.mem (.zpx n))) ∧ WordForm 0xAC (fun a => .ldy (.mem (.abs a))) ∧
    WordForm 0xBC (fun a => .ldy (.mem (.absx a))))

/-- STA, STX and STY (R103 to R105) complete unless the write is the refused DMA: one `MemWrite` of
the register at the effective address, which leaves the CPU as it was, makes each stored byte read
the register and every other byte of `cpu_mem` as before, from 0x8000 under the default mapping (R47). -/
def Obligations.StoreResults : Prop :=
  (∀ (s : State) (m : MemOperand) (i : Instr) (v : Byte), s.cpuMem.wf = true →
    (i = .sta m ∧ v = s.cpu.a ∨ i = .stx m ∧ v = s.cpu.x ∨ i = .sty m ∧ v = s.cpu.y) →
    (DmaRefused (s.effAddr m) v → exec i s = .refused .dmaFromSideEffectPage) ∧
    (¬DmaRefused (s.effAddr m) v →
      ∃ t, exec i s = .next t ∧ s.memWrite (s.effAddr m) v = .next t ∧ t.cpu = s.cpu ∧
        (∀ b ∈ storedCells (s.effAddr m), t.cpuMem.read b = v) ∧
        (∀ b, b ∉ storedCells (s.effAddr m) → (b < 0x8000 ∨ s.config.mapper = .default) →
          t.cpuMem.read b = s.cpuMem.read b))) ∧
  (ByteForm 0x85 (fun n => .sta (.zp n)) ∧ ByteForm 0x95 (fun n => .sta (.zpx n)) ∧
    WordForm 0x8D (fun a => .sta (.abs a)) ∧ WordForm 0x9D (fun a => .sta (.absx a)) ∧
    WordForm 0x99 (fun a => .sta (.absy a)) ∧ ByteForm 0x81 (fun n => .sta (.indx n)) ∧
    ByteForm 0x91 (fun n => .sta (.indy n)) ∧ PlainForm 0x89 (.undef 0x89)) ∧
  (ByteForm 0x86 (fun n => .stx (.zp n)) ∧ ByteForm 0x96 (fun n => .stx (.zpy n)) ∧
    WordForm 0x8E (fun a => .stx (.abs a))) ∧
  (ByteForm 0x84 (fun n => .sty (.zp n)) ∧ ByteForm 0x94 (fun n => .sty (.zpx n)) ∧
    WordForm 0x8C (fun a => .sty (.abs a)))

/-! ## Arithmetic and logic -/

/-- ADC (R108) with numbers: the sum modulo 256, the carry out of bit 7, overflow exactly when the
signed sum does not fit in 8 bits (R106), which is the bit formula; `D` plays no part (R107). -/
def Obligations.AdcResult : Prop :=
  (∀ (s : State) (m : ReadOperand),
    let b := (s.readOperand m).1
    let u := (s.readOperand m).2
    let c := u.cpu
    let sum := c.a.toNat + b.toNat + bitNat c.flags.c
    let r : Byte := BitVec.ofNat 8 (sum % 256)
    let signed := c.a.toInt + b.toInt + bitNat c.flags.c
    exec (.adc m) s = .next (u.withCpu { c with
      a := r
      flags := { c.flags with c := decide (255 < sum)
                              v := decide (signed < -128 ∨ 127 < signed)
                              z := decide (r.toNat = 0), n := decide (128 ≤ r.toNat) } }) ∧
    ((signed < -128 ∨ 127 < signed) ↔ ((c.a ^^^ r) &&& (b ^^^ r) &&& 0x80) ≠ 0)) ∧
  AccForms 0x69 0x65 0x75 0x6D 0x7D 0x79 0x61 0x71 .adc

/-- SBC (R109) with numbers: the difference with borrow modulo 256, `C` = 1 for no borrow, overflow
exactly when the signed difference does not fit in 8 bits (R106); `D` plays no part (R107). -/
def Obligations.SbcResult : Prop :=
  (∀ (s : State) (m : ReadOperand),
    let b := (s.readOperand m).1
    let u := (s.readOperand m).2
    let c := u.cpu
    let diff : Int := c.a.toNat - b.toNat - (1 - bitNat c.flags.c)
    let r : Byte := BitVec.ofInt 8 diff
    let signed := c.a.toInt - b.toInt - (1 - bitNat c.flags.c)
    exec (.sbc m) s = .next (u.withCpu { c with
      a := r
      flags := { c.flags with c := decide (0 ≤ diff)
                              v := decide (signed < -128 ∨ 127 < signed)
                              z := decide (r.toNat = 0), n := decide (128 ≤ r.toNat) } }) ∧
    ((signed < -128 ∨ 127 < signed) ↔ ((c.a ^^^ r) &&& (~~~b ^^^ r) &&& 0x80) ≠ 0)) ∧
  AccForms 0xE9 0xE5 0xF5 0xED 0xFD 0xF9 0xE1 0xF1 .sbc

/-- AND, ORA, EOR (R110 to R112) bit by bit, and BIT (R113), whose `N` and `V` come from the operand. -/
def Obligations.LogicResults : Prop :=
  (∀ (s : State) (m : ReadOperand),
    let b := (s.readOperand m).1
    let u := (s.readOperand m).2
    (∃ r : Byte, (∀ k < 8, r.getLsbD k = (u.cpu.a.getLsbD k && b.getLsbD k)) ∧
      exec (.and m) s = .next (u.withCpu { u.cpu with a := r, flags := u.cpu.flags.withNZ r })) ∧
    (∃ r : Byte, (∀ k < 8, r.getLsbD k = (u.cpu.a.getLsbD k || b.getLsbD k)) ∧
      exec (.ora m) s = .next (u.withCpu { u.cpu with a := r, flags := u.cpu.flags.withNZ r })) ∧
    (∃ r : Byte, (∀ k < 8, r.getLsbD k = (u.cpu.a.getLsbD k ^^ b.getLsbD k)) ∧
      exec (.eor m) s = .next (u.withCpu { u.cpu with a := r, flags := u.cpu.flags.withNZ r }))) ∧
  (∀ (s : State) (m : MemOperand),
    let b := (s.memRead (s.effAddr m)).1
    let u := (s.memRead (s.effAddr m)).2
    exec (.bit m) s = .next (u.withCpu { u.cpu with flags := { u.cpu.flags with
      z := (List.range 8).all fun k => !(u.cpu.a.getLsbD k && b.getLsbD k)
      n := b.getLsbD 7, v := b.getLsbD 6 } })) ∧
  AccForms 0x29 0x25 0x35 0x2D 0x3D 0x39 0x21 0x31 .and ∧
  AccForms 0x09 0x05 0x15 0x0D 0x1D 0x19 0x01 0x11 .ora ∧
  AccForms 0x49 0x45 0x55 0x4D 0x5D 0x59 0x41 0x51 .eor ∧
  ByteForm 0x24 (fun n => .bit (.zp n)) ∧ WordForm 0x2C (fun a => .bit (.abs a))

/-- INC and DEC (R114, R115, R99) complete unless the write is the refused DMA: one read, one write of
the byte plus or minus 1 modulo 256, then `N`, `Z` from the result; `C` and `V` stay (R106). -/
def Obligations.IncDecMemoryResults : Prop :=
  (∀ (s : State) (m : MemOperand) (i : Instr) (r : Byte),
    let ea := s.effAddr m
    let b := (s.memRead ea).1
    let u := (s.memRead ea).2
    (i = .inc m ∧ r.toNat = (b.toNat + 1) % 256 ∨ i = .dec m ∧ r.toNat = (b.toNat + 255) % 256) →
    (DmaRefused ea r → exec i s = .refused .dmaFromSideEffectPage) ∧
    (¬DmaRefused ea r →
      ∃ t, u.memWrite ea r = .next t ∧
        exec i s = .next (t.withCpu { s.cpu with flags := s.cpu.flags.withNZ r }))) ∧
  RmwForms 0xE6 0xF6 0xEE 0xFE .inc ∧ RmwForms 0xC6 0xD6 0xCE 0xDE .dec

/-- INX, INY, DEX, DEY (R116 to R119): the register plus or minus 1 modulo 256, and `N`, `Z`. -/
def Obligations.IncDecRegisterResults : Prop :=
  (∀ (s : State) (r : Byte),
    (r.toNat = (s.cpu.x.toNat + 1) % 256 → exec .inx s =
      .next (s.withCpu { s.cpu with x := r, flags := s.cpu.flags.withNZ r })) ∧
    (r.toNat = (s.cpu.y.toNat + 1) % 256 → exec .iny s =
      .next (s.withCpu { s.cpu with y := r, flags := s.cpu.flags.withNZ r })) ∧
    (r.toNat = (s.cpu.x.toNat + 255) % 256 → exec .dex s =
      .next (s.withCpu { s.cpu with x := r, flags := s.cpu.flags.withNZ r })) ∧
    (r.toNat = (s.cpu.y.toNat + 255) % 256 → exec .dey s =
      .next (s.withCpu { s.cpu with y := r, flags := s.cpu.flags.withNZ r }))) ∧
  PlainForm 0xE8 .inx ∧ PlainForm 0xC8 .iny ∧ PlainForm 0xCA .dex ∧ PlainForm 0x88 .dey

/-- ASL, LSR, ROL, ROR (R120 to R123) with numbers, on the accumulator and on memory (R85, R99): the
bit shifted out goes to `C`, the old `C` enters a rotate. -/
def Obligations.ShiftResults : Prop :=
  (∀ (s : State) (f : ShiftOperand → Instr) (g : Nat → Nat) (out : Nat → Bool),
    (f = .asl ∧ g = (fun b => b * 2 % 256) ∧ out = (fun b => decide (128 ≤ b)) ∨
     f = .lsr ∧ g = (fun b => b / 2) ∧ out = (fun b => decide (b % 2 = 1)) ∨
     f = .rol ∧ g = (fun b => b * 2 % 256 + bitNat s.cpu.flags.c) ∧
       out = (fun b => decide (128 ≤ b)) ∨
     f = .ror ∧ g = (fun b => b / 2 + 128 * bitNat s.cpu.flags.c) ∧
       out = (fun b => decide (b % 2 = 1))) →
    (∀ r : Byte, r.toNat = g s.cpu.a.toNat →
      exec (f .acc) s = .next (s.withCpu { s.cpu with
        a := r, flags := { s.cpu.flags.withNZ r with c := out s.cpu.a.toNat } })) ∧
    ∀ (m : MemOperand) (r : Byte),
      let ea := s.effAddr m
      let b := (s.memRead ea).1
      let u := (s.memRead ea).2
      r.toNat = g b.toNat →
      (DmaRefused ea r → exec (f (.mem m)) s = .refused .dmaFromSideEffectPage) ∧
      (¬DmaRefused ea r →
        ∃ t, u.memWrite ea r = .next t ∧
          exec (f (.mem m)) s = .next (t.withCpu { s.cpu with
            flags := { s.cpu.flags.withNZ r with c := out b.toNat } }))) ∧
  (PlainForm 0x0A (.asl .acc) ∧ RmwForms 0x06 0x16 0x0E 0x1E (fun m => .asl (.mem m))) ∧
  (PlainForm 0x4A (.lsr .acc) ∧ RmwForms 0x46 0x56 0x4E 0x5E (fun m => .lsr (.mem m))) ∧
  (PlainForm 0x2A (.rol .acc) ∧ RmwForms 0x26 0x36 0x2E 0x3E (fun m => .rol (.mem m))) ∧
  (PlainForm 0x6A (.ror .acc) ∧ RmwForms 0x66 0x76 0x6E 0x7E (fun m => .ror (.mem m)))

/-- CMP, CPX, CPY (R124 to R127): unsigned comparison in `C` and `Z`, bit 7 of the difference in `N`;
`V` and every register stay. -/
def Obligations.CompareResults : Prop :=
  (∀ (s : State) (m : ReadOperand),
    let b := (s.readOperand m).1
    let u := (s.readOperand m).2
    let after (r : Byte) : State := u.withCpu { u.cpu with flags := { u.cpu.flags with
      c := decide (b.toNat ≤ r.toNat), z := decide (r.toNat = b.toNat)
      n := decide (128 ≤ (r.toNat + 256 - b.toNat) % 256) } }
    exec (.cmp m) s = .next (after u.cpu.a) ∧ exec (.cpx m) s = .next (after u.cpu.x) ∧
    exec (.cpy m) s = .next (after u.cpu.y)) ∧
  AccForms 0xC9 0xC5 0xD5 0xCD 0xDD 0xD9 0xC1 0xD1 .cmp ∧
  CpxForms 0xE0 0xE4 0xEC .cpx ∧ CpxForms 0xC0 0xC4 0xCC .cpy

/-! ## Branches, jumps, calls and returns -/

/-- The eight branches (R128, R130 to R137), `PC` being the address after the branch: taken on their
condition to `PC + sext_8(d)` modulo 2^16, else no change at all. -/
def Obligations.BranchResults : Prop :=
  (∀ (s : State) (d : Byte),
    let f := s.cpu.flags
    let target : State := s.withCpu { s.cpu with pc := BitVec.ofInt 16 (s.cpu.pc.toNat + d.toInt) }
    exec (.bpl d) s = .next (if f.n = false then target else s) ∧
    exec (.bmi d) s = .next (if f.n = true then target else s) ∧
    exec (.bvc d) s = .next (if f.v = false then target else s) ∧
    exec (.bvs d) s = .next (if f.v = true then target else s) ∧
    exec (.bcc d) s = .next (if f.c = false then target else s) ∧
    exec (.bcs d) s = .next (if f.c = true then target else s) ∧
    exec (.bne d) s = .next (if f.z = false then target else s) ∧
    exec (.beq d) s = .next (if f.z = true then target else s)) ∧
  ByteForm 0x10 .bpl ∧ ByteForm 0x30 .bmi ∧ ByteForm 0x50 .bvc ∧ ByteForm 0x70 .bvs ∧
  ByteForm 0x90 .bcc ∧ ByteForm 0xB0 .bcs ∧ ByteForm 0xD0 .bne ∧ ByteForm 0xF0 .beq

/-- JMP (R138, R95): the operand, or the two bytes at the pointer, low byte first, the high byte from
the same page as the low one when `JMP_IND_PAGE_WRAP` holds. -/
def Obligations.JmpResult : Prop :=
  (∀ (s : State) (a : Addr),
    exec (.jmp (.abs a)) s = .next (s.withCpu { s.cpu with pc := a }) ∧
    (let q := if s.config.params.jmpIndPageWrap = true
        then a.toNat / 0x100 * 0x100 + (a.toNat + 1) % 0x100 else (a.toNat + 1) % 0x10000
     let lo := s.memRead a
     let hi := lo.2.memRead (BitVec.ofNat 16 q)
     exec (.jmp (.ind a)) s = .next (hi.2.withCpu { s.cpu with pc := hi.1 ++ lo.1 }))) ∧
  State.reset.config.params.jmpIndPageWrap = true ∧
  WordForm 0x4C (fun a => .jmp (.abs a)) ∧ WordForm 0x6C (fun a => .jmp (.ind a))

/-- JSR and RTS (R139, R140, R141), `PC` being the address after the instruction: JSR pushes `PC - 1`,
high byte first; RTS pulls it and adds 1. -/
def Obligations.JsrRtsResults : Prop :=
  (∀ (s : State) (a : Addr),
    let ret := BitVec.ofInt 16 (s.cpu.pc.toNat - 1)
    exec (.jsr a) s = .next
      (let t := (s.push (ret.extractLsb' 8 8)).push (ret.extractLsb' 0 8)
       t.withCpu { s.cpu with sp := s.cpu.sp - 2, pc := a }) ∧
    exec .rts s = .next (s.withCpu { s.cpu with
      sp := s.cpu.sp + 2
      pc := BitVec.ofNat 16 ((s.memRead (0x0100 + (s.cpu.sp + 2).setWidth 16)).1.toNat * 0x100 +
        (s.memRead (0x0100 + (s.cpu.sp + 1).setWidth 16)).1.toNat + 1) })) ∧
  WordForm 0x20 .jsr ∧ PlainForm 0x60 .rts

/-- A subroutine that returns at once comes back to the instruction after the call, with every register
as before (R129, R139, R140), even where the stack pointer wraps. -/
def Obligations.JsrThenRtsReturns : Prop :=
  ∀ (s : State) (a : Addr), s.cpuMem.wf = true →
    ∃ t u, exec (.jsr a) s = .next t ∧ t.cpu.pc = a ∧ exec .rts t = .next u ∧ u.cpu = s.cpu

/-! ## Stack and transfers -/

/-- `Push` and `Pull` (R141) are a write and a read through the memory map at `0x0100 + S`, with `S`
wrapping in the page; a pull right after a push gives the byte back and restores the CPU. -/
def Obligations.PushAndPull : Prop :=
  ∀ (s : State) (v : Byte),
    (∃ t, s.memWrite (BitVec.ofNat 16 (0x100 + s.cpu.sp.toNat)) v = .next t ∧
      s.push v = t.withCpu { s.cpu with sp := BitVec.ofNat 8 (s.cpu.sp.toNat + 255) }) ∧
    (let k := (s.cpu.sp.toNat + 1) % 256
     s.pull = ((s.memRead (BitVec.ofNat 16 (0x100 + k))).1,
       s.withCpu { s.cpu with sp := BitVec.ofNat 8 k })) ∧
    (s.cpuMem.wf = true → (s.push v).pull.1 = v ∧ (s.push v).pull.2.cpu = s.cpu)

/-- PHA, PHP, PLA, PLP (R142 to R145) by the primitives `Push` and `Pull`: PHP pushes bits 5 and 4 as
1 and leaves `B`; PLP takes every flag but bit 5 from the byte (R22, R23). -/
def Obligations.StackInstructionResults : Prop :=
  (∀ s : State,
    let f := s.cpu.flags
    let b := s.pull.1
    let u := s.pull.2
    exec .pha s = .next (s.push s.cpu.a) ∧
    exec .php s = .next (s.push (BitVec.ofNat 8 (128 * bitNat f.n + 64 * bitNat f.v + 32 + 16 +
      8 * bitNat f.d + 4 * bitNat f.i + 2 * bitNat f.z + bitNat f.c))) ∧
    exec .pla s = .next (u.withCpu { u.cpu with a := b, flags := f.withNZ b }) ∧
    exec .plp s = .next (u.withCpu { u.cpu with flags :=
      { n := b.getLsbD 7, v := b.getLsbD 6, b := b.getLsbD 4, d := b.getLsbD 3, i := b.getLsbD 2
        z := b.getLsbD 1, c := b.getLsbD 0 } })) ∧
  PlainForm 0x48 .pha ∧ PlainForm 0x08 .php ∧ PlainForm 0x68 .pla ∧ PlainForm 0x28 .plp

/-- The transfers (R146 to R151): TXS alone writes no flag. -/
def Obligations.TransferResults : Prop :=
  (∀ s : State,
    let c := s.cpu
    exec .tax s = .next (s.withCpu { c with x := c.a, flags := c.flags.withNZ c.a }) ∧
    exec .tay s = .next (s.withCpu { c with y := c.a, flags := c.flags.withNZ c.a }) ∧
    exec .txa s = .next (s.withCpu { c with a := c.x, flags := c.flags.withNZ c.x }) ∧
    exec .tya s = .next (s.withCpu { c with a := c.y, flags := c.flags.withNZ c.y }) ∧
    exec .tsx s = .next (s.withCpu { c with x := c.sp, flags := c.flags.withNZ c.sp }) ∧
    exec .txs s = .next (s.withCpu { c with sp := c.x })) ∧
  PlainForm 0xAA .tax ∧ PlainForm 0xA8 .tay ∧ PlainForm 0x8A .txa ∧ PlainForm 0x98 .tya ∧
  PlainForm 0xBA .tsx ∧ PlainForm 0x9A .txs

/-! ## Flags and system -/

/-- The seven flag instructions (R152 to R158) write their one flag and nothing else. -/
def Obligations.FlagInstructionResults : Prop :=
  (∀ s : State,
    let c := s.cpu
    exec .clc s = .next (s.withCpu { c with flags := { c.flags with c := false } }) ∧
    exec .sec s = .next (s.withCpu { c with flags := { c.flags with c := true } }) ∧
    exec .cli s = .next (s.withCpu { c with flags := { c.flags with i := false } }) ∧
    exec .sei s = .next (s.withCpu { c with flags := { c.flags with i := true } }) ∧
    exec .cld s = .next (s.withCpu { c with flags := { c.flags with d := false } }) ∧
    exec .sed s = .next (s.withCpu { c with flags := { c.flags with d := true } }) ∧
    exec .clv s = .next (s.withCpu { c with flags := { c.flags with v := false } })) ∧
  PlainForm 0x18 .clc ∧ PlainForm 0x38 .sec ∧ PlainForm 0x58 .cli ∧ PlainForm 0x78 .sei ∧
  PlainForm 0xD8 .cld ∧ PlainForm 0xF8 .sed ∧ PlainForm 0xB8 .clv

/-- NOP (R159) and the 105 unrecognised opcodes (R77, R162): beyond the step's fetch of one byte and
its cost, 2 for NOP and `UNDEF_CYCLES` (default 1) for an unrecognised byte, nothing happens, neither in
`exec` nor in the step that runs one from a plain address. -/
def Obligations.NopAndUnrecognised : Prop :=
  (∀ s : State, exec .nop s = .next s) ∧ PlainForm 0xEA .nop ∧
  (∀ p : Params, cycles p 0xEA = 2) ∧
  undefOpcodes.length = 105 ∧ undefOpcodes.Nodup ∧
  (∀ op : Byte, op ∈ undefOpcodes ↔ PlainForm op (.undef op)) ∧
  (∀ (op : Byte) (s : State), exec (.undef op) s = .next s) ∧
  (∀ (p : Params), ∀ op ∈ undefOpcodes, cycles p op = p.undefCycles) ∧
  State.reset.config.params.undefCycles = 1 ∧
  (∀ (s : State) (r : Run) (op : Byte),
    s.phase = .running r → 0 < s.cpu.budget → plainAddr s.cpu.pc = true →
    s.cpuMem.read s.cpu.pc.toNat = op → (op = 0xEA ∨ op ∈ undefOpcodes) →
    step s = .next (s.withCpu { s.cpu with
      pc := s.cpu.pc + 1
      budget := s.cpu.budget - (if op = 0xEA then 2 else s.config.params.undefCycles) }))

/-- BRK (R160), `PC` being the address after the opcode byte: skips the padding byte, sets `B`, pushes
the return address and the packed flags with bits 5 and 4 set, sets `I`, and goes to the vector at
0xFFFE, whatever `I` held. Its cost is the step's 7. -/
def Obligations.BrkResult : Prop :=
  (∀ s : State,
    let f := s.cpu.flags
    let ret : Addr := BitVec.ofNat 16 (s.cpu.pc.toNat + 1)
    let status : Byte := BitVec.ofNat 8 (128 * bitNat f.n + 64 * bitNat f.v + 32 + 16 +
      8 * bitNat f.d + 4 * bitNat f.i + 2 * bitNat f.z + bitNat f.c)
    let t := ((s.push (ret.extractLsb' 8 8)).push (ret.extractLsb' 0 8)).push status
    exec .brk s = .next (t.withCpu { s.cpu with
      sp := s.cpu.sp - 3
      flags := { f with b := true, i := true }
      pc := (t.memRead 0xFFFF).1 ++ (t.memRead 0xFFFE).1 })) ∧
  PlainForm 0x00 .brk ∧ ∀ p : Params, cycles p 0x00 = 7

/-- RTI (R161, R196): pulls the flags, then the return address, with no adjustment. -/
def Obligations.RtiResult : Prop :=
  (∀ s : State,
    let at' (k : Byte) : Byte := (s.memRead (0x0100 + (s.cpu.sp + k).setWidth 16)).1
    let b := at' 1
    exec .rti s = .next (s.withCpu { s.cpu with
      sp := s.cpu.sp + 3
      flags := { n := b.getLsbD 7, v := b.getLsbD 6, b := b.getLsbD 4, d := b.getLsbD 3
                 i := b.getLsbD 2, z := b.getLsbD 1, c := b.getLsbD 0 }
      pc := at' 3 ++ at' 2 })) ∧
  PlainForm 0x40 .rti

/-- Returning at once undoes an entry (R161): RTI after an interrupt restores the whole CPU but the 7
cycles charged, and RTI after BRK returns past the padding byte with `B` set and every other flag as
before. -/
def Obligations.InterruptReturnRestores : Prop :=
  ∀ s : State, s.cpuMem.wf = true →
    (∀ vec, ∃ t, exec .rti (s.interrupt vec) = .next t ∧
      t.cpu = { s.cpu with budget := s.cpu.budget - 7 }) ∧
    (∃ t u, exec .brk s = .next t ∧ exec .rti t = .next u ∧
      u.cpu = { s.cpu with pc := s.cpu.pc + 1, flags := { s.cpu.flags with b := true } })

/-- Interrupt entry (R195) for NMI and IRQ, and the masked request (R194): pushes `PC` and the packed
flags with the stored `B`, clears `B`, sets `I`, goes to the vector, charges 7. -/
def Obligations.InterruptEntry : Prop :=
  ∀ s : State,
    let f := s.cpu.flags
    let status : Byte := BitVec.ofNat 8 (128 * bitNat f.n + 64 * bitNat f.v + 32 + 16 * bitNat f.b +
      8 * bitNat f.d + 4 * bitNat f.i + 2 * bitNat f.z + bitNat f.c)
    let t := ((s.push (s.cpu.pc.extractLsb' 8 8)).push (s.cpu.pc.extractLsb' 0 8)).push status
    (∀ vec : Addr, vec = 0xFFFA ∨ vec = 0xFFFE →
      s.interrupt vec = t.withCpu { s.cpu with
        sp := s.cpu.sp - 3
        flags := { f with b := false, i := true }
        pc := (t.memRead (vec + 1)).1 ++ (t.memRead vec).1
        budget := s.cpu.budget - 7 }) ∧
    s.irqRequest = if f.i = true then s else s.interrupt 0xFFFE

/-! ## The PPU registers, OAM and the controller -/

/-- A read of 0x2002 or a mirror (R173, R45): the pre-read top three bits and the low five of the
latch; `VBL`, `S0` and `w` are cleared and nothing else changes; a second read shows `VBL` and `S0`
as 0. -/
def Obligations.StatusReadClears : Prop :=
  ∀ (s : State) (a : Addr), 0x2000 ≤ a.toNat → a.toNat < 0x4000 → a.toNat % 8 = 2 →
    let r := s.memRead a
    (r.1.toNat = s.ppu.status.toNat / 32 * 32 + s.ppu.addrLatch.toNat % 32) ∧
    r.2 = { s with ppu := { s.ppu with status := s.ppu.status &&& 0x3F, w := false } } ∧
    (r.2.memRead a).1.getLsbD 7 = false ∧ (r.2.memRead a).1.getLsbD 6 = false ∧
    (r.2.memRead a).2 = r.2

/-- The data port at 0x2007 (R171, R172, R174) and the reads the spec leaves free (R175): a read returns
the old buffer, reloads it from `v` and advances `v`; a write stores at `v` and advances it; a read of
0x2000, 0x2001, 0x2003 to 0x2006 changes nothing but the model's count of free draws (log 7). -/
def Obligations.DataPortAccess : Prop :=
  ∀ (s : State) (a : Addr) (d : Byte), 0x2000 ≤ a.toNat → a.toNat < 0x4000 →
    let step' : Nat := if s.ppu.ctrl1.getLsbD 2 = true then 32 else 1
    let next : Loopy := BitVec.ofNat 15 (s.ppu.v.toNat + step')
    let va : PpuAddr := BitVec.ofNat 14 s.ppu.v.toNat
    (a.toNat % 8 = 7 →
      s.memRead a = (s.ppu.readBuffer,
        { s with ppu := { s.ppu with readBuffer := s.ppuRead va, v := next } }) ∧
      s.memWrite a d = .next { s.ppuWrite va d with ppu := { s.ppu with v := next } }) ∧
    (a.toNat % 8 ≠ 7 → a.toNat % 8 ≠ 2 → (s.memRead a).2 = { s with draws := s.draws + 1 })

/-- The writes to 0x2005 (R169), in every state: in phase 0 coarse-X and fine-X from the byte, in phase 1
coarse-Y and fine-Y, high five bits the tile and low three the pixel; the other bits of `t` stay, the
toggle turns, and nothing else changes. Two writes from phase 0 set the four fields. -/
def Obligations.ScrollWritePair : Prop :=
  ∀ (s : State) (d e : Byte),
    (s.ppu.w = false → ∃ t x, s.memWrite 0x2005 d = .next { s with
        ppu := { s.ppu with t := t, fineX := x, w := true } } ∧
      (coarseX t).toNat = d.toNat / 8 ∧ x.toNat = d.toNat % 8 ∧
      ∀ k, 5 ≤ k → t.getLsbD k = s.ppu.t.getLsbD k) ∧
    (s.ppu.w = true → ∃ t, s.memWrite 0x2005 d = .next { s with
        ppu := { s.ppu with t := t, w := false } } ∧
      (coarseY t).toNat = d.toNat / 8 ∧ (fineY t).toNat = d.toNat % 8 ∧
      coarseX t = coarseX s.ppu.t ∧ ntSelect t = ntSelect s.ppu.t) ∧
    (s.ppu.w = false → ∃ t u, s.memWrite 0x2005 d = .next t ∧ t.memWrite 0x2005 e = .next u ∧
      (coarseX t.ppu.t).toNat = d.toNat / 8 ∧ t.ppu.fineX.toNat = d.toNat % 8 ∧
      (∀ k, 5 ≤ k → t.ppu.t.getLsbD k = s.ppu.t.getLsbD k) ∧ t.ppu.w = true ∧
      (coarseX u.ppu.t).toNat = d.toNat / 8 ∧ u.ppu.fineX.toNat = d.toNat % 8 ∧
      (coarseY u.ppu.t).toNat = e.toNat / 8 ∧ (fineY u.ppu.t).toNat = e.toNat % 8 ∧
      ntSelect u.ppu.t = ntSelect s.ppu.t ∧
      u = { s with ppu := { s.ppu with t := u.ppu.t, fineX := u.ppu.fineX } })

/-- The writes to 0x2006 (R170), in every state: in phase 0 the high six bits of a 14-bit address, the
byte's top two bits dropped and `t[14]` cleared; in phase 1 its low byte, and then `v` is `t`; the latch
takes the byte, the toggle turns, and nothing else changes. Then the pairs from phase 0: 0x2006 twice,
and, the toggle being shared (R31), 0x2006 then 0x2005 and 0x2005 then 0x2006. -/
def Obligations.AddressWritePair : Prop :=
  ∀ (s : State) (d e : Byte),
    (s.ppu.w = false → ∃ t, s.memWrite 0x2006 d = .next { s with
        ppu := { s.ppu with t := t, addrLatch := d, w := true } } ∧
      t.toNat = d.toNat % 64 * 256 + s.ppu.t.toNat % 256) ∧
    (s.ppu.w = true → ∃ t, s.memWrite 0x2006 d = .next { s with
        ppu := { s.ppu with t := t, v := t, addrLatch := d, w := false } } ∧
      t.toNat = s.ppu.t.toNat / 256 * 256 + d.toNat) ∧
    (s.ppu.w = false → ∃ t u, s.memWrite 0x2006 d = .next t ∧ t.memWrite 0x2006 e = .next u ∧
      t.ppu.t.toNat = d.toNat % 64 * 256 + s.ppu.t.toNat % 256 ∧ t.ppu.v = s.ppu.v ∧
      t.ppu.addrLatch = d ∧ t.ppu.w = true ∧
      u.ppu.t.toNat = d.toNat % 64 * 256 + e.toNat ∧
      u = { s with ppu := { s.ppu with t := u.ppu.t, v := u.ppu.t, addrLatch := e } }) ∧
    (s.ppu.w = false → ∃ t u, s.memWrite 0x2006 d = .next t ∧ t.memWrite 0x2005 e = .next u ∧
      (coarseX u.ppu.t).toNat = s.ppu.t.toNat % 32 ∧ (coarseY u.ppu.t).toNat = e.toNat / 8 ∧
      (fineY u.ppu.t).toNat = e.toNat % 8 ∧ (ntSelect u.ppu.t).toNat = d.toNat / 4 % 4 ∧
      u = { s with ppu := { s.ppu with t := u.ppu.t, addrLatch := d } }) ∧
    (s.ppu.w = false → ∃ t u, s.memWrite 0x2005 d = .next t ∧ t.memWrite 0x2006 e = .next u ∧
      u.ppu.t.toNat = s.ppu.t.toNat / 256 * 256 + e.toNat ∧ u.ppu.fineX.toNat = d.toNat % 8 ∧
      u = { s with ppu := { s.ppu with
        t := u.ppu.t, v := u.ppu.t, fineX := u.ppu.fineX, addrLatch := e } })

/-- The writes to 0x2000 to 0x2004 (R164 to R168): 0x2000 also takes bits 1:0 into `t[11:10]`; 0x2002
is ignored; 0x2004 stores at `oam_addr` and advances it modulo 256. -/
def Obligations.ControlAndOamWrites : Prop :=
  ∀ (s : State) (d : Byte),
    (∃ t, s.memWrite 0x2000 d = .next { s with ppu := { s.ppu with ctrl1 := d, t := t } } ∧
      t.getLsbD 10 = d.getLsbD 0 ∧ t.getLsbD 11 = d.getLsbD 1 ∧
      ∀ k, k ≠ 10 → k ≠ 11 → t.getLsbD k = s.ppu.t.getLsbD k) ∧
    s.memWrite 0x2001 d = .next { s with ppu := { s.ppu with ctrl2 := d } } ∧
    s.memWrite 0x2002 d = .next s ∧
    s.memWrite 0x2003 d = .next { s with ppu := { s.ppu with oamAddr := d } } ∧
    s.memWrite 0x2004 d = .next { s with
      oam := s.oam.write s.ppu.oamAddr.toNat d
      ppu := { s.ppu with oamAddr := BitVec.ofNat 8 (s.ppu.oamAddr.toNat + 1) } }

/-- OAM DMA (R176): refused for 0x20 to 0x40, else every byte of OAM becomes the byte of the page that
a read would give, and nothing else changes. -/
def Obligations.OamDmaCopies : Prop :=
  ∀ (s : State) (d : Byte), s.oam.wf = true →
    (0x20 ≤ d.toNat ∧ d.toNat ≤ 0x40 → s.memWrite 0x4014 d = .refused .dmaFromSideEffectPage) ∧
    (¬(0x20 ≤ d.toNat ∧ d.toNat ≤ 0x40) →
      ∃ t, s.memWrite 0x4014 d = .next t ∧ t = { s with oam := t.oam } ∧
        ∀ k < 256, t.oam.read k = (s.memRead (BitVec.ofNat 16 (d.toNat * 256 + k))).1)

/-- `PpuWrite` (R59 to R63): after a write, an address reads the byte exactly if it names the written
cell, a nametable image of it, or the other of 0x3F00 and 0x3F10; every other address reads as
before. -/
def Obligations.PpuWriteImages : Prop :=
  ∀ (s : State) (a b : PpuAddr) (v : Byte), s.ppuMem.wf = true →
    let cell (x : PpuAddr) : Nat :=
      if 0x3F00 ≤ x.toNat then 0x3F00 + x.toNat % 0x20
      else if 0x3000 ≤ x.toNat then x.toNat - 0x1000 else x.toNat
    let table (c : Nat) : Nat := (c - 0x2000) / 0x400
    let sameGroup (n k : Nat) : Prop := match s.config.mirroring with
      | .vertical => n % 2 = k % 2
      | .horizontal => n / 2 = k / 2
      | .oneScreen => True
      | .fourScreen => n = k
    let image : Prop := cell b = cell a ∨
      (0x2000 ≤ cell a ∧ cell a < 0x3000 ∧ 0x2000 ≤ cell b ∧ cell b < 0x3000 ∧
        cell b % 0x400 = cell a % 0x400 ∧ sameGroup (table (cell a)) (table (cell b))) ∨
      (cell a = 0x3F10 ∧ cell b = 0x3F00) ∨ (cell a = 0x3F00 ∧ cell b = 0x3F10)
    (image → (s.ppuWrite a v).ppuRead b = v) ∧
    (¬image → (s.ppuWrite a v).ppuRead b = s.ppuRead b) ∧
    s.ppuWrite a v = { s with ppuMem := (s.ppuWrite a v).ppuMem }

/-- The controller port (R177, R178): after any write, eight reads of 0x4016 return the eight buttons in
the order A, B, Select, Start, Up, Down, Left, Right, and lead back to the first; nothing else moves. -/
def Obligations.ControllerSequence : Prop :=
  ∀ (s : State) (d : Byte),
    let byte (b : Bool) : Byte := if b then 0x01 else 0x00
    ∃ s0, s.memWrite 0x4016 d = .next s0 ∧ s0 = { s with padStep := 0 } ∧
      let s1 := (s0.memRead 0x4016).2
      let s2 := (s1.memRead 0x4016).2
      let s3 := (s2.memRead 0x4016).2
      let s4 := (s3.memRead 0x4016).2
      let s5 := (s4.memRead 0x4016).2
      let s6 := (s5.memRead 0x4016).2
      let s7 := (s6.memRead 0x4016).2
      [s0, s1, s2, s3, s4, s5, s6, s7].map (fun u => (u.memRead 0x4016).1) =
        [s.buttons.a, s.buttons.b, s.buttons.select, s.buttons.start, s.buttons.up,
          s.buttons.down, s.buttons.left, s.buttons.right].map byte ∧
      (s7.memRead 0x4016).2 = s0

/-! ## Rendering -/

/-- `HInc` and `VInc` (R184, R185) on the fields: coarse-X wraps after 31 and toggles `nt_x`; fine-Y
wraps after 7 into coarse-Y, which wraps at 29 with a toggle of `nt_y` and at 31 without. -/
def Obligations.ScrollIncrements : Prop :=
  ∀ r : Loopy,
    (let h := hInc r
     (coarseX h).toNat = ((coarseX r).toNat + 1) % 32 ∧
     (h.getLsbD 10 = if (coarseX r).toNat = 31 then !r.getLsbD 10 else r.getLsbD 10) ∧
     coarseY h = coarseY r ∧ h.getLsbD 11 = r.getLsbD 11 ∧ fineY h = fineY r) ∧
    (let u := vInc r
     let wrap := (fineY r).toNat = 7
     (fineY u).toNat = ((fineY r).toNat + 1) % 8 ∧
     (coarseY u).toNat = (if wrap then
        (if (coarseY r).toNat = 29 then 0 else ((coarseY r).toNat + 1) % 32) else (coarseY r).toNat) ∧
     (u.getLsbD 11 = if wrap ∧ (coarseY r).toNat = 29 then !r.getLsbD 11 else r.getLsbD 11) ∧
     u.getLsbD 10 = r.getLsbD 10 ∧ coarseX u = coarseX r)

/-- `BgTile` (R183) with numbers: the nametable byte, the two bits of the attribute byte that the tile's
quadrant selects, and the pattern rows 8 bytes apart, bit 7 leftmost. -/
def Obligations.BackgroundTile : Prop :=
  ∀ (s : State) (a : Loopy) (fy : BitVec 3),
    let cx := a.toNat % 32
    let cy := a.toNat / 32 % 32
    let nt := a.toNat / 1024 % 4
    let read (k : Nat) : Byte := s.ppuRead (BitVec.ofNat 14 k)
    let tile := read (0x2000 + a.toNat % 0x1000)
    let attr := read (0x23C0 + nt * 0x400 + cy / 4 * 8 + cx / 4)
    let base := (if s.ppu.ctrl1.getLsbD 4 = true then 0x1000 else 0) + tile.toNat * 16 + fy.toNat
    let t := s.bgTile a fy
    t.group.toNat = attr.toNat / 2 ^ (4 * (cy / 2 % 2) + 2 * (cx / 2 % 2)) % 4 ∧
    ∀ i < 8, (tilePixel t i).toNat =
      (read base).toNat / 2 ^ (7 - i) % 2 + 2 * ((read (base + 8)).toNat / 2 ^ (7 - i) % 2)

/-- `RenderBackground(N)` (R182): pixel `X` of the row shows pixel `(X + x) mod 8` of tile column
`(X + x) / 8`, walked by `HInc` from the reloaded `v`; `bg_cache` keeps its 2-bit value; no other row,
no other state changes, and `v` ends at `VInc` of the reloaded `v`. -/
def Obligations.BackgroundRow : Prop :=
  ∀ (s : State) (row : Nat), s.Canonical →
    let v : Loopy := (s.ppu.v &&& 0x7BE0) ||| (s.ppu.t &&& 0x041F)
    let t := s.renderBackground row
    (∀ X < 256,
      let k := X + s.ppu.fineX.toNat
      let tile := s.bgTile (walkAddr v (k / 8)) (fineY v)
      let p := tilePixel tile (k % 8)
      t.video.fb.read (pixelKey row X) = s.ppuRead (0x3F00 + (tile.group ++ p).setWidth 14) ∧
      t.video.bgCache.read (pixelKey row X) = p) ∧
    (∀ other, other ≠ row → ∀ X < 256,
      t.video.fb.read (pixelKey other X) = s.video.fb.read (pixelKey other X) ∧
      t.video.bgCache.read (pixelKey other X) = s.video.bgCache.read (pixelKey other X)) ∧
    t = { s with
      ppu := { s.ppu with v := vInc v }
      video := { s.video with fb := t.video.fb, bgCache := t.video.bgCache } }

/-- The sprite pass (R186 to R189) seen from a pixel: with sprites enabled, each pixel shows the palette
byte of the sprite of lowest index that is opaque there and not behind an opaque background pixel,
else what it showed before; the sprite-zero cache holds exactly sprite 0's shown pixels and the
sprite-zero line flag exactly the rows that have one; nothing else changes. Rows above the picture,
which only a negative offset gives, are not drawn: log 14. -/
def Obligations.SpritePriority : Prop :=
  ∀ s : State, s.Canonical → s.ppu.ctrl2.getLsbD 4 = true →
    let t := s.renderSprites
    (∀ row < 240, ∀ col < 256,
      t.video.fb.read (pixelKey row col) =
        (s.spriteColour row col).getD (s.video.fb.read (pixelKey row col)) ∧
      t.video.spr0Cache.read (pixelKey row col) = (s.spriteShows 0 row col).getD 0) ∧
    (∀ row < 240, t.video.spr0On row = true ↔
      ∃ col < 256, (s.spriteShows 0 row col).isSome = true) ∧
    t = { s with video := { s.video with
      fb := t.video.fb, spr0Cache := t.video.spr0Cache, spr0Line := t.video.spr0Line } }

/-- The pattern row of a sprite (R188) with numbers, and the pass with sprites disabled (R186): it clears
the sprite-zero caches, so that no collision check finds a hit, and changes nothing else. -/
def Obligations.SpriteRowsAndDisabled : Prop :=
  (∀ (s : State) (tile : Byte) (rr : Nat),
    (s.ppu.ctrl1.getLsbD 5 = false → rr < 8 → (sprRowAddr s.ppu tile rr).toNat =
      (if s.ppu.ctrl1.getLsbD 3 = true then 0x1000 else 0) + tile.toNat * 16 + rr) ∧
    (s.ppu.ctrl1.getLsbD 5 = true → rr < 16 → (sprRowAddr s.ppu tile rr).toNat =
      tile.toNat % 2 * 0x1000 + (tile.toNat / 2 * 2 + rr / 8) * 16 + rr % 8)) ∧
  ∀ s : State, s.ppu.ctrl2.getLsbD 4 = false →
    s.renderSprites = { s with video := { s.video with spr0Cache := [], spr0Line := [] } } ∧
    ∀ n, s.renderSprites.s0Check n = s.renderSprites

/-- The collision check (R190): `S0` is set exactly when the row checked is in the picture, sprite 0 was
drawn on it, and some column has both an opaque background and an opaque sprite-zero pixel; the check
changes nothing else. -/
def Obligations.SpriteZeroCheck : Prop :=
  ∀ (s : State) (n : Nat),
    let row : Int := n - 1 + s.config.params.spr0RowAdjust
    let hit : Prop := 0 ≤ row ∧ row ≤ 239 ∧ s.video.spr0On row.toNat = true ∧
      ∃ col < 256, s.video.bgCache.read (pixelKey row.toNat col) ≠ 0 ∧
        s.video.spr0Cache.read (pixelKey row.toNat col) ≠ 0
    (hit → s.s0Check n = { s with ppu := { s.ppu with status := s.ppu.status ||| 0x40 } }) ∧
    (¬hit → s.s0Check n = s)

/-! ## Whole-machine rules and invariants -/

/-- Every instruction, in every state and with every operand, completes, except a store of 0x20 to 0x40
to 0x4014, which is refused; none faults (R13, R191). The stored byte of a read-modify-write
instruction depends on its result, so the refusal is stated by its address alone. -/
def Obligations.InstructionsComplete : Prop :=
  ∀ (i : Instr) (s : State),
    (∃ t, exec i s = .next t) ∨
    (exec i s = .refused .dmaFromSideEffectPage ∧
      ∃ m, i.storeOperand = some m ∧ s.effAddr m = 0x4014)

/-- What no instruction touches, whatever it reads or stores (R25, R57, R180): the budget, the frame
buffer and the caches, the buttons, the schedule, the host's flags, the parameters and the
configuration but `MIRRORING`. -/
def Obligations.InstructionsLeaveTheSchedule : Prop :=
  ∀ (i : Instr) (s t : State), exec i s = .next t →
    t.cpu.budget = s.cpu.budget ∧ t.video = s.video ∧ t.buttons = s.buttons ∧ t.phase = s.phase ∧
    t.running = s.running ∧ t.paused = s.paused ∧
    t.config = { s.config with mirroring := t.config.mirroring }

/-- Which instructions write each register and each flag (R17, R21): any other leaves it as it was. -/
def Obligations.RegisterAndFlagWriters : Prop :=
  ∀ (i : Instr) (s t : State), exec i s = .next t →
    (t.cpu.a = s.cpu.a ∨ (∃ m, i = .lda m ∨ i = .adc m ∨ i = .sbc m ∨ i = .and m ∨ i = .ora m ∨
      i = .eor m) ∨ i = .pla ∨ i = .txa ∨ i = .tya ∨ i = .asl .acc ∨ i = .lsr .acc ∨
      i = .rol .acc ∨ i = .ror .acc) ∧
    (t.cpu.x = s.cpu.x ∨ (∃ m, i = .ldx m) ∨ i = .tax ∨ i = .tsx ∨ i = .inx ∨ i = .dex) ∧
    (t.cpu.y = s.cpu.y ∨ (∃ m, i = .ldy m) ∨ i = .tay ∨ i = .iny ∨ i = .dey) ∧
    (t.cpu.sp = s.cpu.sp ∨ i = .txs ∨ i = .pha ∨ i = .php ∨ i = .pla ∨ i = .plp ∨
      (∃ a, i = .jsr a) ∨ i = .rts ∨ i = .rti ∨ i = .brk) ∧
    (t.cpu.pc = s.cpu.pc ∨ i.mode = .rel ∨ (∃ m, i = .jmp m) ∨ (∃ a, i = .jsr a) ∨ i = .rts ∨
      i = .rti ∨ i = .brk) ∧
    (t.cpu.flags.c = s.cpu.flags.c ∨ (∃ m, i = .adc m ∨ i = .sbc m ∨ i = .cmp m ∨ i = .cpx m ∨
      i = .cpy m) ∨ (∃ m, i = .asl m ∨ i = .lsr m ∨ i = .rol m ∨ i = .ror m) ∨ i = .clc ∨
      i = .sec ∨ i = .plp ∨ i = .rti) ∧
    (t.cpu.flags.i = s.cpu.flags.i ∨ i = .cli ∨ i = .sei ∨ i = .plp ∨ i = .rti ∨ i = .brk) ∧
    (t.cpu.flags.d = s.cpu.flags.d ∨ i = .cld ∨ i = .sed ∨ i = .plp ∨ i = .rti) ∧
    (t.cpu.flags.b = s.cpu.flags.b ∨ i = .brk ∨ i = .plp ∨ i = .rti) ∧
    (t.cpu.flags.v = s.cpu.flags.v ∨ (∃ m, i = .adc m ∨ i = .sbc m) ∨ (∃ m, i = .bit m) ∨
      i = .clv ∨ i = .plp ∨ i = .rti) ∧
    (t.cpu.flags.z = s.cpu.flags.z ∧ t.cpu.flags.n = s.cpu.flags.n ∨
      ¬(i.mode = .rel ∨ (∃ m, i = .sta m ∨ i = .stx m ∨ i = .sty m) ∨ (∃ m, i = .jmp m) ∨
        (∃ a, i = .jsr a) ∨ (∃ op, i = .undef op) ∨
        i ∈ [.rts, .pha, .php, .txs, .clc, .sec, .cli, .sei, .cld, .sed, .clv, .nop, .brk]))

/-- The memory frame of every instruction (R55, R98, R99, R141): every byte of `cpu_mem` outside the
bytes it stores to, computed from its operand's address or its stack slots, reads as before; ROM under
a mapper plug-in is the hook's (R47). -/
def Obligations.MemoryFrame : Prop :=
  ∀ (i : Instr) (s t : State), s.cpuMem.wf = true → exec i s = .next t →
    ∀ a, a ∉ s.storedBytes i → (a < 0x8000 ∨ s.config.mapper = .default) →
      t.cpuMem.read a = s.cpuMem.read a

/-- The device frame of every instruction (R55, R56): one whose own accesses are all quiet leaves the
PPU registers, PPU memory, OAM, the controller port, the mapper and the free draws as they were. -/
def Obligations.DeviceFrame : Prop :=
  ∀ (i : Instr) (s t : State), exec i s = .next t → (∀ a ∈ s.accessed i, s.quiet i a) →
    t.ppu = s.ppu ∧ t.ppuMem = s.ppuMem ∧ t.oam = s.oam ∧ t.padStep = s.padStep ∧
    t.mapperState = s.mapperState ∧ t.config = s.config ∧ t.draws = s.draws

/-- Who writes the status register (R28): its low six bits never change, `VBL` is set only at frame
step 2 and `S0` only by the collision check of a scanline's step, in every step of the machine. -/
def Obligations.StatusBitSetters : Prop :=
  ∀ s t : State, step s = .next t →
    t.ppu.status &&& 0x3F = s.ppu.status &&& 0x3F ∧
    (t.ppu.status.getLsbD 7 = true → s.ppu.status.getLsbD 7 = true ∨ s.phase = .vblankStart) ∧
    (t.ppu.status.getLsbD 6 = true → s.ppu.status.getLsbD 6 = true ∨
      ∃ n, s.phase = .line n ∧ s.s0Hit n = true)

/-- Every step keeps every memory and cache in canonical form and within its size, `ppu_mem` free of
aliases, and the scanline within the standard's (R34 to R37, R59, R180). The canonical form and the
scanline's place in `phase` are the model's own: log 18, log 2. -/
def Obligations.StepKeepsCanonical : Prop :=
  ∀ s t : State, s.Canonical → step s = .next t → t.Canonical

/-- Every step keeps the four images of RAM equal, 0x3F00 equal to 0x3F10, and the nametables of a group
equal while `MIRRORING` cannot change (R44, R62, R63). -/
def Obligations.StepKeepsMirrors : Prop :=
  ∀ s t : State, s.Canonical → s.Mirrored → step s = .next t → t.Mirrored

/-- Every step keeps `spr0_line` true of exactly the rows where `spr0_cache` has a pixel (R36). -/
def Obligations.StepKeepsSpriteZeroLine : Prop :=
  ∀ s t : State, s.Canonical → s.video.SpriteZeroTracked → step s = .next t →
    t.video.SpriteZeroTracked

/-- The states that runs start from have the invariants: a machine with a loaded cartridge, right after
the start (R206 to R209), and also the state after power-on and the state after reset. That these two
have nothing loaded and the default mapping plugged in is the model's choice (log 10, log 11), and so is
the canonical form (log 18). -/
def Obligations.ResetHasInvariants : Prop :=
  (∀ (std : VideoStandard) (c : Cartridge) (s : State), bootState std c = some s →
    s.Canonical ∧ s.Mirrored ∧ s.video.SpriteZeroTracked ∧ s.ppu.status = 0 ∧ s.config.mapper = .default) ∧
  ∀ s, s = State.powerOn ∨ s = State.reset →
    s.Canonical ∧ s.Mirrored ∧ s.video.SpriteZeroTracked ∧ s.ppu.status = 0 ∧ s.config.mapper = .default

/-! ## Costs -/

/-- The cycle table (R213), by mnemonic and mode: the opcode byte of every well-formed instruction has
the cost that its access and its mode give, whether or not a page is crossed or a branch taken; OAM DMA
and `CpuReset` cost nothing. -/
def Obligations.CycleCosts : Prop :=
  (∀ (p : Params) (i : Instr), i.wf = true → cycles p ((encode i).headD 0) = i.cost p) ∧
  (∀ (s t : State) (d : Byte), s.oamDma d = .next t → t.cpu.budget = s.cpu.budget) ∧
  (∀ s : State, s.cpuReset.cpu.budget = s.cpu.budget) ∧
  State.reset.config.params.undefCycles = 1
end

