-- ==== Sys2Proof/Laws/Arith.lean ====
section
/-! SUPPORT. The arithmetic of the flag computations: what the bit formulas of R24, R106 and R108 say in
numbers. -/

namespace Sys2Proof.Machine

/-- Bit 7 is the sign (R24). -/
theorem signBit_eq (r : Byte) : r.getLsbD 7 = decide (128 ≤ r.toNat) := by
  have := r.isLt
  rw [BitVec.getLsbD, Nat.testBit_eq_decide_div_mod_eq]
  congr 1; rw [eq_iff_iff]; omega

theorem and_signBit (r : Byte) : (r &&& 0x80) ≠ 0 ↔ 128 ≤ r.toNat := by
  rw [← decide_eq_true_iff (p := 128 ≤ r.toNat), ← signBit_eq]
  revert r; decide

theorem eq_zero_iff (r : Byte) : (r == 0) = decide (r.toNat = 0) := by
  rw [Bool.eq_iff_iff]
  simp only [beq_iff_eq, ← BitVec.toNat_inj, decide_eq_true_eq]; rfl

theorem Flags.setNZ_eq (f : Flags) (r : Byte) : f.setNZ r = f.withNZ r := by
  rw [Flags.setNZ, Flags.withNZ, eq_zero_iff, signBit_eq]

theorem bitNat_eq (b : Bool) : b.toNat = bitNat b := by cases b <;> rfl

theorem bitNat_le (b : Bool) : bitNat b ≤ 1 := by cases b <;> decide

theorem addSum_eq (a b : Byte) (c : Bool) : addSum a b c = a.toNat + b.toNat + bitNat c := by
  rw [addSum, bitNat_eq]

theorem addResult_toNat (a b : Byte) (c : Bool) :
    (addResult a b c).toNat = (a.toNat + b.toNat + bitNat c) % 256 := by
  rw [addResult, addSum_eq, BitVec.toNat_ofNat]

/-- The overflow formula of R108: the signed sum does not fit in 8 bits (R106). -/
theorem overflow_iff (a b : Byte) (c : Bool) :
    ((a ^^^ addResult a b c) &&& (b ^^^ addResult a b c) &&& 0x80) ≠ 0 ↔
      (a.toInt + b.toInt + bitNat c < -128 ∨ 127 < a.toInt + b.toInt + bitNat c) := by
  have hx : ∀ x y : Byte, 128 ≤ (x ^^^ y).toNat ↔ ¬(128 ≤ x.toNat ↔ 128 ≤ y.toNat) := by
    intro x y
    have h := signBit_eq (x ^^^ y)
    rw [BitVec.getLsbD_xor, signBit_eq, signBit_eq] at h
    rw [← decide_eq_true_iff (p := 128 ≤ (x ^^^ y).toNat), ← h]
    by_cases h1 : 128 ≤ x.toNat <;> by_cases h2 : 128 ≤ y.toNat <;> simp [h1, h2]
  have ha : ∀ x y : Byte, 128 ≤ (x &&& y).toNat ↔ 128 ≤ x.toNat ∧ 128 ≤ y.toNat := by
    intro x y
    have h := signBit_eq (x &&& y)
    rw [BitVec.getLsbD_and, signBit_eq, signBit_eq] at h
    rw [← decide_eq_true_iff (p := 128 ≤ (x &&& y).toNat), ← h]
    simp
  rw [and_signBit, ha, hx, hx, addResult_toNat, BitVec.toInt_eq_toNat_cond,
    BitVec.toInt_eq_toNat_cond]
  have := a.isLt; have := b.isLt; have := bitNat_le c
  split_ifs <;> omega

end Sys2Proof.Machine
end

