-- ==== Sys2Proof/Laws/Cells.lean ====
section
/-! SUPPORT. The laws of cells in canonical form: what a read after a write gives, and that every
operation keeps the form and its bound. -/

namespace Sys2Proof.Machine

variable {w : Nat}

@[simp] theorem Cells.unlisted_eq : (Cells.unlisted : BitVec w) = 0#w := rfl

@[simp] theorem Cells.read_nil (k : Nat) : Cells.read ([] : Cells w) k = 0#w := rfl

/-- The canonical form of a byte memory is that of its cells. -/
@[simp] theorem Memory.wf_eq (m : Memory) : Memory.wf m = Cells.wf m := rfl

theorem Cells.read_cons (j : Nat) (b : BitVec w) (rest : Cells w) (k : Nat) :
    Cells.read ((j, b) :: rest) k = if j = k then b else Cells.read rest k := rfl

theorem Cells.wf_cons (j : Nat) (b : BitVec w) (rest : Cells w) :
    Cells.wf ((j, b) :: rest) = true ↔
      b ≠ 0#w ∧ (∀ c ∈ rest, j < c.1) ∧ Cells.wf rest = true := by
  simp [Cells.wf, and_assoc]

/-- An index below every listed one reads as an unlisted one. -/
theorem Cells.read_below {m : Cells w} {k : Nat} (h : ∀ c ∈ m, k < c.1) :
    Cells.read m k = 0#w := by
  induction m with
  | nil => rfl
  | cons c rest ih =>
    obtain ⟨j, b⟩ := c
    have hj : k < j := h (j, b) (by simp)
    rw [Cells.read_cons, if_neg (by omega)]
    exact ih fun c hc => h c (by simp [hc])

theorem Cells.read_consCell {m : Cells w} {j : Nat} (h : ∀ c ∈ m, j < c.1) (v : BitVec w) (k : Nat) :
    Cells.read (Cells.cons j v m) k = if j = k then v else Cells.read m k := by
  unfold Cells.cons
  split
  · rename_i hv
    split
    · subst j; rw [Cells.read_below h, hv]; rfl
    · rfl
  · rfl

theorem Cells.mem_consCell {m : Cells w} {j : Nat} {v : BitVec w} {c : Nat × BitVec w}
    (h : c ∈ Cells.cons j v m) : c.1 = j ∨ c ∈ m := by
  unfold Cells.cons at h
  split at h
  · exact .inr h
  · rcases List.mem_cons.1 h with rfl | h
    · exact .inl rfl
    · exact .inr h

/-- Every cell of a written list is the written one or was there. -/
theorem Cells.mem_write {m : Cells w} {k : Nat} {v : BitVec w} {c : Nat × BitVec w}
    (h : c ∈ Cells.write m k v) : c.1 = k ∨ c ∈ m := by
  induction m with
  | nil => exact Cells.mem_consCell h
  | cons d rest ih =>
    obtain ⟨j, b⟩ := d
    simp only [Cells.write] at h
    split at h
    · exact Cells.mem_consCell h
    · split at h
      · exact (Cells.mem_consCell h).imp id (List.mem_cons_of_mem _)
      · rcases List.mem_cons.1 h with rfl | h
        · exact .inr (by simp)
        · exact (ih h).imp id (List.mem_cons_of_mem _)

theorem Cells.consCell_wf {m : Cells w} {k : Nat} (hm : Cells.wf m = true) (h : ∀ c ∈ m, k < c.1)
    (v : BitVec w) : Cells.wf (Cells.cons k v m) = true := by
  unfold Cells.cons
  split
  · exact hm
  · rename_i hv
    exact (Cells.wf_cons ..).2 ⟨hv, h, hm⟩

/-- A write keeps the canonical form. -/
theorem Cells.write_wf {m : Cells w} (hm : Cells.wf m = true) (k : Nat) (v : BitVec w) :
    Cells.wf (Cells.write m k v) = true := by
  induction m with
  | nil => exact Cells.consCell_wf rfl (by simp) v
  | cons c rest ih =>
    obtain ⟨j, b⟩ := c
    obtain ⟨hb, hlt, hrest⟩ := (Cells.wf_cons ..).1 hm
    simp only [Cells.write]
    split
    · rename_i hk
      refine Cells.consCell_wf hm (fun c hc => ?_) v
      rcases List.mem_cons.1 hc with rfl | hc
      · exact hk
      · exact hk.trans (hlt c hc)
    · split
      · rename_i hk; subst hk; exact Cells.consCell_wf hrest hlt v
      · refine (Cells.wf_cons ..).2 ⟨hb, fun c hc => ?_, ih hrest⟩
        rcases Cells.mem_write hc with h | h
        · omega
        · exact hlt c h

/-- A read after a write. -/
theorem Cells.read_write {m : Cells w} (hm : Cells.wf m = true) (k : Nat) (v : BitVec w) (k' : Nat) :
    Cells.read (Cells.write m k v) k' = if k = k' then v else Cells.read m k' := by
  induction m with
  | nil => exact Cells.read_consCell (by simp) v k'
  | cons c rest ih =>
    obtain ⟨j, b⟩ := c
    obtain ⟨-, hlt, hrest⟩ := (Cells.wf_cons ..).1 hm
    simp only [Cells.write]
    split
    · rename_i hk
      refine Cells.read_consCell (fun c hc => ?_) v k'
      rcases List.mem_cons.1 hc with rfl | hc
      · exact hk
      · exact hk.trans (hlt c hc)
    · split
      · rename_i hk; subst hk
        rw [Cells.read_consCell hlt, Cells.read_cons]
        split <;> simp_all
      · rename_i h1 h2
        rw [Cells.read_cons, Cells.read_cons, ih hrest]
        by_cases hj : j = k'
        · rw [if_pos hj, if_pos hj, if_neg (by omega)]
        · rw [if_neg hj, if_neg hj]

theorem Cells.read_write_self {m : Cells w} (hm : Cells.wf m = true) (k : Nat) (v : BitVec w) :
    Cells.read (Cells.write m k v) k = v := by
  rw [Cells.read_write hm, if_pos rfl]

theorem Cells.read_write_ne {m : Cells w} (hm : Cells.wf m = true) {k k' : Nat} (h : k ≠ k')
    (v : BitVec w) : Cells.read (Cells.write m k v) k' = Cells.read m k' := by
  rw [Cells.read_write hm, if_neg h]

/-- A write below the bound keeps the bound. -/
theorem Cells.write_within {n : Nat} {m : Cells w} (hm : Cells.within n m = true) {k : Nat}
    (hk : k < n) (v : BitVec w) : Cells.within n (Cells.write m k v) = true := by
  simp only [Cells.within, List.all_eq_true, decide_eq_true_eq] at hm ⊢
  intro c hc
  rcases Cells.mem_write hc with h | h
  · omega
  · exact hm c h

/-- Nothing is listed at or above the bound. -/
theorem Cells.read_beyond {n : Nat} {m : Cells w} (hm : Cells.within n m = true) {k : Nat}
    (hk : n ≤ k) : Cells.read m k = 0#w := by
  induction m with
  | nil => rfl
  | cons c rest ih =>
    obtain ⟨j, b⟩ := c
    simp only [Cells.within, List.all_cons, Bool.and_eq_true, decide_eq_true_eq] at hm
    rw [Cells.read_cons, if_neg (by omega)]
    exact ih hm.2

/-- Filling keeps the canonical form. -/
theorem Cells.fill_wf {m : Cells w} (hm : Cells.wf m = true) (base n : Nat) (f : Nat → BitVec w) :
    Cells.wf (Cells.fill m base n f) = true := by
  induction n with
  | zero => exact hm
  | succ n ih => exact Cells.write_wf ih _ _

/-- A read after a fill. -/
theorem Cells.read_fill {m : Cells w} (hm : Cells.wf m = true) (base n : Nat) (f : Nat → BitVec w)
    (k : Nat) :
    Cells.read (Cells.fill m base n f) k =
      if base ≤ k ∧ k < base + n then f (k - base) else Cells.read m k := by
  induction n with
  | zero => rw [if_neg (by omega)]; rfl
  | succ n ih =>
    rw [Cells.fill, Cells.read_write (Cells.fill_wf hm base n f), ih]
    by_cases h : base + n = k
    · subst h; simp
    · rw [if_neg h]
      by_cases h' : base ≤ k ∧ k < base + n
      · rw [if_pos h', if_pos (by omega)]
      · rw [if_neg h', if_neg (by omega)]

/-- Filling below the bound keeps the bound. -/
theorem Cells.fill_within {b : Nat} {m : Cells w} (hm : Cells.within b m = true) {base n : Nat}
    (h : base + n ≤ b) (f : Nat → BitVec w) : Cells.within b (Cells.fill m base n f) = true := by
  induction n with
  | zero => exact hm
  | succ n ih => exact Cells.write_within (ih (by omega)) (by omega) _

/-- A write of several cells in turn keeps the canonical form. -/
theorem Cells.foldl_write_wf {α : Type} (l : List α) (key : α → Nat) (val : α → BitVec w)
    {m : Cells w} (hm : Cells.wf m = true) :
    Cells.wf (l.foldl (fun m c => Cells.write m (key c) (val c)) m) = true := by
  induction l generalizing m with
  | nil => exact hm
  | cons c l ih => exact ih (Cells.write_wf hm _ _)

/-- A write of several cells in turn keeps the bound. -/
theorem Cells.foldl_write_within {α : Type} {n : Nat} (l : List α) (key : α → Nat)
    (val : α → BitVec w) (hk : ∀ c ∈ l, key c < n) {m : Cells w} (hm : Cells.within n m = true) :
    Cells.within n (l.foldl (fun m c => Cells.write m (key c) (val c)) m) = true := by
  induction l generalizing m with
  | nil => exact hm
  | cons c l ih =>
    exact ih (fun c hc => hk c (by simp [hc])) (Cells.write_within hm (hk c (by simp)) _)

/-- A cell that none of several writes names reads as before. -/
theorem Cells.read_foldl_write_ne {α : Type} (l : List α) (key : α → Nat) (val : α → BitVec w)
    {k : Nat} (hk : ∀ c ∈ l, key c ≠ k) {m : Cells w} (hm : Cells.wf m = true) :
    Cells.read (l.foldl (fun m c => Cells.write m (key c) (val c)) m) k = Cells.read m k := by
  induction l generalizing m with
  | nil => rfl
  | cons c l ih =>
    rw [List.foldl_cons, ih (fun c hc => hk c (by simp [hc])) (Cells.write_wf hm _ _),
      Cells.read_write_ne hm (hk c (by simp))]

/-- The same byte written to several indexes: each of them reads it, every other as before. -/
theorem Cells.read_foldl_write_const (l : List Nat) (v : BitVec w) (k : Nat) {m : Cells w}
    (hm : Cells.wf m = true) :
    Cells.read (l.foldl (fun m j => Cells.write m j v) m) k =
      if k ∈ l then v else Cells.read m k := by
  induction l generalizing m with
  | nil => simp
  | cons j l ih =>
    rw [List.foldl_cons, ih (Cells.write_wf hm _ _), Cells.read_write hm]
    by_cases h : k ∈ l
    · simp [h]
    · by_cases hj : j = k
      · subst hj; simp
      · have : k ≠ j := fun h => hj h.symm
        simp [h, hj, this]

end Sys2Proof.Machine
end

