-- ==== Sys2Proof/Laws/State.lean ====
section
/-! SUPPORT. One lemma per field per named update of the state, so that no proof unfolds a record
update. -/

namespace Sys2Proof.Machine

variable (s : State)

/-! ### ramWrite: a RAM write -/

@[simp] theorem State.ramWrite_cpu (a : Addr) (v : Byte) : (s.ramWrite a v).cpu = s.cpu := rfl
@[simp] theorem State.ramWrite_ppu (a : Addr) (v : Byte) : (s.ramWrite a v).ppu = s.ppu := rfl
@[simp] theorem State.ramWrite_video (a : Addr) (v : Byte) : (s.ramWrite a v).video = s.video := rfl
@[simp] theorem State.ramWrite_cpuMem (a : Addr) (v : Byte) :
    (s.ramWrite a v).cpuMem = ramStore s.cpuMem a v := rfl
@[simp] theorem State.ramWrite_ppuMem (a : Addr) (v : Byte) : (s.ramWrite a v).ppuMem = s.ppuMem :=
  rfl
@[simp] theorem State.ramWrite_oam (a : Addr) (v : Byte) : (s.ramWrite a v).oam = s.oam := rfl
@[simp] theorem State.ramWrite_buttons (a : Addr) (v : Byte) : (s.ramWrite a v).buttons = s.buttons :=
  rfl
@[simp] theorem State.ramWrite_padStep (a : Addr) (v : Byte) : (s.ramWrite a v).padStep = s.padStep :=
  rfl
@[simp] theorem State.ramWrite_config (a : Addr) (v : Byte) : (s.ramWrite a v).config = s.config :=
  rfl
@[simp] theorem State.ramWrite_mapperState (a : Addr) (v : Byte) :
    (s.ramWrite a v).mapperState = s.mapperState := rfl
@[simp] theorem State.ramWrite_running (a : Addr) (v : Byte) : (s.ramWrite a v).running = s.running :=
  rfl
@[simp] theorem State.ramWrite_paused (a : Addr) (v : Byte) : (s.ramWrite a v).paused = s.paused :=
  rfl
@[simp] theorem State.ramWrite_phase (a : Addr) (v : Byte) : (s.ramWrite a v).phase = s.phase := rfl
@[simp] theorem State.ramWrite_draws (a : Addr) (v : Byte) : (s.ramWrite a v).draws = s.draws := rfl

/-! ### cellWrite: a plain-cell write -/

@[simp] theorem State.cellWrite_cpu (a : Addr) (v : Byte) : (s.cellWrite a v).cpu = s.cpu := rfl
@[simp] theorem State.cellWrite_ppu (a : Addr) (v : Byte) : (s.cellWrite a v).ppu = s.ppu := rfl
@[simp] theorem State.cellWrite_video (a : Addr) (v : Byte) : (s.cellWrite a v).video = s.video :=
  rfl
@[simp] theorem State.cellWrite_cpuMem (a : Addr) (v : Byte) :
    (s.cellWrite a v).cpuMem = s.cpuMem.write a.toNat v := rfl
@[simp] theorem State.cellWrite_ppuMem (a : Addr) (v : Byte) : (s.cellWrite a v).ppuMem = s.ppuMem :=
  rfl
@[simp] theorem State.cellWrite_oam (a : Addr) (v : Byte) : (s.cellWrite a v).oam = s.oam := rfl
@[simp] theorem State.cellWrite_buttons (a : Addr) (v : Byte) :
    (s.cellWrite a v).buttons = s.buttons := rfl
@[simp] theorem State.cellWrite_padStep (a : Addr) (v : Byte) :
    (s.cellWrite a v).padStep = s.padStep := rfl
@[simp] theorem State.cellWrite_config (a : Addr) (v : Byte) : (s.cellWrite a v).config = s.config :=
  rfl
@[simp] theorem State.cellWrite_mapperState (a : Addr) (v : Byte) :
    (s.cellWrite a v).mapperState = s.mapperState := rfl
@[simp] theorem State.cellWrite_running (a : Addr) (v : Byte) :
    (s.cellWrite a v).running = s.running := rfl
@[simp] theorem State.cellWrite_paused (a : Addr) (v : Byte) : (s.cellWrite a v).paused = s.paused :=
  rfl
@[simp] theorem State.cellWrite_phase (a : Addr) (v : Byte) : (s.cellWrite a v).phase = s.phase :=
  rfl
@[simp] theorem State.cellWrite_draws (a : Addr) (v : Byte) : (s.cellWrite a v).draws = s.draws :=
  rfl

/-! ### ppuWrite: a PPU memory write -/

@[simp] theorem State.ppuWrite_cpu (a : PpuAddr) (v : Byte) : (s.ppuWrite a v).cpu = s.cpu := rfl
@[simp] theorem State.ppuWrite_ppu (a : PpuAddr) (v : Byte) : (s.ppuWrite a v).ppu = s.ppu := rfl
@[simp] theorem State.ppuWrite_video (a : PpuAddr) (v : Byte) : (s.ppuWrite a v).video = s.video :=
  rfl
@[simp] theorem State.ppuWrite_cpuMem (a : PpuAddr) (v : Byte) : (s.ppuWrite a v).cpuMem = s.cpuMem :=
  rfl
@[simp] theorem State.ppuWrite_ppuMem (a : PpuAddr) (v : Byte) :
    (s.ppuWrite a v).ppuMem = ppuStore s.ppuMem s.config.mirroring a v := rfl
@[simp] theorem State.ppuWrite_oam (a : PpuAddr) (v : Byte) : (s.ppuWrite a v).oam = s.oam := rfl
@[simp] theorem State.ppuWrite_buttons (a : PpuAddr) (v : Byte) :
    (s.ppuWrite a v).buttons = s.buttons := rfl
@[simp] theorem State.ppuWrite_padStep (a : PpuAddr) (v : Byte) :
    (s.ppuWrite a v).padStep = s.padStep := rfl
@[simp] theorem State.ppuWrite_config (a : PpuAddr) (v : Byte) : (s.ppuWrite a v).config = s.config :=
  rfl
@[simp] theorem State.ppuWrite_mapperState (a : PpuAddr) (v : Byte) :
    (s.ppuWrite a v).mapperState = s.mapperState := rfl
@[simp] theorem State.ppuWrite_running (a : PpuAddr) (v : Byte) :
    (s.ppuWrite a v).running = s.running := rfl
@[simp] theorem State.ppuWrite_paused (a : PpuAddr) (v : Byte) : (s.ppuWrite a v).paused = s.paused :=
  rfl
@[simp] theorem State.ppuWrite_phase (a : PpuAddr) (v : Byte) : (s.ppuWrite a v).phase = s.phase :=
  rfl
@[simp] theorem State.ppuWrite_draws (a : PpuAddr) (v : Byte) : (s.ppuWrite a v).draws = s.draws :=
  rfl

/-! ### push: a push -/

@[simp] theorem State.push_cpu (v : Byte) : (s.push v).cpu = { s.cpu with sp := s.cpu.sp - 1 } :=
  rfl
@[simp] theorem State.push_ppu (v : Byte) : (s.push v).ppu = s.ppu := rfl
@[simp] theorem State.push_video (v : Byte) : (s.push v).video = s.video := rfl
@[simp] theorem State.push_cpuMem (v : Byte) :
    (s.push v).cpuMem = ramStore s.cpuMem (stackAddr s.cpu.sp) v := rfl
@[simp] theorem State.push_ppuMem (v : Byte) : (s.push v).ppuMem = s.ppuMem := rfl
@[simp] theorem State.push_oam (v : Byte) : (s.push v).oam = s.oam := rfl
@[simp] theorem State.push_buttons (v : Byte) : (s.push v).buttons = s.buttons := rfl
@[simp] theorem State.push_padStep (v : Byte) : (s.push v).padStep = s.padStep := rfl
@[simp] theorem State.push_config (v : Byte) : (s.push v).config = s.config := rfl
@[simp] theorem State.push_mapperState (v : Byte) : (s.push v).mapperState = s.mapperState := rfl
@[simp] theorem State.push_running (v : Byte) : (s.push v).running = s.running := rfl
@[simp] theorem State.push_paused (v : Byte) : (s.push v).paused = s.paused := rfl
@[simp] theorem State.push_phase (v : Byte) : (s.push v).phase = s.phase := rfl
@[simp] theorem State.push_draws (v : Byte) : (s.push v).draws = s.draws := rfl

/-! ### mapCpu: a change of the CPU -/

@[simp] theorem State.mapCpu_cpu (f : Cpu → Cpu) : (s.mapCpu f).cpu = f s.cpu := rfl
@[simp] theorem State.mapCpu_ppu (f : Cpu → Cpu) : (s.mapCpu f).ppu = s.ppu := rfl
@[simp] theorem State.mapCpu_video (f : Cpu → Cpu) : (s.mapCpu f).video = s.video := rfl
@[simp] theorem State.mapCpu_cpuMem (f : Cpu → Cpu) : (s.mapCpu f).cpuMem = s.cpuMem := rfl
@[simp] theorem State.mapCpu_ppuMem (f : Cpu → Cpu) : (s.mapCpu f).ppuMem = s.ppuMem := rfl
@[simp] theorem State.mapCpu_oam (f : Cpu → Cpu) : (s.mapCpu f).oam = s.oam := rfl
@[simp] theorem State.mapCpu_buttons (f : Cpu → Cpu) : (s.mapCpu f).buttons = s.buttons := rfl
@[simp] theorem State.mapCpu_padStep (f : Cpu → Cpu) : (s.mapCpu f).padStep = s.padStep := rfl
@[simp] theorem State.mapCpu_config (f : Cpu → Cpu) : (s.mapCpu f).config = s.config := rfl
@[simp] theorem State.mapCpu_mapperState (f : Cpu → Cpu) : (s.mapCpu f).mapperState = s.mapperState :=
  rfl
@[simp] theorem State.mapCpu_running (f : Cpu → Cpu) : (s.mapCpu f).running = s.running := rfl
@[simp] theorem State.mapCpu_paused (f : Cpu → Cpu) : (s.mapCpu f).paused = s.paused := rfl
@[simp] theorem State.mapCpu_phase (f : Cpu → Cpu) : (s.mapCpu f).phase = s.phase := rfl
@[simp] theorem State.mapCpu_draws (f : Cpu → Cpu) : (s.mapCpu f).draws = s.draws := rfl

/-! ### withCpu: a replaced CPU -/

@[simp] theorem State.withCpu_cpu (c : Cpu) : (s.withCpu c).cpu = c := rfl
@[simp] theorem State.withCpu_ppu (c : Cpu) : (s.withCpu c).ppu = s.ppu := rfl
@[simp] theorem State.withCpu_video (c : Cpu) : (s.withCpu c).video = s.video := rfl
@[simp] theorem State.withCpu_cpuMem (c : Cpu) : (s.withCpu c).cpuMem = s.cpuMem := rfl
@[simp] theorem State.withCpu_ppuMem (c : Cpu) : (s.withCpu c).ppuMem = s.ppuMem := rfl
@[simp] theorem State.withCpu_oam (c : Cpu) : (s.withCpu c).oam = s.oam := rfl
@[simp] theorem State.withCpu_buttons (c : Cpu) : (s.withCpu c).buttons = s.buttons := rfl
@[simp] theorem State.withCpu_padStep (c : Cpu) : (s.withCpu c).padStep = s.padStep := rfl
@[simp] theorem State.withCpu_config (c : Cpu) : (s.withCpu c).config = s.config := rfl
@[simp] theorem State.withCpu_mapperState (c : Cpu) : (s.withCpu c).mapperState = s.mapperState :=
  rfl
@[simp] theorem State.withCpu_running (c : Cpu) : (s.withCpu c).running = s.running := rfl
@[simp] theorem State.withCpu_paused (c : Cpu) : (s.withCpu c).paused = s.paused := rfl
@[simp] theorem State.withCpu_phase (c : Cpu) : (s.withCpu c).phase = s.phase := rfl
@[simp] theorem State.withCpu_draws (c : Cpu) : (s.withCpu c).draws = s.draws := rfl

/-! ### charge: a charge -/

@[simp] theorem State.charge_cpu (n : Nat) :
    (s.charge n).cpu = { s.cpu with budget := s.cpu.budget - n } := rfl
@[simp] theorem State.charge_ppu (n : Nat) : (s.charge n).ppu = s.ppu := rfl
@[simp] theorem State.charge_video (n : Nat) : (s.charge n).video = s.video := rfl
@[simp] theorem State.charge_cpuMem (n : Nat) : (s.charge n).cpuMem = s.cpuMem := rfl
@[simp] theorem State.charge_ppuMem (n : Nat) : (s.charge n).ppuMem = s.ppuMem := rfl
@[simp] theorem State.charge_oam (n : Nat) : (s.charge n).oam = s.oam := rfl
@[simp] theorem State.charge_buttons (n : Nat) : (s.charge n).buttons = s.buttons := rfl
@[simp] theorem State.charge_padStep (n : Nat) : (s.charge n).padStep = s.padStep := rfl
@[simp] theorem State.charge_config (n : Nat) : (s.charge n).config = s.config := rfl
@[simp] theorem State.charge_mapperState (n : Nat) : (s.charge n).mapperState = s.mapperState := rfl
@[simp] theorem State.charge_running (n : Nat) : (s.charge n).running = s.running := rfl
@[simp] theorem State.charge_paused (n : Nat) : (s.charge n).paused = s.paused := rfl
@[simp] theorem State.charge_phase (n : Nat) : (s.charge n).phase = s.phase := rfl
@[simp] theorem State.charge_draws (n : Nat) : (s.charge n).draws = s.draws := rfl

/-! ### goto: a move in the schedule -/

@[simp] theorem State.goto_cpu (p : Phase) : (s.goto p).cpu = s.cpu := rfl
@[simp] theorem State.goto_ppu (p : Phase) : (s.goto p).ppu = s.ppu := rfl
@[simp] theorem State.goto_video (p : Phase) : (s.goto p).video = s.video := rfl
@[simp] theorem State.goto_cpuMem (p : Phase) : (s.goto p).cpuMem = s.cpuMem := rfl
@[simp] theorem State.goto_ppuMem (p : Phase) : (s.goto p).ppuMem = s.ppuMem := rfl
@[simp] theorem State.goto_oam (p : Phase) : (s.goto p).oam = s.oam := rfl
@[simp] theorem State.goto_buttons (p : Phase) : (s.goto p).buttons = s.buttons := rfl
@[simp] theorem State.goto_padStep (p : Phase) : (s.goto p).padStep = s.padStep := rfl
@[simp] theorem State.goto_config (p : Phase) : (s.goto p).config = s.config := rfl
@[simp] theorem State.goto_mapperState (p : Phase) : (s.goto p).mapperState = s.mapperState := rfl
@[simp] theorem State.goto_running (p : Phase) : (s.goto p).running = s.running := rfl
@[simp] theorem State.goto_paused (p : Phase) : (s.goto p).paused = s.paused := rfl
@[simp] theorem State.goto_phase (p : Phase) : (s.goto p).phase = p := rfl
@[simp] theorem State.goto_draws (p : Phase) : (s.goto p).draws = s.draws := rfl

/-! ### oamDataWrite: a write to 0x2004 -/

@[simp] theorem State.oamDataWrite_cpu (d : Byte) : (s.oamDataWrite d).cpu = s.cpu := rfl
@[simp] theorem State.oamDataWrite_ppu (d : Byte) :
    (s.oamDataWrite d).ppu = { s.ppu with oamAddr := s.ppu.oamAddr + 1 } := rfl
@[simp] theorem State.oamDataWrite_video (d : Byte) : (s.oamDataWrite d).video = s.video := rfl
@[simp] theorem State.oamDataWrite_cpuMem (d : Byte) : (s.oamDataWrite d).cpuMem = s.cpuMem := rfl
@[simp] theorem State.oamDataWrite_ppuMem (d : Byte) : (s.oamDataWrite d).ppuMem = s.ppuMem := rfl
@[simp] theorem State.oamDataWrite_oam (d : Byte) :
    (s.oamDataWrite d).oam = s.oam.write s.ppu.oamAddr.toNat d := rfl
@[simp] theorem State.oamDataWrite_buttons (d : Byte) : (s.oamDataWrite d).buttons = s.buttons :=
  rfl
@[simp] theorem State.oamDataWrite_padStep (d : Byte) : (s.oamDataWrite d).padStep = s.padStep :=
  rfl
@[simp] theorem State.oamDataWrite_config (d : Byte) : (s.oamDataWrite d).config = s.config := rfl
@[simp] theorem State.oamDataWrite_mapperState (d : Byte) :
    (s.oamDataWrite d).mapperState = s.mapperState := rfl
@[simp] theorem State.oamDataWrite_running (d : Byte) : (s.oamDataWrite d).running = s.running :=
  rfl
@[simp] theorem State.oamDataWrite_paused (d : Byte) : (s.oamDataWrite d).paused = s.paused := rfl
@[simp] theorem State.oamDataWrite_phase (d : Byte) : (s.oamDataWrite d).phase = s.phase := rfl
@[simp] theorem State.oamDataWrite_draws (d : Byte) : (s.oamDataWrite d).draws = s.draws := rfl

/-! ### dataWrite: a write to 0x2007 -/

@[simp] theorem State.dataWrite_cpu (d : Byte) : (s.dataWrite d).cpu = s.cpu := rfl
@[simp] theorem State.dataWrite_ppu (d : Byte) :
    (s.dataWrite d).ppu = { s.ppu with v := s.ppu.v + s.ppu.inc } := rfl
@[simp] theorem State.dataWrite_video (d : Byte) : (s.dataWrite d).video = s.video := rfl
@[simp] theorem State.dataWrite_cpuMem (d : Byte) : (s.dataWrite d).cpuMem = s.cpuMem := rfl
@[simp] theorem State.dataWrite_ppuMem (d : Byte) :
    (s.dataWrite d).ppuMem = ppuStore s.ppuMem s.config.mirroring (s.ppu.v.setWidth 14) d := rfl
@[simp] theorem State.dataWrite_oam (d : Byte) : (s.dataWrite d).oam = s.oam := rfl
@[simp] theorem State.dataWrite_buttons (d : Byte) : (s.dataWrite d).buttons = s.buttons := rfl
@[simp] theorem State.dataWrite_padStep (d : Byte) : (s.dataWrite d).padStep = s.padStep := rfl
@[simp] theorem State.dataWrite_config (d : Byte) : (s.dataWrite d).config = s.config := rfl
@[simp] theorem State.dataWrite_mapperState (d : Byte) : (s.dataWrite d).mapperState = s.mapperState :=
  rfl
@[simp] theorem State.dataWrite_running (d : Byte) : (s.dataWrite d).running = s.running := rfl
@[simp] theorem State.dataWrite_paused (d : Byte) : (s.dataWrite d).paused = s.paused := rfl
@[simp] theorem State.dataWrite_phase (d : Byte) : (s.dataWrite d).phase = s.phase := rfl
@[simp] theorem State.dataWrite_draws (d : Byte) : (s.dataWrite d).draws = s.draws := rfl

/-! ### padWrite: a write to 0x4016 -/

@[simp] theorem State.padWrite_cpu : s.padWrite.cpu = s.cpu := rfl
@[simp] theorem State.padWrite_ppu : s.padWrite.ppu = s.ppu := rfl
@[simp] theorem State.padWrite_video : s.padWrite.video = s.video := rfl
@[simp] theorem State.padWrite_cpuMem : s.padWrite.cpuMem = s.cpuMem := rfl
@[simp] theorem State.padWrite_ppuMem : s.padWrite.ppuMem = s.ppuMem := rfl
@[simp] theorem State.padWrite_oam : s.padWrite.oam = s.oam := rfl
@[simp] theorem State.padWrite_buttons : s.padWrite.buttons = s.buttons := rfl
@[simp] theorem State.padWrite_padStep : s.padWrite.padStep = 0 := rfl
@[simp] theorem State.padWrite_config : s.padWrite.config = s.config := rfl
@[simp] theorem State.padWrite_mapperState : s.padWrite.mapperState = s.mapperState := rfl
@[simp] theorem State.padWrite_running : s.padWrite.running = s.running := rfl
@[simp] theorem State.padWrite_paused : s.padWrite.paused = s.paused := rfl
@[simp] theorem State.padWrite_phase : s.padWrite.phase = s.phase := rfl
@[simp] theorem State.padWrite_draws : s.padWrite.draws = s.draws := rfl

/-! ### applyMapper: a plug-in's effect -/

@[simp] theorem State.applyMapper_cpu (e : MapperEffect) : (s.applyMapper e).cpu = s.cpu := rfl
@[simp] theorem State.applyMapper_ppu (e : MapperEffect) : (s.applyMapper e).ppu = s.ppu := rfl
@[simp] theorem State.applyMapper_video (e : MapperEffect) : (s.applyMapper e).video = s.video :=
  rfl
@[simp] theorem State.applyMapper_cpuMem (e : MapperEffect) :
    (s.applyMapper e).cpuMem = writePrg s.cpuMem e.prg := rfl
@[simp] theorem State.applyMapper_ppuMem (e : MapperEffect) :
    (s.applyMapper e).ppuMem = writeChr s.ppuMem e.chr := rfl
@[simp] theorem State.applyMapper_oam (e : MapperEffect) : (s.applyMapper e).oam = s.oam := rfl
@[simp] theorem State.applyMapper_buttons (e : MapperEffect) : (s.applyMapper e).buttons = s.buttons :=
  rfl
@[simp] theorem State.applyMapper_padStep (e : MapperEffect) : (s.applyMapper e).padStep = s.padStep :=
  rfl
@[simp] theorem State.applyMapper_config (e : MapperEffect) :
    (s.applyMapper e).config = { s.config with mirroring := e.mirroring.getD s.config.mirroring } := rfl
@[simp] theorem State.applyMapper_mapperState (e : MapperEffect) :
    (s.applyMapper e).mapperState = e.state := rfl
@[simp] theorem State.applyMapper_running (e : MapperEffect) : (s.applyMapper e).running = s.running :=
  rfl
@[simp] theorem State.applyMapper_paused (e : MapperEffect) : (s.applyMapper e).paused = s.paused :=
  rfl
@[simp] theorem State.applyMapper_phase (e : MapperEffect) : (s.applyMapper e).phase = s.phase :=
  rfl
@[simp] theorem State.applyMapper_draws (e : MapperEffect) : (s.applyMapper e).draws = s.draws :=
  rfl

end Sys2Proof.Machine
end

