-- ==== Sys2Proof/Laws/Ops.lean ====
section
/-! SUPPORT. What the memory map, the stack and the operand patterns can do, said once: the regions of a
read and a write, the frame of each, and that the accesses the model makes directly are the map's own
(log 17). -/

namespace Sys2Proof.Machine

/-! ### Addresses -/

theorem stackAddr_toNat (sp : Byte) : (stackAddr sp).toNat = 0x100 + sp.toNat := by
  unfold stackAddr; bv_omega

theorem stackAddr_lt (sp : Byte) : (stackAddr sp).toNat < 0x2000 := by
  rw [stackAddr_toNat]; omega

theorem Addr.lt_iff (a : Addr) (n : Nat) (h : n < 65536) : a < BitVec.ofNat 16 n ↔ a.toNat < n := by
  rw [BitVec.lt_def, BitVec.toNat_ofNat, Nat.mod_eq_of_lt (by omega)]

theorem Addr.eq_iff (a : Addr) (n : Nat) (h : n < 65536) : a = BitVec.ofNat 16 n ↔ a.toNat = n := by
  rw [← BitVec.toNat_inj, BitVec.toNat_ofNat, Nat.mod_eq_of_lt (by omega)]

theorem operand16_toNat (l h : Byte) : (operand16 l h).toNat = h.toNat * 256 + l.toNat := by
  have : l.toNat < 2 ^ 8 := l.isLt
  rw [operand16, BitVec.toNat_append, ← Nat.shiftLeft_add_eq_or_of_lt this, Nat.shiftLeft_eq]

theorem operand16_bytes (a : Addr) : operand16 (loByte a) (hiByte a) = a := by
  apply BitVec.eq_of_toNat_eq
  rw [operand16_toNat]
  simp only [loByte, hiByte, BitVec.extractLsb'_toNat, Nat.shiftRight_eq_div_pow]
  omega

/-- The second address of the pointer of `JMP (p)`, with numbers (R95). -/
theorem pointerHigh_toNat (wrap : Bool) (p : Addr) :
    (pointerHigh wrap p).toNat =
      if wrap = true then p.toNat / 0x100 * 0x100 + (p.toNat + 1) % 0x100
      else (p.toNat + 1) % 0x10000 := by
  unfold pointerHigh
  split
  · have h1 : p &&& (0xFF00 : Addr) = (p >>> 8) <<< 8 := by
      apply BitVec.eq_of_getLsbD_eq
      intro i hi
      interval_cases i <;> simp
    have h2 : ((p + 1) &&& 0x00FF).toNat = (p.toNat + 1) % 0x100 := by
      rw [BitVec.toNat_and, BitVec.toNat_add]
      have := Nat.and_two_pow_sub_one_eq_mod ((p.toNat + 1) % 2 ^ 16) 8
      simp only [BitVec.reduceToNat] at this ⊢
      norm_num at this ⊢
      rw [this]
    have h3 : (p &&& 0xFF00).toNat = (p.toNat / 0x100) <<< 8 := by
      rw [h1]; simp [Nat.shiftRight_eq_div_pow, Nat.shiftLeft_eq]; omega
    rw [BitVec.toNat_or, h2, h3, ← Nat.shiftLeft_add_eq_or_of_lt (by omega), Nat.shiftLeft_eq]
  · rw [BitVec.toNat_add]; rfl

theorem plainAddr_iff (a : Addr) :
    plainAddr a = true ↔ (a.toNat < 0x2000 ∨ 0x4000 ≤ a.toNat) ∧ a.toNat ≠ 0x4016 := by
  have h1 : (0x2000 ≤ a) ↔ 0x2000 ≤ a.toNat := by rw [BitVec.le_def]; rfl
  have h2 : (a < 0x4000) ↔ a.toNat < 0x4000 :=
    Addr.lt_iff a 0x4000 (by omega)
  have h3 : (a = 0x4016) ↔ a.toNat = 0x4016 :=
    Addr.eq_iff a 0x4016 (by omega)
  simp only [plainAddr, Bool.not_eq_true', Bool.or_eq_false_iff, decide_eq_false_iff_not, h1, h2,
    beq_eq_false_iff_ne, ne_eq, h3]
  omega

/-! ### Reads -/

/-- The regions of `MemRead` (R48). -/
theorem State.memRead_cases (s : State) (a : Addr) :
    s.memRead a = if a.toNat < 0x2000 then (s.cpuMem.read a.toNat, s)
      else if a.toNat < 0x4000 then s.ppuRegRead (BitVec.ofNat 3 (a.toNat % 8))
      else if a.toNat = 0x4016 then s.padRead
      else (s.cpuMem.read a.toNat, s) := by
  have h1 : (a < 0x2000) ↔ a.toNat < 0x2000 :=
    Addr.lt_iff a 0x2000 (by omega)
  have h2 : (a < 0x4000) ↔ a.toNat < 0x4000 :=
    Addr.lt_iff a 0x4000 (by omega)
  have h3 : (a = 0x4016) ↔ a.toNat = 0x4016 :=
    Addr.eq_iff a 0x4016 (by omega)
  have h4 : a.setWidth 3 = BitVec.ofNat 3 (a.toNat % 8) := by
    apply BitVec.eq_of_toNat_eq; simp
  simp only [State.memRead, h1, h2, h3, h4, State.peek]

/-- A read at a plain address (R56). -/
theorem State.memRead_plain (s : State) {a : Addr} (h : plainAddr a = true) :
    s.memRead a = (s.cpuMem.read a.toNat, s) := by
  obtain ⟨h1, h2⟩ := (plainAddr_iff a).1 h
  rw [s.memRead_cases]
  split_ifs <;> first | rfl | omega

theorem State.memRead_ram (s : State) {a : Addr} (h : a.toNat < 0x2000) :
    s.memRead a = (s.cpuMem.read a.toNat, s) := by rw [s.memRead_cases, if_pos h]

/-- The two register reads with an effect, and the others (R163). -/
theorem State.ppuRegRead_cases (s : State) (r : BitVec 3) :
    s.ppuRegRead r = if r.toNat = 2 then s.statusRead else if r.toNat = 7 then s.dataRead
      else s.otherRead := by
  have h2 : (r = 2) ↔ r.toNat = 2 := by rw [← BitVec.toNat_inj]; rfl
  have h7 : (r = 7) ↔ r.toNat = 7 := by rw [← BitVec.toNat_inj]; rfl
  simp only [State.ppuRegRead, h2, h7]

/-- What a read can change: four fields of the PPU, the button sequencer and the count of draws. -/
theorem State.memRead_state (s : State) (a : Addr) :
    ∃ st w rb v k d, (s.memRead a).2 =
      { s with ppu := { s.ppu with status := st, w := w, readBuffer := rb, v := v }
               padStep := k, draws := d } ∧
      (st = s.ppu.status ∨ st = s.ppu.status &&& 0x3F) := by
  rw [s.memRead_cases, s.ppuRegRead_cases]
  split
  · exact ⟨_, _, _, _, _, _, rfl, .inl rfl⟩
  · split
    · split
      · exact ⟨_, _, _, _, _, _, rfl, .inr rfl⟩
      · split <;> exact ⟨_, _, _, _, _, _, rfl, .inl rfl⟩
    · split <;> exact ⟨_, _, _, _, _, _, rfl, .inl rfl⟩

variable (s : State) (a : Addr)

@[simp] theorem State.memRead_cpu : (s.memRead a).2.cpu = s.cpu := by
  obtain ⟨_, _, _, _, _, _, h, -⟩ := s.memRead_state a; rw [h]
@[simp] theorem State.memRead_video : (s.memRead a).2.video = s.video := by
  obtain ⟨_, _, _, _, _, _, h, -⟩ := s.memRead_state a; rw [h]
@[simp] theorem State.memRead_cpuMem : (s.memRead a).2.cpuMem = s.cpuMem := by
  obtain ⟨_, _, _, _, _, _, h, -⟩ := s.memRead_state a; rw [h]
@[simp] theorem State.memRead_ppuMem : (s.memRead a).2.ppuMem = s.ppuMem := by
  obtain ⟨_, _, _, _, _, _, h, -⟩ := s.memRead_state a; rw [h]
@[simp] theorem State.memRead_oam : (s.memRead a).2.oam = s.oam := by
  obtain ⟨_, _, _, _, _, _, h, -⟩ := s.memRead_state a; rw [h]
@[simp] theorem State.memRead_buttons : (s.memRead a).2.buttons = s.buttons := by
  obtain ⟨_, _, _, _, _, _, h, -⟩ := s.memRead_state a; rw [h]
@[simp] theorem State.memRead_config : (s.memRead a).2.config = s.config := by
  obtain ⟨_, _, _, _, _, _, h, -⟩ := s.memRead_state a; rw [h]
@[simp] theorem State.memRead_mapperState : (s.memRead a).2.mapperState = s.mapperState := by
  obtain ⟨_, _, _, _, _, _, h, -⟩ := s.memRead_state a; rw [h]
@[simp] theorem State.memRead_running : (s.memRead a).2.running = s.running := by
  obtain ⟨_, _, _, _, _, _, h, -⟩ := s.memRead_state a; rw [h]
@[simp] theorem State.memRead_paused : (s.memRead a).2.paused = s.paused := by
  obtain ⟨_, _, _, _, _, _, h, -⟩ := s.memRead_state a; rw [h]
@[simp] theorem State.memRead_phase : (s.memRead a).2.phase = s.phase := by
  obtain ⟨_, _, _, _, _, _, h, -⟩ := s.memRead_state a; rw [h]

/-! ### Writes -/

theorem ramStore_eq (m : Memory) (a : Addr) (v : Byte) :
    ramStore m a v = (((m.write (a.toNat % 0x800) v).write (a.toNat % 0x800 + 0x800) v).write
      (a.toNat % 0x800 + 0x1000) v).write (a.toNat % 0x800 + 0x1800) v := by
  have h : (a &&& 0x07FF).toNat = a.toNat % 0x800 := by
    rw [BitVec.toNat_and]; exact Nat.and_two_pow_sub_one_eq_mod _ 11
  simp only [ramStore, h, List.range_succ, List.range_zero, List.nil_append, List.foldl_append,
    List.foldl_cons, List.foldl_nil, Nat.mul_zero, Nat.add_zero, Nat.mul_one]

theorem ramStore_wf {m : Memory} (hm : Cells.wf m = true) (a : Addr) (v : Byte) :
    Cells.wf (ramStore m a v) = true := Cells.foldl_write_wf _ _ _ hm

theorem ramStore_within {m : Memory} (hm : Cells.within 65536 m = true) (a : Addr) (v : Byte) :
    Cells.within 65536 (ramStore m a v) = true := by
  rw [ramStore_eq]
  have : a.toNat % 0x800 < 0x800 := Nat.mod_lt _ (by omega)
  exact Cells.write_within (Cells.write_within (Cells.write_within (Cells.write_within hm
    (by omega) _) (by omega) _) (by omega) _) (by omega) _

/-- A write to RAM: exactly the four images read the byte (R44). -/
theorem read_ramStore {m : Memory} (hm : Cells.wf m = true) (a : Addr) (v : Byte) (b : Nat) :
    (ramStore m a v).read b =
      if b < 0x2000 ∧ b % 0x800 = a.toNat % 0x800 then v else m.read b := by
  rw [ramStore_eq]
  have h1 := Cells.write_wf hm (a.toNat % 0x800) v
  have h2 := Cells.write_wf h1 (a.toNat % 0x800 + 0x800) v
  have h3 := Cells.write_wf h2 (a.toNat % 0x800 + 0x1000) v
  have : a.toNat % 0x800 < 0x800 := Nat.mod_lt _ (by omega)
  rw [Cells.read_write h3, Cells.read_write h2, Cells.read_write h1, Cells.read_write hm]
  split_ifs <;> first | rfl | (exfalso; omega)

theorem storedCells_ram {a : Addr} (h : a.toNat < 0x2000) (b : Nat) :
    b ∈ storedCells a ↔ b < 0x2000 ∧ b % 0x800 = a.toNat % 0x800 := by
  rw [storedCells, if_pos h]
  simp only [List.mem_map, List.mem_range]
  constructor
  · rintro ⟨k, hk, rfl⟩; omega
  · rintro ⟨h1, h2⟩; exact ⟨b / 0x800, by omega, by omega⟩

theorem storedCells_stack (sp : Byte) (b : Nat) :
    b ∈ storedCells (stackAddr sp) ↔ b < 0x2000 ∧ b % 0x800 = 0x100 + sp.toNat := by
  rw [storedCells_ram (stackAddr_lt sp), stackAddr_toNat, Nat.mod_eq_of_lt (a := 0x100 + sp.toNat)
    (by omega)]

/-- The regions of `MemWrite` (R49). -/
theorem State.memWrite_cases (v : Byte) :
    s.memWrite a v = if a.toNat < 0x2000 then .next (s.ramWrite a v)
      else if a.toNat < 0x4000 then .next (s.ppuRegWrite (BitVec.ofNat 3 (a.toNat % 8)) v)
      else if a.toNat = 0x4014 then s.oamDma v
      else if a.toNat = 0x4016 then .next s.padWrite
      else if a.toNat < 0x8000 then .next (s.cellWrite a v)
      else .next (s.mapperWrite a v) := by
  have h1 : (a < 0x2000) ↔ a.toNat < 0x2000 :=
    Addr.lt_iff a 0x2000 (by omega)
  have h2 : (a < 0x4000) ↔ a.toNat < 0x4000 :=
    Addr.lt_iff a 0x4000 (by omega)
  have h3 : (a = 0x4014) ↔ a.toNat = 0x4014 :=
    Addr.eq_iff a 0x4014 (by omega)
  have h4 : (a = 0x4016) ↔ a.toNat = 0x4016 :=
    Addr.eq_iff a 0x4016 (by omega)
  have h5 : (a < 0x8000) ↔ a.toNat < 0x8000 :=
    Addr.lt_iff a 0x8000 (by omega)
  have h6 : a.setWidth 3 = BitVec.ofNat 3 (a.toNat % 8) := by
    apply BitVec.eq_of_toNat_eq; simp
  simp only [State.memWrite, h1, h2, h3, h4, h5, h6]

/-- A write to a PPU register by its own address (R45). -/
theorem State.memWrite_register (s : State) {k : Nat} (hk : k < 8) (d : Byte) :
    s.memWrite (BitVec.ofNat 16 (0x2000 + k)) d = .next (s.ppuRegWrite (BitVec.ofNat 3 k) d) := by
  rw [s.memWrite_cases]
  interval_cases k <;> rfl

theorem sideEffectPage_iff (d : Byte) :
    sideEffectPage d = true ↔ 0x20 ≤ d.toNat ∧ d.toNat ≤ 0x40 := by
  simp [sideEffectPage, BitVec.le_def]

theorem dmaRefused_iff (v : Byte) :
    DmaRefused a v ↔ a.toNat = 0x4014 ∧ sideEffectPage v = true := by
  rw [sideEffectPage_iff, DmaRefused, show (a = 0x4014) ↔ a.toNat = 0x4014 from
    Addr.eq_iff a 0x4014 (by omega)]

/-- What a write can give: the refusal of the DMA, or one of six next states (R49). -/
theorem State.memWrite_split (v : Byte) :
    (DmaRefused a v ∧ s.memWrite a v = .refused .dmaFromSideEffectPage) ∨
    (¬DmaRefused a v ∧ ∃ t, s.memWrite a v = .next t ∧
      (a.toNat < 0x2000 ∧ t = s.ramWrite a v ∨
       0x2000 ≤ a.toNat ∧ a.toNat < 0x4000 ∧ t = s.ppuRegWrite (BitVec.ofNat 3 (a.toNat % 8)) v ∨
       a.toNat = 0x4014 ∧ t = { s with oam := s.oam.fill 0 256 (s.pageByte v) } ∨
       a.toNat = 0x4016 ∧ t = s.padWrite ∨
       0x4000 ≤ a.toNat ∧ a.toNat < 0x8000 ∧ a.toNat ≠ 0x4014 ∧ a.toNat ≠ 0x4016 ∧
         t = s.cellWrite a v ∨
       0x8000 ≤ a.toNat ∧ t = s.mapperWrite a v)) := by
  rw [dmaRefused_iff, s.memWrite_cases]
  by_cases h : a.toNat = 0x4014
  · rw [if_neg (by omega), if_neg (by omega), if_pos h, State.oamDma]
    by_cases hd : sideEffectPage v = true
    · exact .inl ⟨⟨h, hd⟩, by rw [if_pos hd]⟩
    · exact .inr ⟨fun c => hd c.2, _, if_neg hd, .inr (.inr (.inl ⟨h, rfl⟩))⟩
  · refine .inr ⟨fun c => h c.1, ?_⟩
    rw [if_neg h]
    split
    · exact ⟨_, rfl, .inl ⟨‹_›, rfl⟩⟩
    · split
      · exact ⟨_, rfl, .inr (.inl ⟨by omega, ‹_›, rfl⟩)⟩
      · split
        · exact ⟨_, rfl, .inr (.inr (.inr (.inl ⟨‹_›, rfl⟩)))⟩
        · split
          · exact ⟨_, rfl, .inr (.inr (.inr (.inr (.inl ⟨by omega, ‹_›, h, ‹_›, rfl⟩))))⟩
          · exact ⟨_, rfl, .inr (.inr (.inr (.inr (.inr ⟨by omega, rfl⟩))))⟩

/-- The register writes (R163): only the PPU, OAM and PPU memory can change, the status never. -/
theorem State.ppuRegWrite_state (r : BitVec 3) (d : Byte) :
    ∃ p o m, s.ppuRegWrite r d = { s with ppu := p, oam := o, ppuMem := m } ∧
      p.status = s.ppu.status ∧
      (o = s.oam ∨ o = s.oam.write s.ppu.oamAddr.toNat d) ∧
      (m = s.ppuMem ∨ m = ppuStore s.ppuMem s.config.mirroring (s.ppu.v.setWidth 14) d) := by
  unfold State.ppuRegWrite
  split
  · exact ⟨_, _, _, rfl, rfl, .inl rfl, .inl rfl⟩
  · exact ⟨_, _, _, rfl, rfl, .inl rfl, .inl rfl⟩
  · exact ⟨_, _, _, rfl, rfl, .inl rfl, .inl rfl⟩
  · exact ⟨_, _, _, rfl, rfl, .inl rfl, .inl rfl⟩
  · exact ⟨_, _, _, rfl, rfl, .inr rfl, .inl rfl⟩
  · refine ⟨s.ppu.write2005 d, _, _, rfl, ?_, .inl rfl, .inl rfl⟩
    unfold Ppu.write2005; split <;> rfl
  · refine ⟨s.ppu.write2006 d, _, _, rfl, ?_, .inl rfl, .inl rfl⟩
    unfold Ppu.write2006; split <;> rfl
  · exact ⟨_, _, _, rfl, rfl, .inl rfl, .inr rfl⟩

/-- The mapper's write hook (R47): at most PRG, CHR, `MIRRORING` and the mapper's own state. -/
theorem State.mapperWrite_state (v : Byte) :
    s.mapperWrite a v = s ∧ s.config.mapper = .default ∨
    ∃ e, s.mapperWrite a v = s.applyMapper e ∧ s.config.mapper = .plugin := by
  unfold State.mapperWrite
  split
  · exact .inl ⟨rfl, ‹_›⟩
  · exact .inr ⟨_, rfl, ‹_›⟩

variable {s a} {t : State} {v : Byte}

/-- What no write touches. -/
theorem State.memWrite_frame (h : s.memWrite a v = .next t) :
    t.cpu = s.cpu ∧ t.video = s.video ∧ t.buttons = s.buttons ∧ t.running = s.running ∧
    t.paused = s.paused ∧ t.phase = s.phase ∧ t.draws = s.draws ∧ t.ppu.status = s.ppu.status ∧
    t.config = { s.config with mirroring := t.config.mirroring } := by
  obtain ⟨-, h'⟩ | ⟨-, t', h', hc⟩ := s.memWrite_split a v
  · rw [h'] at h; cases h
  · rw [h'] at h; cases h
    obtain ⟨-, rfl⟩ | ⟨-, -, rfl⟩ | ⟨-, rfl⟩ | ⟨-, rfl⟩ | ⟨-, -, -, -, rfl⟩ | ⟨-, rfl⟩ := hc
    · simp
    · obtain ⟨p, o, m, h, hs, -⟩ := s.ppuRegWrite_state (BitVec.ofNat 3 (a.toNat % 8)) v
      rw [h]; simp [hs]
    · simp
    · simp
    · simp
    · obtain ⟨h, -⟩ | ⟨e, h, -⟩ := s.mapperWrite_state a v <;> rw [h] <;> simp

theorem State.memWrite_cpu (h : s.memWrite a v = .next t) : t.cpu = s.cpu :=
  (State.memWrite_frame h).1

theorem State.memWrite_next (h : ¬DmaRefused a v) : ∃ t, s.memWrite a v = .next t := by
  obtain ⟨h', -⟩ | ⟨-, t, h', -⟩ := s.memWrite_split a v
  · exact absurd h' h
  · exact ⟨t, h'⟩

theorem State.memWrite_refused (h : DmaRefused a v) :
    s.memWrite a v = .refused .dmaFromSideEffectPage := by
  obtain ⟨-, h'⟩ | ⟨h', -⟩ := s.memWrite_split a v
  · exact h'
  · exact absurd h h'

theorem writePrg_wf {m : Memory} (hm : Cells.wf m = true) (l : List (BitVec 15 × Byte)) :
    Cells.wf (writePrg m l) = true := Cells.foldl_write_wf l _ _ hm

theorem writeChr_wf {m : Memory} (hm : Cells.wf m = true) (l : List (BitVec 13 × Byte)) :
    Cells.wf (writeChr m l) = true := Cells.foldl_write_wf l _ _ hm

/-- A plug-in leaves the lower half of CPU memory (R47). -/
theorem read_writePrg {m : Memory} (hm : Cells.wf m = true) (l : List (BitVec 15 × Byte)) {b : Nat}
    (hb : b < 0x8000) : (writePrg m l).read b = m.read b :=
  Cells.read_foldl_write_ne l (fun c => 0x8000 + c.1.toNat) _ (fun _ _ => by omega) hm

/-- A plug-in leaves PPU memory above the pattern tables (R47). -/
theorem read_writeChr {m : Memory} (hm : Cells.wf m = true) (l : List (BitVec 13 × Byte)) {b : Nat}
    (hb : 0x2000 ≤ b) : (writeChr m l).read b = m.read b :=
  Cells.read_foldl_write_ne l (fun c => c.1.toNat) _ (fun c _ => by omega) hm

theorem lastByte_nil {w k : Nat} : lastByte ([] : List (BitVec w × Byte)) k = none := rfl

/-- A rewrite in front of others stands where none of them names its offset. -/
theorem lastByte_cons {w : Nat} (c : BitVec w × Byte) (l : List (BitVec w × Byte)) (k : Nat) :
    lastByte (c :: l) k = (lastByte l k).or (if c.1.toNat = k then some c.2 else none) := by
  unfold lastByte
  rw [List.reverse_cons, List.find?_append, List.find?_singleton]
  cases l.reverse.find? (fun c => c.1.toNat == k) <;> by_cases h : c.1.toNat = k <;> simp [h]

/-- The bytes that several rewrites at distinct places leave: at each place the last one (R47). -/
theorem read_rewrite {w base : Nat} (l : List (BitVec w × Byte)) (k : Nat) {m : Memory}
    (hm : Cells.wf m = true) :
    Cells.read (l.foldl (fun m c => Cells.write m (base + c.1.toNat) c.2) m) (base + k) =
      (lastByte l k).getD (m.read (base + k)) := by
  induction l generalizing m with
  | nil => rfl
  | cons c l ih =>
    rw [List.foldl_cons, ih (Cells.write_wf hm _ _), lastByte_cons, Cells.read_write hm]
    cases lastByte l k <;> by_cases h : c.1.toNat = k <;> simp [h]

/-- What a plug-in leaves in the upper half of CPU memory (R47). -/
theorem read_writePrg_upper {m : Memory} (hm : Cells.wf m = true) (l : List (BitVec 15 × Byte)) (k : Nat) :
    (writePrg m l).read (0x8000 + k) = (lastByte l k).getD (m.read (0x8000 + k)) :=
  read_rewrite l k hm

/-- What a plug-in leaves in the pattern tables (R47). -/
theorem read_writeChr_lower {m : Memory} (hm : Cells.wf m = true) (l : List (BitVec 13 × Byte)) (k : Nat) :
    (writeChr m l).read k = (lastByte l k).getD (m.read k) := by
  have h := read_rewrite (base := 0) l k hm
  simp only [Nat.zero_add] at h
  exact h

theorem State.memWrite_wf (h : s.memWrite a v = .next t) (hm : Cells.wf s.cpuMem = true) :
    Cells.wf t.cpuMem = true := by
  obtain ⟨-, h'⟩ | ⟨-, t', h', hc⟩ := s.memWrite_split a v
  · rw [h'] at h; cases h
  · rw [h'] at h; cases h
    obtain ⟨-, rfl⟩ | ⟨-, -, rfl⟩ | ⟨-, rfl⟩ | ⟨-, rfl⟩ | ⟨-, -, -, -, rfl⟩ | ⟨-, rfl⟩ := hc
    · exact ramStore_wf hm a v
    · obtain ⟨p, o, m, h, -⟩ := s.ppuRegWrite_state (BitVec.ofNat 3 (a.toNat % 8)) v
      rw [h]; exact hm
    · exact hm
    · exact hm
    · exact Cells.write_wf hm _ _
    · obtain ⟨h, -⟩ | ⟨e, h, -⟩ := s.mapperWrite_state a v <;> rw [h]
      · exact hm
      · exact writePrg_wf hm e.prg

/-- A write stores to `storedCells` and nowhere else in CPU memory, ROM under a plug-in excepted. -/
theorem State.memWrite_cpuMem (h : s.memWrite a v = .next t) (hm : Cells.wf s.cpuMem = true)
    (b : Nat) :
    (b ∈ storedCells a → t.cpuMem.read b = v) ∧
    (b ∉ storedCells a → (b < 0x8000 ∨ s.config.mapper = .default) →
      t.cpuMem.read b = s.cpuMem.read b) := by
  have h4014 : (a = 0x4014) ↔ a.toNat = 0x4014 :=
    Addr.eq_iff a 0x4014 (by omega)
  have h4016 : (a = 0x4016) ↔ a.toNat = 0x4016 :=
    Addr.eq_iff a 0x4016 (by omega)
  have hnil (hn : 0x2000 ≤ a.toNat ∧ (a.toNat < 0x4000 ∨ a.toNat = 0x4014 ∨ a.toNat = 0x4016 ∨
      0x8000 ≤ a.toNat)) : storedCells a = [] := by
    rw [storedCells, if_neg (by omega), if_pos (by rw [h4014, h4016]; omega)]
  obtain ⟨-, h'⟩ | ⟨-, t', h', hc⟩ := s.memWrite_split a v
  · rw [h'] at h; cases h
  · rw [h'] at h; cases h
    obtain ⟨ha, rfl⟩ | ⟨ha, ha', rfl⟩ | ⟨ha, rfl⟩ | ⟨ha, rfl⟩ | ⟨ha, ha', hd, hp, rfl⟩ | ⟨ha, rfl⟩ :=
      hc
    · rw [storedCells_ram ha, State.ramWrite_cpuMem, read_ramStore hm]
      exact ⟨fun h => if_pos h, fun h _ => if_neg h⟩
    · obtain ⟨p, o, m, h, -⟩ := s.ppuRegWrite_state (BitVec.ofNat 3 (a.toNat % 8)) v
      rw [h, hnil ⟨ha, .inl ha'⟩]; simp
    · rw [hnil (by omega)]; simp
    · rw [hnil (by omega)]; simp
    · rw [storedCells, if_neg (by omega), if_neg (by rw [h4014, h4016]; omega)]
      rw [State.cellWrite_cpuMem, Cells.read_write hm]
      simp only [List.mem_singleton]
      exact ⟨fun h => if_pos h.symm, fun h _ => if_neg fun h' => h h'.symm⟩
    · rw [hnil (by omega)]
      obtain ⟨h, -⟩ | ⟨e, h, hp⟩ := s.mapperWrite_state a v <;> rw [h]
      · simp
      · refine ⟨by simp, fun _ hb => ?_⟩
        rw [hp] at hb
        exact read_writePrg hm e.prg (hb.resolve_right (by simp))

/-- A write at a quiet address touches no device (R56). -/
theorem State.memWrite_quiet (h : s.memWrite a v = .next t) (hp : plainAddr a = true)
    (hd : a ≠ 0x4014) (hm : a.toNat < 0x8000 ∨ s.config.mapper = .default) :
    t.ppu = s.ppu ∧ t.ppuMem = s.ppuMem ∧ t.oam = s.oam ∧ t.padStep = s.padStep ∧
    t.mapperState = s.mapperState ∧ t.config = s.config ∧ t.draws = s.draws := by
  obtain ⟨h1, h2⟩ := (plainAddr_iff a).1 hp
  have hd' : a.toNat ≠ 0x4014 := fun h => hd ((Addr.eq_iff a 0x4014 (by omega)).2 h)
  obtain ⟨-, h'⟩ | ⟨-, t', h', hc⟩ := s.memWrite_split a v
  · rw [h'] at h; cases h
  · rw [h'] at h; cases h
    obtain ⟨-, rfl⟩ | ⟨ha, hb, rfl⟩ | ⟨ha, rfl⟩ | ⟨ha, rfl⟩ | ⟨-, -, -, -, rfl⟩ | ⟨ha, rfl⟩ := hc
    · simp
    · omega
    · omega
    · omega
    · simp
    · obtain ⟨h, -⟩ | ⟨e, h, hp⟩ := s.mapperWrite_state a v
      · rw [h]; simp
      · rw [hp] at hm; simp at hm; omega

/-! ### The stack, pointers and vectors are accesses through the map (log 17) -/

theorem State.push_eq_memWrite (s : State) (v : Byte) :
    ∃ t, s.memWrite (stackAddr s.cpu.sp) v = .next t ∧
      s.push v = t.withCpu { s.cpu with sp := s.cpu.sp - 1 } := by
  refine ⟨s.ramWrite (stackAddr s.cpu.sp) v, ?_, rfl⟩
  rw [s.memWrite_cases, if_pos (stackAddr_lt _)]

theorem State.pull_eq_memRead (s : State) :
    s.pull = ((s.memRead (stackAddr (s.cpu.sp + 1))).1,
      s.withCpu { s.cpu with sp := s.cpu.sp + 1 }) := by
  rw [s.memRead_ram (stackAddr_lt _)]; rfl

theorem State.vector_eq_memRead (s : State) {vec : Addr} (h : plainAddr vec = true)
    (h' : plainAddr (vec + 1) = true) :
    s.vector vec = operand16 (s.memRead vec).1 (s.memRead (vec + 1)).1 := by
  rw [s.memRead_plain h, s.memRead_plain h']; rfl

theorem State.zpPointer_eq_memRead (s : State) (p : Byte) :
    s.zpPointer p = operand16 (s.memRead (p.setWidth 16)).1 (s.memRead ((p + 1).setWidth 16)).1 := by
  rw [s.memRead_ram (by simp; omega), s.memRead_ram (by simp; omega)]; rfl

/-- A push: the four images of its slot, and nothing else. -/
theorem State.read_push (s : State) (hm : Cells.wf s.cpuMem = true) (v : Byte) (b : Nat) :
    (s.push v).cpuMem.read b =
      if b < 0x2000 ∧ b % 0x800 = 0x100 + s.cpu.sp.toNat then v else s.cpuMem.read b := by
  rw [State.push_cpuMem, read_ramStore hm, stackAddr_toNat,
    Nat.mod_eq_of_lt (a := 0x100 + s.cpu.sp.toNat) (by omega)]

theorem State.push_wf (s : State) (hm : Cells.wf s.cpuMem = true) (v : Byte) :
    Cells.wf (s.push v).cpuMem = true := ramStore_wf hm _ _

/-- The byte at a stack slot after a push. -/
theorem State.read_push_slot (s : State) (hm : Cells.wf s.cpuMem = true) (v : Byte) (p : Byte) :
    (s.push v).cpuMem.read (stackAddr p).toNat =
      if p = s.cpu.sp then v else s.cpuMem.read (stackAddr p).toNat := by
  rw [s.read_push hm, stackAddr_toNat]
  by_cases h : p = s.cpu.sp
  · subst h; rw [if_pos (by omega), if_pos rfl]
  · have : p.toNat ≠ s.cpu.sp.toNat := fun h' => h (BitVec.eq_of_toNat_eq h')
    rw [if_neg (by omega), if_neg h]

/-- A pull right after a push gives the byte back. -/
theorem State.pull_push (s : State) (hm : Cells.wf s.cpuMem = true) (v : Byte) :
    (s.push v).pull.1 = v ∧ (s.push v).pull.2.cpu = s.cpu := by
  have hsp : s.cpu.sp - 1 + 1 = s.cpu.sp := by bv_omega
  refine ⟨?_, ?_⟩
  · show (s.push v).cpuMem.read (stackAddr ((s.push v).cpu.sp + 1)).toNat = v
    rw [State.push_cpu, hsp, s.read_push_slot hm, if_pos rfl]
  · show { (s.push v).cpu with sp := (s.push v).cpu.sp + 1 } = s.cpu
    rw [State.push_cpu, hsp]

/-- The two slots of a pushed return address. -/
theorem State.push2_slots (s : State) (hm : Cells.wf s.cpuMem = true) (a b : Byte) :
    ((s.push a).push b).cpuMem.read (stackAddr s.cpu.sp).toNat = a ∧
    ((s.push a).push b).cpuMem.read (stackAddr (s.cpu.sp - 1)).toNat = b := by
  have h1 := s.push_wf hm a
  have e : s.cpu.sp ≠ s.cpu.sp - 1 := by bv_omega
  rw [State.read_push_slot _ h1, State.read_push_slot _ h1, State.read_push_slot _ hm, State.push_cpu]
  exact ⟨by rw [if_neg e, if_pos rfl], if_pos rfl⟩

/-- The three slots of an interrupt entry. -/
theorem State.push3_slots (s : State) (hm : Cells.wf s.cpuMem = true) (a b c : Byte) :
    (((s.push a).push b).push c).cpuMem.read (stackAddr s.cpu.sp).toNat = a ∧
    (((s.push a).push b).push c).cpuMem.read (stackAddr (s.cpu.sp - 1)).toNat = b ∧
    (((s.push a).push b).push c).cpuMem.read (stackAddr (s.cpu.sp - 2)).toNat = c := by
  have h2 := (s.push a).push_wf (s.push_wf hm a) b
  obtain ⟨ha, hb⟩ := s.push2_slots hm a b
  have e1 : s.cpu.sp ≠ s.cpu.sp - 2 := by bv_omega
  have e2 : s.cpu.sp - 1 ≠ s.cpu.sp - 2 := by bv_omega
  have e3 : s.cpu.sp - 1 - 1 = s.cpu.sp - 2 := by bv_omega
  rw [State.read_push_slot _ h2, State.read_push_slot _ h2, State.read_push_slot _ h2, State.push_cpu,
    State.push_cpu, ha, hb]
  simp only [e3]
  exact ⟨if_neg e1, if_neg e2, if_pos trivial⟩

/-- The entry shared by BRK and the interrupts, over the three pushes and the vector's two reads
(R160, R195). -/
theorem State.enterVector_eq (s : State) {vec : Addr} (h : plainAddr vec = true)
    (h' : plainAddr (vec + 1) = true) :
    s.enterVector vec =
      (((s.push (hiByte s.cpu.pc)).push (loByte s.cpu.pc)).push s.cpu.flags.pack).withCpu { s.cpu with
        sp := s.cpu.sp - 3
        flags := { s.cpu.flags with i := true }
        pc := (((((s.push (hiByte s.cpu.pc)).push (loByte s.cpu.pc)).push s.cpu.flags.pack).memRead
          (vec + 1)).1 ++ ((((s.push (hiByte s.cpu.pc)).push (loByte s.cpu.pc)).push
            s.cpu.flags.pack).memRead vec).1 : Addr) } := by
  have e : s.cpu.sp - 1 - 1 - 1 = s.cpu.sp - 3 := by bv_omega
  rw [State.memRead_plain _ h, State.memRead_plain _ h', ← e]; rfl

/-- An interrupt is the shared entry, then `B` cleared and 7 cycles charged (R195). -/
theorem State.enterVector_cpuMem (s : State) (vec : Addr) :
    (s.enterVector vec).cpuMem =
      (((s.push (hiByte s.cpu.pc)).push (loByte s.cpu.pc)).push s.cpu.flags.pack).cpuMem := rfl

/-- The stack bytes of an entry, and every other byte (R160, R195). -/
theorem State.read_push3 (s : State) (hm : Cells.wf s.cpuMem = true) (x y z : Byte) {b : Nat}
    (h : ∀ k < 3, b ∉ storedCells (stackAddr (s.cpu.sp - BitVec.ofNat 8 k))) :
    (((s.push x).push y).push z).cpuMem.read b = s.cpuMem.read b := by
  have h0 := h 0 (by omega); have h1 := h 1 (by omega); have h2 := h 2 (by omega)
  rw [storedCells_stack] at h0 h1 h2
  have e0 : s.cpu.sp - BitVec.ofNat 8 0 = s.cpu.sp := by bv_omega
  have e1 : s.cpu.sp - BitVec.ofNat 8 1 = (s.push x).cpu.sp := by simp
  have e2 : s.cpu.sp - BitVec.ofNat 8 2 = ((s.push x).push y).cpu.sp := by
    simp only [State.push_cpu]; bv_omega
  rw [e0] at h0; rw [e1] at h1; rw [e2] at h2
  rw [State.read_push _ (State.push_wf _ (s.push_wf hm _) _), if_neg h2,
    State.read_push _ (s.push_wf hm _), if_neg h1, s.read_push hm, if_neg h0]

theorem State.interrupt_eq (s : State) (vec : Addr) :
    s.interrupt vec = (s.enterVector vec).withCpu { (s.enterVector vec).cpu with
      flags := { (s.enterVector vec).cpu.flags with b := false }
      budget := (s.enterVector vec).cpu.budget - 7 } := rfl

/-- `Unpack` undoes `Pack` (R22, R23). -/
@[simp] theorem Flags.unpack_pack (f : Flags) : Flags.unpack f.pack = f := by
  obtain ⟨c, z, i, d, b, v, n⟩ := f
  revert c z i d b v n
  decide

theorem Flags.pack_or_break (f : Flags) : f.pack ||| 0x10 = Flags.pack { f with b := true } := by
  obtain ⟨c, z, i, d, b, v, n⟩ := f
  revert c z i d b v n
  decide

theorem Flags.pack_eq (f : Flags) :
    f.pack = BitVec.ofNat 8 (128 * bitNat f.n + 64 * bitNat f.v + 32 + 16 * bitNat f.b +
      8 * bitNat f.d + 4 * bitNat f.i + 2 * bitNat f.z + bitNat f.c) := by
  obtain ⟨c, z, i, d, b, v, n⟩ := f
  revert c z i d b v n
  decide

end Sys2Proof.Machine
end

