-- ==== Sys2Proof/Laws/Encoding.lean ====
section
/-! SUPPORT. The two encoding tables agree: what the opcode map of R74 says of a byte is what the table by
mnemonic of R75 says of the instruction, and the two bytes of a 16-bit operand are put together and taken
apart without loss. -/

namespace Sys2Proof

open Sys2Proof.Machine

theorem addrBytes_operand16 (l h : Byte) : addrBytes (operand16 l h) = [l, h] := by
  have h1 : (operand16 l h).extractLsb' 0 8 = l := by
    apply BitVec.eq_of_toNat_eq
    simp only [BitVec.extractLsb'_toNat, operand16_toNat, Nat.shiftRight_eq_div_pow]; omega
  have h2 : (operand16 l h).extractLsb' 8 8 = h := by
    apply BitVec.eq_of_toNat_eq
    simp only [BitVec.extractLsb'_toNat, operand16_toNat, Nat.shiftRight_eq_div_pow]; omega
  rw [addrBytes, h1, h2]

theorem operand16_addrBytes (a : Addr) :
    operand16 (a.extractLsb' 0 8) (a.extractLsb' 8 8) = a := operand16_bytes a

/-- Every row of the opcode map is well-formed and is the row that the table by mnemonic gives. -/
theorem opcodeEntry_encode (op : Byte) :
    match opcodeEntry op with
    | .imp i => i.wf = true ∧ encode i = [op]
    | .byte b => ∀ n, (b n).wf = true ∧ encode (b n) = [op, n]
    | .word b => ∀ a, (b a).wf = true ∧ encode (b a) = op :: addrBytes a := by
  have key : ∀ k < 256, match opcodeEntry (BitVec.ofNat 8 k) with
      | .imp i => i.wf = true ∧ encode i = [BitVec.ofNat 8 k]
      | .byte b => ∀ n, (b n).wf = true ∧ encode (b n) = [BitVec.ofNat 8 k, n]
      | .word b => ∀ a, (b a).wf = true ∧ encode (b a) = BitVec.ofNat 8 k :: addrBytes a := by
    intro k hk
    interval_cases k <;> first | exact ⟨rfl, rfl⟩ | exact fun _ => ⟨rfl, rfl⟩
  simpa using key op.toNat (by omega)

/-- What a form says of an opcode byte is its entry in the map of R74. -/
theorem Machine.PlainForm.entry {op : Byte} {i : Instr} (h : PlainForm op i) : opcodeEntry op = .imp i := by
  have h0 := h []
  cases he : opcodeEntry op <;> simp_all [decode]

theorem Machine.ByteForm.entry {op : Byte} {f : Byte → Instr} (h : ByteForm op f) : opcodeEntry op = .byte f := by
  cases he : opcodeEntry op with
  | imp i => have h0 := h 0 []; simp [decode, he] at h0
  | byte g =>
    congr 1; funext n
    have h0 := h n []
    simpa [decode, he] using h0
  | word g => have h0 := h 0 []; simp [decode, he] at h0

theorem Machine.WordForm.entry {op : Byte} {f : Addr → Instr} (h : WordForm op f) : opcodeEntry op = .word f := by
  cases he : opcodeEntry op with
  | imp i => have h0 := h 0 0 []; simp [decode, he] at h0
  | byte g => have h0 := h 0 0 []; simp [decode, he] at h0
  | word g =>
    congr 1; funext a
    have h0 := h (a.extractLsb' 0 8) (a.extractLsb' 8 8) []
    have ha : a.extractLsb' 8 8 ++ a.extractLsb' 0 8 = a := operand16_addrBytes a
    rw [ha] at h0
    have hg : decode (op :: a.extractLsb' 0 8 :: a.extractLsb' 8 8 :: []) = .ok (g a, []) := by
      simp only [decode, he, operand16, ha]
    rw [hg] at h0
    simpa using h0

/-- The first byte of an encoding is the opcode byte of the table (R75). -/
theorem encode_head (i : Instr) : (encode i).headD 0 = i.opcode.getD 0 := by
  unfold encode; cases i.opcode <;> rfl

/-- Only a branch has the relative mode (R96). -/
@[simp] theorem MemOperand.mode_ne_rel (m : MemOperand) : m.mode ≠ .rel := by
  cases m <;> simp [MemOperand.mode]

@[simp] theorem ReadOperand.mode_ne_rel (m : ReadOperand) : m.mode ≠ .rel := by
  cases m <;> simp [ReadOperand.mode]

@[simp] theorem ShiftOperand.mode_ne_rel (m : ShiftOperand) : m.mode ≠ .rel := by
  cases m <;> simp [ShiftOperand.mode]

end Sys2Proof
end

