-- ==== Sys2Proof/Laws/Exec.lean ====
section
/-! SUPPORT. What an instruction can do to the state, said once: `exec` is a chain of reads and writes
through the memory map and changes of the CPU (`Touches`); and the inversion lemmas of the shared
patterns of instructions. -/

namespace Sys2Proof.Machine

/-- `t` is reached from `s` by reads and writes through the memory map and changes of the CPU. -/
inductive Touches (s : State) : State → Prop where
  | refl : Touches s s
  | read {t : State} (h : Touches s t) (a : Addr) : Touches s (t.memRead a).2
  | write {t u : State} (h : Touches s t) {a : Addr} {v : Byte} (hw : t.memWrite a v = .next u) :
      Touches s u
  | cpu {t : State} (h : Touches s t) (c : Cpu) : Touches s (t.withCpu c)

theorem Touches.trans {s t u : State} (h : Touches s t) (h' : Touches t u) : Touches s u := by
  induction h' with
  | refl => exact h
  | read _ a ih => exact ih.read a
  | write _ hw ih => exact ih.write hw
  | cpu _ c ih => exact ih.cpu c

/-- What no chain of accesses touches. -/
theorem Touches.frame {s t : State} (h : Touches s t) :
    t.video = s.video ∧ t.buttons = s.buttons ∧ t.phase = s.phase ∧ t.running = s.running ∧
    t.paused = s.paused ∧ t.config = { s.config with mirroring := t.config.mirroring } := by
  induction h with
  | refl => simp
  | read _ a ih => simpa using ih
  | write _ hw ih =>
    obtain ⟨-, h1, h2, h3, h4, h5, -, -, h6⟩ := State.memWrite_frame hw
    rw [h1, h2, h3, h4, h5]
    refine ⟨ih.1, ih.2.1, ih.2.2.1, ih.2.2.2.1, ih.2.2.2.2.1, ?_⟩
    rw [h6, ih.2.2.2.2.2]
  | cpu _ c ih => simpa using ih

/-- The status register is written by no access but a status read, which clears its top two bits
(R28). -/
theorem Touches.status {s t : State} (h : Touches s t) :
    t.ppu.status = s.ppu.status ∨ t.ppu.status = s.ppu.status &&& 0x3F := by
  induction h with
  | refl => exact .inl rfl
  | @read t _ a ih =>
    obtain ⟨_, _, _, _, _, _, h, hs⟩ := t.memRead_state a
    rw [h]
    rcases hs with hs | hs <;> rcases ih with ih | ih <;> simp only [hs, ih]
    · exact .inl trivial
    · exact .inr trivial
    · exact .inr trivial
    · right; rw [BitVec.and_assoc]; rfl
  | write _ hw ih => rw [(State.memWrite_frame hw).2.2.2.2.2.2.2.1]; exact ih
  | cpu _ c ih => exact ih

/-! ### The shared patterns -/

theorem State.readOperand_touches (s : State) (m : ReadOperand) :
    Touches s (s.readOperand m).2 := by
  cases m with
  | imm n => exact .refl
  | mem m => exact Touches.refl.read _

@[simp] theorem State.readOperand_cpu (s : State) (m : ReadOperand) :
    (s.readOperand m).2.cpu = s.cpu := by
  cases m <;> simp [State.readOperand]

@[simp] theorem State.readOperand_cpuMem (s : State) (m : ReadOperand) :
    (s.readOperand m).2.cpuMem = s.cpuMem := by
  cases m <;> simp [State.readOperand]

/-- A read instruction always completes (R97). -/
theorem State.withOperand_eq (s : State) (m : ReadOperand) (f : Byte → Cpu → Cpu) :
    s.withOperand m f =
      .next ((s.readOperand m).2.withCpu (f (s.readOperand m).1 s.cpu)) := by
  rw [← s.readOperand_cpu m]; rfl

theorem State.modify_refused (s : State) (m : MemOperand) (f : Byte → Byte)
    (g : Byte → Flags → Flags)
    (h : DmaRefused (s.effAddr m) (f (s.memRead (s.effAddr m)).1)) :
    s.modify m f g = .refused .dmaFromSideEffectPage := by
  simp only [State.modify, State.memWrite_refused h, onNext]

/-- A read-modify-write instruction completes unless its write is the refused DMA (R99). -/
theorem State.modify_next (s : State) (m : MemOperand) (f : Byte → Byte)
    (g : Byte → Flags → Flags)
    (h : ¬DmaRefused (s.effAddr m) (f (s.memRead (s.effAddr m)).1)) :
    ∃ t, (s.memRead (s.effAddr m)).2.memWrite (s.effAddr m) (f (s.memRead (s.effAddr m)).1) =
        .next t ∧
      s.modify m f g = .next (t.withCpu { s.cpu with
        flags := g (s.memRead (s.effAddr m)).1 s.cpu.flags }) := by
  obtain ⟨t, ht⟩ := State.memWrite_next (s := (s.memRead (s.effAddr m)).2) h
  refine ⟨t, ht, ?_⟩
  have hc : t.cpu = s.cpu := by rw [State.memWrite_cpu ht, State.memRead_cpu]
  simp only [State.modify, ht, onNext, State.withCpu, hc]

/-- What a completed read-modify-write instruction did. -/
theorem State.modify_inv {s t : State} {m : MemOperand} {f : Byte → Byte}
    {g : Byte → Flags → Flags} (h : s.modify m f g = .next t) :
    ∃ u, (s.memRead (s.effAddr m)).2.memWrite (s.effAddr m) (f (s.memRead (s.effAddr m)).1) =
        .next u ∧
      t = u.withCpu { s.cpu with flags := g (s.memRead (s.effAddr m)).1 s.cpu.flags } := by
  by_cases hd : DmaRefused (s.effAddr m) (f (s.memRead (s.effAddr m)).1)
  · rw [State.modify_refused s m f g hd] at h; cases h
  · obtain ⟨u, hu, h'⟩ := State.modify_next s m f g hd
    rw [h'] at h; cases h
    exact ⟨u, hu, rfl⟩

theorem State.modify_touches {s t : State} {m : MemOperand} {f : Byte → Byte}
    {g : Byte → Flags → Flags} (h : s.modify m f g = .next t) : Touches s t := by
  obtain ⟨u, hu, rfl⟩ := State.modify_inv h
  exact ((Touches.refl.read _).write hu).cpu _

theorem State.shiftOperand_mem (s : State) (m : MemOperand) (f : Byte → Byte × Bool) :
    s.shiftOperand (.mem m) f =
      s.modify m (fun b => (f b).1) (fun b fl => fl.shift (f b).1 (f b).2) := rfl

theorem State.shiftOperand_acc (s : State) (f : Byte → Byte × Bool) :
    s.shiftOperand .acc f = .next (s.withCpu { s.cpu with
      a := (f s.cpu.a).1, flags := s.cpu.flags.shift (f s.cpu.a).1 (f s.cpu.a).2 }) := rfl

theorem State.shiftOperand_touches {s t : State} {m : ShiftOperand} {f : Byte → Byte × Bool}
    (h : s.shiftOperand m f = .next t) : Touches s t := by
  cases m with
  | acc => cases h; exact Touches.refl.cpu _
  | mem m => rw [State.shiftOperand_mem] at h; exact State.modify_touches h

theorem State.push_touches (s : State) (v : Byte) : Touches s (s.push v) := by
  obtain ⟨t, ht, h⟩ := s.push_eq_memWrite v
  rw [h]; exact (Touches.refl.write ht).cpu _

theorem State.pushAddr_touches (s : State) (a : Addr) : Touches s (s.pushAddr a) :=
  (s.push_touches _).trans (State.push_touches _ _)

theorem State.enterVector_touches (s : State) (vec : Addr) : Touches s (s.enterVector vec) :=
  ((s.pushAddr_touches _).trans (State.push_touches _ _)).cpu _

theorem State.interrupt_touches (s : State) (vec : Addr) : Touches s (s.interrupt vec) :=
  (s.enterVector_touches vec).cpu _

theorem State.irqRequest_touches (s : State) : Touches s s.irqRequest := by
  unfold State.irqRequest; split
  · exact .refl
  · exact s.interrupt_touches _

theorem State.jumpTarget_touches (s : State) (m : JumpOperand) :
    Touches s (s.jumpTarget m).2 := by
  cases m with
  | abs a => exact .refl
  | ind p => exact (Touches.refl.read _).read _

@[simp] theorem State.jumpTarget_cpu (s : State) (m : JumpOperand) :
    (s.jumpTarget m).2.cpu = s.cpu := by
  cases m <;> simp [State.jumpTarget]

@[simp] theorem State.jumpTarget_cpuMem (s : State) (m : JumpOperand) :
    (s.jumpTarget m).2.cpuMem = s.cpuMem := by
  cases m <;> simp [State.jumpTarget]

/-! ### What each instruction answers, over the shared patterns -/

section equations

variable (s : State) (m : ReadOperand) (e : MemOperand) (o : ShiftOperand) (d : Byte)

theorem exec_lda : exec (.lda m) s = .next ((s.readOperand m).2.withCpu { s.cpu with
      a := (s.readOperand m).1, flags := s.cpu.flags.setNZ (s.readOperand m).1 }) := by
  simp only [exec, execLda, State.withOperand_eq]

theorem exec_ldx : exec (.ldx m) s = .next ((s.readOperand m).2.withCpu { s.cpu with
      x := (s.readOperand m).1, flags := s.cpu.flags.setNZ (s.readOperand m).1 }) := by
  simp only [exec, execLdx, State.withOperand_eq]

theorem exec_ldy : exec (.ldy m) s = .next ((s.readOperand m).2.withCpu { s.cpu with
      y := (s.readOperand m).1, flags := s.cpu.flags.setNZ (s.readOperand m).1 }) := by
  simp only [exec, execLdy, State.withOperand_eq]

theorem exec_adc : exec (.adc m) s = .next ((s.readOperand m).2.withCpu { s.cpu with
      a := addResult s.cpu.a (s.readOperand m).1 s.cpu.flags.c
      flags := s.cpu.flags.add s.cpu.a (s.readOperand m).1 }) := by
  simp only [exec, execAdc, State.withOperand_eq]

theorem exec_sbc : exec (.sbc m) s = .next ((s.readOperand m).2.withCpu { s.cpu with
      a := addResult s.cpu.a (~~~(s.readOperand m).1) s.cpu.flags.c
      flags := s.cpu.flags.add s.cpu.a (~~~(s.readOperand m).1) }) := by
  simp only [exec, execSbc, State.withOperand_eq]

theorem exec_and : exec (.and m) s = .next ((s.readOperand m).2.withCpu { s.cpu with
      a := s.cpu.a &&& (s.readOperand m).1
      flags := s.cpu.flags.setNZ (s.cpu.a &&& (s.readOperand m).1) }) := by
  simp only [exec, execAnd, State.withOperand_eq]

theorem exec_ora : exec (.ora m) s = .next ((s.readOperand m).2.withCpu { s.cpu with
      a := s.cpu.a ||| (s.readOperand m).1
      flags := s.cpu.flags.setNZ (s.cpu.a ||| (s.readOperand m).1) }) := by
  simp only [exec, execOra, State.withOperand_eq]

theorem exec_eor : exec (.eor m) s = .next ((s.readOperand m).2.withCpu { s.cpu with
      a := s.cpu.a ^^^ (s.readOperand m).1
      flags := s.cpu.flags.setNZ (s.cpu.a ^^^ (s.readOperand m).1) }) := by
  simp only [exec, execEor, State.withOperand_eq]

theorem exec_cmp : exec (.cmp m) s = .next ((s.readOperand m).2.withCpu { s.cpu with
      flags := s.cpu.flags.compare s.cpu.a (s.readOperand m).1 }) := by
  simp only [exec, execCmp, State.withOperand_eq]

theorem exec_cpx : exec (.cpx m) s = .next ((s.readOperand m).2.withCpu { s.cpu with
      flags := s.cpu.flags.compare s.cpu.x (s.readOperand m).1 }) := by
  simp only [exec, execCpx, State.withOperand_eq]

theorem exec_cpy : exec (.cpy m) s = .next ((s.readOperand m).2.withCpu { s.cpu with
      flags := s.cpu.flags.compare s.cpu.y (s.readOperand m).1 }) := by
  simp only [exec, execCpy, State.withOperand_eq]

theorem exec_bit : exec (.bit e) s = .next ((s.memRead (s.effAddr e)).2.withCpu { s.cpu with
      flags := s.cpu.flags.bitTest s.cpu.a (s.memRead (s.effAddr e)).1 }) := by
  simp only [exec, execBit, State.withOperand_eq, State.readOperand]

theorem exec_sta : exec (.sta e) s = s.memWrite (s.effAddr e) s.cpu.a := rfl

theorem exec_stx : exec (.stx e) s = s.memWrite (s.effAddr e) s.cpu.x := rfl

theorem exec_sty : exec (.sty e) s = s.memWrite (s.effAddr e) s.cpu.y := rfl

theorem exec_inc : exec (.inc e) s =
    s.modify e (fun b => b + 1) (fun b fl => fl.setNZ (b + 1)) := rfl

theorem exec_dec : exec (.dec e) s =
    s.modify e (fun b => b - 1) (fun b fl => fl.setNZ (b - 1)) := rfl

theorem exec_asl : exec (.asl o) s = s.shiftOperand o aslByte := rfl

theorem exec_lsr : exec (.lsr o) s = s.shiftOperand o lsrByte := rfl

theorem exec_rol : exec (.rol o) s = s.shiftOperand o (rolByte s.cpu.flags.c) := rfl

theorem exec_ror : exec (.ror o) s = s.shiftOperand o (rorByte s.cpu.flags.c) := rfl

theorem exec_bpl : exec (.bpl d) s = .next (s.branch (!s.cpu.flags.n) d) := rfl

theorem exec_bmi : exec (.bmi d) s = .next (s.branch s.cpu.flags.n d) := rfl

theorem exec_bvc : exec (.bvc d) s = .next (s.branch (!s.cpu.flags.v) d) := rfl

theorem exec_bvs : exec (.bvs d) s = .next (s.branch s.cpu.flags.v d) := rfl

theorem exec_bcc : exec (.bcc d) s = .next (s.branch (!s.cpu.flags.c) d) := rfl

theorem exec_bcs : exec (.bcs d) s = .next (s.branch s.cpu.flags.c d) := rfl

theorem exec_bne : exec (.bne d) s = .next (s.branch (!s.cpu.flags.z) d) := rfl

theorem exec_beq : exec (.beq d) s = .next (s.branch s.cpu.flags.z d) := rfl

theorem exec_jmp (j : JumpOperand) : exec (.jmp j) s =
    .next ((s.jumpTarget j).2.withCpu { s.cpu with pc := (s.jumpTarget j).1 }) := by
  rw [← s.jumpTarget_cpu j]; rfl

theorem exec_jsr (a : Addr) : exec (.jsr a) s =
    .next ((s.pushAddr (s.cpu.pc - 1)).withCpu { s.cpu with sp := s.cpu.sp - 1 - 1, pc := a }) := rfl

theorem exec_rts : exec .rts s = .next (s.withCpu { s.cpu with
      sp := s.cpu.sp + 1 + 1
      pc := operand16 (s.peek (stackAddr (s.cpu.sp + 1))) (s.peek (stackAddr (s.cpu.sp + 1 + 1))) + 1 }) :=
  rfl

theorem exec_pha : exec .pha s = .next (s.push s.cpu.a) := rfl

theorem exec_php : exec .php s = .next (s.push (s.cpu.flags.pack ||| 0x10)) := rfl

theorem exec_pla : exec .pla s = .next (s.withCpu { s.cpu with
      sp := s.cpu.sp + 1
      a := s.peek (stackAddr (s.cpu.sp + 1))
      flags := s.cpu.flags.setNZ (s.peek (stackAddr (s.cpu.sp + 1))) }) := rfl

theorem exec_plp : exec .plp s = .next (s.withCpu { s.cpu with
      sp := s.cpu.sp + 1, flags := Flags.unpack (s.peek (stackAddr (s.cpu.sp + 1))) }) := rfl

theorem exec_brk : exec .brk s = .next
    ((s.withCpu { s.cpu with pc := s.cpu.pc + 1, flags := { s.cpu.flags with b := true } }).enterVector
      0xFFFE) := rfl

theorem exec_rti : exec .rti s = .next (s.withCpu { s.cpu with
      sp := s.cpu.sp + 1 + 1 + 1
      flags := Flags.unpack (s.peek (stackAddr (s.cpu.sp + 1)))
      pc := operand16 (s.peek (stackAddr (s.cpu.sp + 1 + 1)))
        (s.peek (stackAddr (s.cpu.sp + 1 + 1 + 1))) }) := rfl

end equations

/-- Every instruction that completes is a chain of accesses and changes of the CPU. -/
theorem exec_touches {i : Instr} {s t : State} (h : exec i s = .next t) : Touches s t := by
  cases i with
  | lda m | ldx m | ldy m | adc m | sbc m | and m | ora m | eor m | cmp m | cpx m | cpy m =>
    simp only [exec_lda, exec_ldx, exec_ldy, exec_adc, exec_sbc, exec_and, exec_ora, exec_eor,
      exec_cmp, exec_cpx, exec_cpy] at h
    cases h; exact (s.readOperand_touches m).cpu _
  | bit m => cases (exec_bit s m).symm.trans h; exact (Touches.refl.read _).cpu _
  | sta m | stx m | sty m => exact Touches.refl.write h
  | inc m | dec m =>
    simp only [exec_inc, exec_dec] at h; exact State.modify_touches h
  | asl m | lsr m | rol m | ror m =>
    simp only [exec_asl, exec_lsr, exec_rol, exec_ror] at h; exact State.shiftOperand_touches h
  | bpl d | bmi d | bvc d | bvs d | bcc d | bcs d | bne d | beq d =>
    cases h; unfold State.branch; split
    · exact Touches.refl.cpu _
    · exact .refl
  | jmp m => rw [exec_jmp] at h; cases h; exact (s.jumpTarget_touches m).cpu _
  | jsr a => cases h; exact (s.pushAddr_touches _).cpu _
  | rts => cases h; exact Touches.refl.cpu _
  | pha => cases h; exact s.push_touches _
  | php => cases h; exact s.push_touches _
  | pla | plp | rti | inx | iny | dex | dey | tax | tay | txa | tya | tsx | txs | clc | sec | cli |
    sei | cld | sed | clv => cases h; exact Touches.refl.cpu _
  | nop | undef _ => cases h; exact .refl
  | brk =>
    cases h
    exact (Touches.refl.cpu _).trans (State.enterVector_touches _ _)

/-! ### The bytes an instruction stores to -/

theorem State.storedBytes_store (s : State) {i : Instr} {m : MemOperand} (h : i.storeOperand = some m) :
    s.storedBytes i = storedCells (s.effAddr m) := by
  rw [State.storedBytes, h]

theorem State.mem_storedBytes_push (s : State) {i : Instr} {n : Nat} (h : i.storeOperand = none)
    (hn : i.pushes = n) (b : Nat) :
    b ∈ s.storedBytes i ↔ ∃ k < n, b ∈ storedCells (stackAddr (s.cpu.sp - BitVec.ofNat 8 k)) := by
  rw [State.storedBytes, h, hn]
  simp only [List.mem_flatMap, List.mem_range]

/-! ### The CPU after an instruction -/

/-- A read-modify-write instruction changes only flags in the CPU. -/
theorem State.modify_cpu {s t : State} {m : MemOperand} {f : Byte → Byte}
    {g : Byte → Flags → Flags} (h : s.modify m f g = .next t) :
    t.cpu = { s.cpu with flags := g (s.memRead (s.effAddr m)).1 s.cpu.flags } := by
  obtain ⟨u, -, rfl⟩ := State.modify_inv h; rfl

@[simp] theorem State.branch_cpu (s : State) (taken : Bool) (d : Byte) :
    (s.branch taken d).cpu =
      { s.cpu with pc := if taken then s.cpu.pc + d.signExtend 16 else s.cpu.pc } := by
  unfold State.branch; split <;> simp_all

/-- No instruction touches the budget (R25). -/
theorem exec_budget {i : Instr} {s t : State} (h : exec i s = .next t) :
    t.cpu.budget = s.cpu.budget := by
  cases i with
  | lda m | ldx m | ldy m | adc m | sbc m | and m | ora m | eor m | cmp m | cpx m | cpy m | bit m =>
    simp only [exec_lda, exec_ldx, exec_ldy, exec_adc, exec_sbc, exec_and, exec_ora, exec_eor,
      exec_cmp, exec_cpx, exec_cpy, exec_bit] at h
    cases h; rfl
  | sta m | stx m | sty m => rw [State.memWrite_cpu h]
  | inc m | dec m =>
    simp only [exec_inc, exec_dec] at h; rw [State.modify_cpu h]
  | asl m | lsr m | rol m | ror m =>
    simp only [exec_asl, exec_lsr, exec_rol, exec_ror] at h
    cases m with
    | acc => cases h; rfl
    | mem m => rw [State.shiftOperand_mem] at h; rw [State.modify_cpu h]
  | bpl d | bmi d | bvc d | bvs d | bcc d | bcs d | bne d | beq d => cases h; simp
  | jmp m => rw [exec_jmp] at h; cases h; rfl
  | jsr a | rts | pha | php | pla | plp | rti | inx | iny | dex | dey | tax | tay | txa | tya | tsx |
    txs | clc | sec | cli | sei | cld | sed | clv | nop | undef _ | brk => cases h; rfl

/-! ### Fetching -/

theorem State.fetchByte_touches (s : State) : Touches s s.fetchByte.2 :=
  (Touches.refl.read _).cpu _

@[simp] theorem State.fetchByte_cpu (s : State) :
    s.fetchByte.2.cpu = { s.cpu with pc := s.cpu.pc + 1 } := by
  show { (s.memRead s.cpu.pc).2.cpu with pc := (s.memRead s.cpu.pc).2.cpu.pc + 1 } = _
  rw [State.memRead_cpu]

/-- A fetch at a plain address (R82). -/
theorem State.fetchByte_plain (s : State) (h : plainAddr s.cpu.pc = true) :
    s.fetchByte = (s.cpuMem.read s.cpu.pc.toNat, s.withCpu { s.cpu with pc := s.cpu.pc + 1 }) := by
  simp only [State.fetchByte, s.memRead_plain h]; rfl

/-- A fetch is a read through the memory map at `PC`, with its side effects (R69, R82). -/
theorem State.fetchByte_eq (s : State) :
    s.fetchByte = ((s.memRead s.cpu.pc).1,
      (s.memRead s.cpu.pc).2.withCpu { s.cpu with pc := s.cpu.pc + 1 }) := by
  have h : (s.memRead s.cpu.pc).2.cpu = s.cpu := by simp
  unfold State.fetchByte
  generalize s.memRead s.cpu.pc = p at h
  obtain ⟨b, t⟩ := p
  simp only at h
  simp only [h]; rfl

theorem State.fetch16_eq (s : State) :
    s.fetch16 = (operand16 s.fetchByte.1 s.fetchByte.2.fetchByte.1, s.fetchByte.2.fetchByte.2) := by
  unfold State.fetch16; rfl

/-- The fetch, over the byte fetched and the state after its cost was charged (R83). -/
theorem State.fetchInstr_eq (s : State) :
    s.fetchInstr =
      match opcodeEntry s.fetchByte.1 with
      | .imp i => (i, s.fetchByte.2.charge (cycles s.config.params s.fetchByte.1))
      | .byte build =>
        (build (s.fetchByte.2.charge (cycles s.config.params s.fetchByte.1)).fetchByte.1,
          (s.fetchByte.2.charge (cycles s.config.params s.fetchByte.1)).fetchByte.2)
      | .word build =>
        (build (s.fetchByte.2.charge (cycles s.config.params s.fetchByte.1)).fetch16.1,
          (s.fetchByte.2.charge (cycles s.config.params s.fetchByte.1)).fetch16.2) := by
  unfold State.fetchInstr; rfl

theorem State.fetchInstr_touches (s : State) : Touches s s.fetchInstr.2 := by
  have h1 : Touches s ((s.fetchByte).2.charge (cycles s.config.params s.fetchByte.1)) :=
    s.fetchByte_touches.cpu _
  rw [State.fetchInstr_eq]
  split
  · exact h1
  · exact h1.trans (State.fetchByte_touches _)
  · rw [State.fetch16_eq]
    exact (h1.trans (State.fetchByte_touches _)).trans (State.fetchByte_touches _)

/-- The fetch charges the cost of the opcode byte (R83). -/
theorem State.fetchInstr_budget (s : State) :
    s.fetchInstr.2.cpu.budget = s.cpu.budget - cycles s.config.params s.fetchByte.1 := by
  rw [State.fetchInstr_eq]
  split <;> simp [State.fetch16_eq]

/-- A step inside a CPU run: the fetch, then the instruction (R83). -/
theorem cpuStep_eq (s : State) : cpuStep s = exec s.fetchInstr.1 s.fetchInstr.2 := by
  unfold cpuStep; generalize s.fetchInstr = p; rfl

/-- What a step inside a CPU run does: a chain of accesses. -/
theorem cpuStep_touches {s t : State} (h : cpuStep s = .next t) : Touches s t := by
  rw [cpuStep_eq] at h
  exact s.fetchInstr_touches.trans (exec_touches h)

theorem cpuStep_budget {s t : State} (h : cpuStep s = .next t) :
    t.cpu.budget = s.cpu.budget - cycles s.config.params s.fetchByte.1 := by
  rw [cpuStep_eq] at h
  rw [exec_budget h, State.fetchInstr_budget]

/-- Every opcode costs 1 to 7 cycles if an unrecognised one does (R213). -/
theorem cycles_bounds (p : Params) (h1 : 1 ≤ p.undefCycles) (h7 : p.undefCycles ≤ 7) (op : Byte) :
    1 ≤ cycles p op ∧ cycles p op ≤ 7 := by
  have key : ∀ op : Byte, (cycleTable.getD (op.toNat / 16) []).getD (op.toNat % 16) 0 ≤ 7 := by
    decide
  unfold cycles
  have := key op
  split <;> omega

end Sys2Proof.Machine
end

