-- ==== Sys2Proof/Laws/PerInstr.lean ====
section
/-! SUPPORT. Laws stated for every instruction as syntax, one lemma per constructor. -/

namespace Sys2Proof.Laws.EncodedLength

/-- The bytes of a well-formed instruction number what its mode says (30_encoding.md R72, R79). -/
def Statement (i : Instr) : Prop := i.wf = true → (encode i).length = i.mode.length

theorem lda (m : ReadOperand) : Statement (.lda m) := fun h => by
  rcases m with _ | m
  · rfl
  · cases m <;> first | rfl | cases h

theorem ldx (m : ReadOperand) : Statement (.ldx m) := fun h => by
  rcases m with _ | m
  · rfl
  · cases m <;> first | rfl | cases h

theorem ldy (m : ReadOperand) : Statement (.ldy m) := fun h => by
  rcases m with _ | m
  · rfl
  · cases m <;> first | rfl | cases h

theorem sta (m : MemOperand) : Statement (.sta m) := fun h => by
  cases m <;> first | rfl | cases h

theorem stx (m : MemOperand) : Statement (.stx m) := fun h => by
  cases m <;> first | rfl | cases h

theorem sty (m : MemOperand) : Statement (.sty m) := fun h => by
  cases m <;> first | rfl | cases h

theorem adc (m : ReadOperand) : Statement (.adc m) := fun h => by
  rcases m with _ | m
  · rfl
  · cases m <;> first | rfl | cases h

theorem sbc (m : ReadOperand) : Statement (.sbc m) := fun h => by
  rcases m with _ | m
  · rfl
  · cases m <;> first | rfl | cases h

theorem and (m : ReadOperand) : Statement (.and m) := fun h => by
  rcases m with _ | m
  · rfl
  · cases m <;> first | rfl | cases h

theorem ora (m : ReadOperand) : Statement (.ora m) := fun h => by
  rcases m with _ | m
  · rfl
  · cases m <;> first | rfl | cases h

theorem eor (m : ReadOperand) : Statement (.eor m) := fun h => by
  rcases m with _ | m
  · rfl
  · cases m <;> first | rfl | cases h

theorem bit (m : MemOperand) : Statement (.bit m) := fun h => by
  cases m <;> first | rfl | cases h

theorem inc (m : MemOperand) : Statement (.inc m) := fun h => by
  cases m <;> first | rfl | cases h

theorem dec (m : MemOperand) : Statement (.dec m) := fun h => by
  cases m <;> first | rfl | cases h

theorem inx : Statement .inx := fun _ => rfl

theorem iny : Statement .iny := fun _ => rfl

theorem dex : Statement .dex := fun _ => rfl

theorem dey : Statement .dey := fun _ => rfl

theorem asl (m : ShiftOperand) : Statement (.asl m) := fun h => by
  rcases m with _ | m
  · rfl
  · cases m <;> first | rfl | cases h

theorem lsr (m : ShiftOperand) : Statement (.lsr m) := fun h => by
  rcases m with _ | m
  · rfl
  · cases m <;> first | rfl | cases h

theorem rol (m : ShiftOperand) : Statement (.rol m) := fun h => by
  rcases m with _ | m
  · rfl
  · cases m <;> first | rfl | cases h

theorem ror (m : ShiftOperand) : Statement (.ror m) := fun h => by
  rcases m with _ | m
  · rfl
  · cases m <;> first | rfl | cases h

theorem cmp (m : ReadOperand) : Statement (.cmp m) := fun h => by
  rcases m with _ | m
  · rfl
  · cases m <;> first | rfl | cases h

theorem cpx (m : ReadOperand) : Statement (.cpx m) := fun h => by
  rcases m with _ | m
  · rfl
  · cases m <;> first | rfl | cases h

theorem cpy (m : ReadOperand) : Statement (.cpy m) := fun h => by
  rcases m with _ | m
  · rfl
  · cases m <;> first | rfl | cases h

theorem bpl (d : Byte) : Statement (.bpl d) := fun _ => rfl

theorem bmi (d : Byte) : Statement (.bmi d) := fun _ => rfl

theorem bvc (d : Byte) : Statement (.bvc d) := fun _ => rfl

theorem bvs (d : Byte) : Statement (.bvs d) := fun _ => rfl

theorem bcc (d : Byte) : Statement (.bcc d) := fun _ => rfl

theorem bcs (d : Byte) : Statement (.bcs d) := fun _ => rfl

theorem bne (d : Byte) : Statement (.bne d) := fun _ => rfl

theorem beq (d : Byte) : Statement (.beq d) := fun _ => rfl

theorem jmp (m : JumpOperand) : Statement (.jmp m) := fun _ => by cases m <;> rfl

theorem jsr (a : Addr) : Statement (.jsr a) := fun _ => rfl

theorem rts : Statement .rts := fun _ => rfl

theorem pha : Statement .pha := fun _ => rfl

theorem php : Statement .php := fun _ => rfl

theorem pla : Statement .pla := fun _ => rfl

theorem plp : Statement .plp := fun _ => rfl

theorem tax : Statement .tax := fun _ => rfl

theorem tay : Statement .tay := fun _ => rfl

theorem txa : Statement .txa := fun _ => rfl

theorem tya : Statement .tya := fun _ => rfl

theorem tsx : Statement .tsx := fun _ => rfl

theorem txs : Statement .txs := fun _ => rfl

theorem clc : Statement .clc := fun _ => rfl

theorem sec : Statement .sec := fun _ => rfl

theorem cli : Statement .cli := fun _ => rfl

theorem sei : Statement .sei := fun _ => rfl

theorem cld : Statement .cld := fun _ => rfl

theorem sed : Statement .sed := fun _ => rfl

theorem clv : Statement .clv := fun _ => rfl

theorem nop : Statement .nop := fun _ => rfl

theorem brk : Statement .brk := fun _ => rfl

theorem rti : Statement .rti := fun _ => rfl

theorem undef (op : Byte) : Statement (.undef op) := fun _ => rfl

end Sys2Proof.Laws.EncodedLength
end

