-- ==== Sys2Proof/Laws/PpuMem.lean ====
section
/-! SUPPORT. What a write to PPU memory does (R59 to R63), with numbers, and that it keeps the canonical
form, the bound and the absence of aliases. -/

namespace Sys2Proof.Machine

/-- `Canon` with numbers (R59). -/
theorem canon_toNat (a : PpuAddr) :
    (canon a).toNat = if 0x3F00 ≤ a.toNat then 0x3F00 + a.toNat % 0x20
      else if 0x3000 ≤ a.toNat then a.toNat - 0x1000 else a.toNat := by
  have ha := a.isLt
  have hand (b : PpuAddr) (hb : 0x3F00 ≤ b.toNat) :
      (0x3F00 ||| (b &&& 0x1F) : PpuAddr).toNat = 0x3F00 + b.toNat % 0x20 := by
    rw [BitVec.toNat_or, BitVec.toNat_and]
    have h1 := Nat.and_two_pow_sub_one_eq_mod b.toNat 5
    have h2 : b.toNat % 32 < 2 ^ 8 := by omega
    have h3 := Nat.shiftLeft_add_eq_or_of_lt h2 0x3F
    have e1 : (0x1F : PpuAddr).toNat = 2 ^ 5 - 1 := rfl
    have e2 : (0x3F00 : PpuAddr).toNat = 0x3F <<< 8 := rfl
    rw [e1, e2, h1, ← h3]; rfl
  have c1 : (0x3000 ≤ a ∧ a ≤ 0x3EFF) ↔ 0x3000 ≤ a.toNat ∧ a.toNat ≤ 0x3EFF := by
    simp [BitVec.le_def]
  unfold canon
  simp only [c1]
  by_cases h : 0x3000 ≤ a.toNat ∧ a.toNat ≤ 0x3EFF
  · have hs : (a - 0x1000).toNat = a.toNat - 0x1000 := by
      rw [BitVec.toNat_sub]; simp only [BitVec.reduceToNat]; omega
    have c2 : ¬((0x3F20 : PpuAddr) ≤ a - 0x1000) := by
      rw [BitVec.le_def, hs]; simp only [BitVec.reduceToNat]; omega
    rw [if_pos h, if_neg c2, hs, if_neg (by omega), if_pos h.1]
  · rw [if_neg h]
    by_cases h2 : 0x3F20 ≤ a.toNat
    · have c2 : (0x3F20 : PpuAddr) ≤ a := by rw [BitVec.le_def]; exact h2
      rw [if_pos c2, hand a (by omega), if_pos (by omega)]
    · have c2 : ¬((0x3F20 : PpuAddr) ≤ a) := by rw [BitVec.le_def]; exact h2
      rw [if_neg c2]
      split_ifs <;> omega

/-- The index that holds a PPU address is no alias. -/
theorem canon_range (a : PpuAddr) :
    (canon a).toNat < 0x3000 ∨ 0x3F00 ≤ (canon a).toNat ∧ (canon a).toNat < 0x3F20 := by
  have := a.isLt
  rw [canon_toNat]; split_ifs <;> omega

theorem nametableGroup_lt (mir : Mirroring) {n k : Nat} (hn : n < 4) (hk : k ∈ nametableGroup mir n) :
    k < 4 := by
  cases mir <;> simp only [nametableGroup] at hk
  · split at hk <;> simp at hk <;> omega
  · split at hk <;> simp at hk <;> omega
  · simp at hk; omega
  · simp at hk; omega

/-- The groups of R62 are the classes of an equivalence. -/
theorem mem_nametableGroup (mir : Mirroring) {n k : Nat} (hn : n < 4) (hk : k < 4) :
    k ∈ nametableGroup mir n ↔ match mir with
      | .vertical => n % 2 = k % 2
      | .horizontal => n / 2 = k / 2
      | .oneScreen => True
      | .fourScreen => n = k := by
  interval_cases n <;> interval_cases k <;> cases mir <;> decide

/-- The cells that a write at PPU address `a` stores to (R61 to R63). -/
def PpuStored (mir : Mirroring) (a : PpuAddr) (b : Nat) : Prop :=
  b = (canon a).toNat ∨
  (0x2000 ≤ (canon a).toNat ∧ (canon a).toNat ≤ 0x2FFF ∧
    ∃ k ∈ nametableGroup mir ((canon a).toNat / 0x400 % 4),
      b = 0x2000 + 0x400 * k + (canon a).toNat % 0x400) ∨
  ((canon a).toNat = 0x3F10 ∧ b = 0x3F00) ∨ ((canon a).toNat = 0x3F00 ∧ b = 0x3F10)

theorem ppuStored_range {mir : Mirroring} {a : PpuAddr} {b : Nat} (h : PpuStored mir a b) :
    b < 0x3000 ∨ 0x3F00 ≤ b ∧ b < 0x3F20 := by
  obtain rfl | ⟨-, -, k, hk, rfl⟩ | ⟨-, rfl⟩ | ⟨-, rfl⟩ := h
  · exact canon_range a
  · have := nametableGroup_lt mir (Nat.mod_lt _ (by omega)) hk
    left; omega
  · right; omega
  · right; omega

theorem writeImages_wf {m : Memory} (hm : Cells.wf m = true) (mir : Mirroring) (c : Nat) (v : Byte) :
    Cells.wf (writeImages m mir c v) = true := Cells.foldl_write_wf _ _ _ hm

theorem ppuStore_wf {m : Memory} (hm : Cells.wf m = true) (mir : Mirroring) (a : PpuAddr) (v : Byte) :
    Cells.wf (ppuStore m mir a v) = true := by
  unfold ppuStore
  have h1 := Cells.write_wf hm (canon a).toNat v
  have h2 := writeImages_wf h1 mir (canon a).toNat v
  simp only
  split_ifs <;> first
    | exact h1 | exact h2 | exact Cells.write_wf h1 _ _ | exact Cells.write_wf h2 _ _
    | exact Cells.write_wf (Cells.write_wf h1 _ _) _ _
    | exact Cells.write_wf (Cells.write_wf h2 _ _) _ _

/-- A read of PPU memory after a write (R61 to R63). -/
theorem read_ppuStore {m : Memory} (hm : Cells.wf m = true) (mir : Mirroring) (a : PpuAddr) (v : Byte)
    (b : Nat) :
    (PpuStored mir a b → (ppuStore m mir a v).read b = v) ∧
    (¬PpuStored mir a b → (ppuStore m mir a v).read b = m.read b) := by
  have h1 := Cells.write_wf hm (canon a).toNat v
  have hr : ∀ b, (m.write (canon a).toNat v).read b = if (canon a).toNat = b then v else m.read b :=
    fun b => Cells.read_write hm _ _ _
  unfold ppuStore PpuStored
  simp only
  by_cases hn : 0x2000 ≤ (canon a).toNat ∧ (canon a).toNat ≤ 0x2FFF
  · rw [if_pos hn, if_neg (by omega), if_neg (by omega)]
    have hi : (writeImages (m.write (canon a).toNat v) mir (canon a).toNat v).read b =
        if b ∈ (nametableGroup mir ((canon a).toNat / 0x400 % 4)).map
          (fun k => 0x2000 + 0x400 * k + (canon a).toNat % 0x400) then v
        else (m.write (canon a).toNat v).read b := by
      rw [← Cells.read_foldl_write_const _ v b h1, List.foldl_map]; rfl
    rw [hi, hr]
    simp only [List.mem_map]
    constructor
    · rintro (rfl | ⟨-, -, k, hk, rfl⟩ | ⟨h, -⟩ | ⟨h, -⟩)
      · simp
      · exact if_pos ⟨k, hk, rfl⟩
      · omega
      · omega
    · intro h
      rw [if_neg, if_neg]
      · exact fun h' => h (.inl h'.symm)
      · rintro ⟨k, hk, rfl⟩
        exact h (.inr (.inl ⟨hn.1, hn.2, k, hk, rfl⟩))
  · rw [if_neg hn]
    by_cases h10 : (canon a).toNat = 0x3F10
    · rw [if_pos h10, if_neg (by omega), Cells.read_write h1, hr, h10]
      constructor
      · rintro (rfl | ⟨h, h', -⟩ | ⟨-, rfl⟩ | ⟨h, -⟩)
        · simp
        · omega
        · simp
        · omega
      · intro h
        rw [if_neg fun h' => h (.inr (.inr (.inl ⟨rfl, h'.symm⟩))), if_neg fun h' => h (.inl h'.symm)]
    · rw [if_neg h10]
      by_cases h00 : (canon a).toNat = 0x3F00
      · rw [if_pos h00, Cells.read_write h1, hr, h00]
        constructor
        · rintro (rfl | ⟨h, h', -⟩ | ⟨h, -⟩ | ⟨-, rfl⟩)
          · simp
          · omega
          · omega
          · simp
        · intro h
          rw [if_neg fun h' => h (.inr (.inr (.inr ⟨rfl, h'.symm⟩))),
            if_neg fun h' => h (.inl h'.symm)]
      · rw [if_neg h00, hr]
        constructor
        · rintro (rfl | ⟨h, h', -⟩ | ⟨h, -⟩ | ⟨h, -⟩)
          · simp
          · omega
          · omega
          · omega
        · intro h; rw [if_neg fun h' => h (.inl h'.symm)]

/-- A write adds cells only where it stores. -/
theorem mem_ppuStore {m : Memory} {mir : Mirroring} {a : PpuAddr} {v : Byte} {c : Nat × Byte}
    (h : c ∈ ppuStore m mir a v) : PpuStored mir a c.1 ∨ c ∈ m := by
  have hfold : ∀ (l : List Nat) (m' : Memory) (key : Nat → Nat),
      c ∈ l.foldl (fun m k => Cells.write m (key k) v) m' → (∃ k ∈ l, c.1 = key k) ∨ c ∈ m' := by
    intro l
    induction l with
    | nil => exact fun _ _ h => .inr h
    | cons k l ih =>
      intro m' key h
      obtain ⟨k', hk', h'⟩ | h' := ih _ key h
      · exact .inl ⟨k', by simp [hk'], h'⟩
      · obtain h' | h' := Cells.mem_write h'
        · exact .inl ⟨k, by simp, h'⟩
        · exact .inr h'
  have h1 : c ∈ m.write (canon a).toNat v → PpuStored mir a c.1 ∨ c ∈ m := fun h =>
    (Cells.mem_write h).imp .inl id
  have h2 : 0x2000 ≤ (canon a).toNat ∧ (canon a).toNat ≤ 0x2FFF →
      c ∈ writeImages (m.write (canon a).toNat v) mir (canon a).toNat v →
      PpuStored mir a c.1 ∨ c ∈ m := fun hn h => by
    obtain ⟨k, hk, h⟩ | h := hfold _ _ _ h
    · exact .inl (.inr (.inl ⟨hn.1, hn.2, k, hk, h⟩))
    · exact h1 h
  unfold ppuStore at h
  simp only at h
  by_cases hn : 0x2000 ≤ (canon a).toNat ∧ (canon a).toNat ≤ 0x2FFF
  · rw [if_pos hn, if_neg (by omega), if_neg (by omega)] at h
    exact h2 hn h
  · rw [if_neg hn] at h
    by_cases h10 : (canon a).toNat = 0x3F10
    · rw [if_pos h10, if_neg (by omega)] at h
      obtain h | h := Cells.mem_write h
      · exact .inl (.inr (.inr (.inl ⟨h10, h⟩)))
      · exact h1 h
    · rw [if_neg h10] at h
      by_cases h00 : (canon a).toNat = 0x3F00
      · rw [if_pos h00] at h
        obtain h | h := Cells.mem_write h
        · exact .inl (.inr (.inr (.inr ⟨h00, h⟩)))
        · exact h1 h
      · rw [if_neg h00] at h
        exact h1 h

end Sys2Proof.Machine
end

