-- ==== Sys2Proof/Laws/Scroll.lean ====
section
/-! SUPPORT. The fields of the scroll registers (R30): what each setter and each register write does to
each field, and the fields as numbers. -/

namespace Sys2Proof.Machine

theorem coarseX_toNat (r : Loopy) : (coarseX r).toNat = r.toNat % 32 := by
  simp [coarseX]

theorem coarseY_toNat (r : Loopy) : (coarseY r).toNat = r.toNat / 32 % 32 := by
  simp [coarseY, Nat.shiftRight_eq_div_pow]

theorem ntSelect_toNat (r : Loopy) : (ntSelect r).toNat = r.toNat / 1024 % 4 := by
  simp [ntSelect, Nat.shiftRight_eq_div_pow]

theorem fineY_toNat (r : Loopy) : (fineY r).toNat = r.toNat / 4096 := by
  have := r.isLt
  simp [fineY, Nat.shiftRight_eq_div_pow]; omega

/-- A scroll register is its four fields. -/
theorem loopy_ext {r u : Loopy} (h1 : coarseX r = coarseX u) (h2 : coarseY r = coarseY u)
    (h3 : ntSelect r = ntSelect u) (h4 : fineY r = fineY u) : r = u := by
  have h1 := congrArg BitVec.toNat h1; have h2 := congrArg BitVec.toNat h2
  have h3 := congrArg BitVec.toNat h3; have h4 := congrArg BitVec.toNat h4
  rw [coarseX_toNat, coarseX_toNat] at h1; rw [coarseY_toNat, coarseY_toNat] at h2
  rw [ntSelect_toNat, ntSelect_toNat] at h3; rw [fineY_toNat, fineY_toNat] at h4
  apply BitVec.eq_of_toNat_eq; omega

section fields

variable (r : Loopy) (n : BitVec 5) (k : BitVec 3)

@[simp] theorem coarseX_setCoarseX : coarseX (setCoarseX r n) = n := by
  apply BitVec.eq_of_getLsbD_eq; intro i hi; interval_cases i <;> simp [coarseX, setCoarseX]
@[simp] theorem coarseY_setCoarseX : coarseY (setCoarseX r n) = coarseY r := by
  apply BitVec.eq_of_getLsbD_eq; intro i hi; interval_cases i <;> simp [coarseY, setCoarseX]
@[simp] theorem ntSelect_setCoarseX : ntSelect (setCoarseX r n) = ntSelect r := by
  apply BitVec.eq_of_getLsbD_eq; intro i hi; interval_cases i <;> simp [ntSelect, setCoarseX]
@[simp] theorem fineY_setCoarseX : fineY (setCoarseX r n) = fineY r := by
  apply BitVec.eq_of_getLsbD_eq; intro i hi; interval_cases i <;> simp [fineY, setCoarseX]

@[simp] theorem coarseX_setCoarseY : coarseX (setCoarseY r n) = coarseX r := by
  apply BitVec.eq_of_getLsbD_eq; intro i hi; interval_cases i <;> simp [coarseX, setCoarseY]
@[simp] theorem coarseY_setCoarseY : coarseY (setCoarseY r n) = n := by
  apply BitVec.eq_of_getLsbD_eq; intro i hi; interval_cases i <;> simp [coarseY, setCoarseY]
@[simp] theorem ntSelect_setCoarseY : ntSelect (setCoarseY r n) = ntSelect r := by
  apply BitVec.eq_of_getLsbD_eq; intro i hi; interval_cases i <;> simp [ntSelect, setCoarseY]
@[simp] theorem fineY_setCoarseY : fineY (setCoarseY r n) = fineY r := by
  apply BitVec.eq_of_getLsbD_eq; intro i hi; interval_cases i <;> simp [fineY, setCoarseY]

@[simp] theorem coarseX_setFineY : coarseX (setFineY r k) = coarseX r := by
  apply BitVec.eq_of_getLsbD_eq; intro i hi; interval_cases i <;> simp [coarseX, setFineY]
@[simp] theorem coarseY_setFineY : coarseY (setFineY r k) = coarseY r := by
  apply BitVec.eq_of_getLsbD_eq; intro i hi; interval_cases i <;> simp [coarseY, setFineY]
@[simp] theorem ntSelect_setFineY : ntSelect (setFineY r k) = ntSelect r := by
  apply BitVec.eq_of_getLsbD_eq; intro i hi; interval_cases i <;> simp [ntSelect, setFineY]
@[simp] theorem fineY_setFineY : fineY (setFineY r k) = k := by
  apply BitVec.eq_of_getLsbD_eq; intro i hi; interval_cases i <;> simp [fineY, setFineY]

/-- Toggling `nt_x` (R184). -/
@[simp] theorem coarseX_toggleX : coarseX (r ^^^ 0x0400#15) = coarseX r := by
  apply BitVec.eq_of_getLsbD_eq; intro i hi; interval_cases i <;> simp [coarseX]
@[simp] theorem coarseY_toggleX : coarseY (r ^^^ 0x0400#15) = coarseY r := by
  apply BitVec.eq_of_getLsbD_eq; intro i hi; interval_cases i <;> simp [coarseY]
@[simp] theorem ntSelect_toggleX : ntSelect (r ^^^ 0x0400#15) = ntSelect r ^^^ 1#2 := by
  apply BitVec.eq_of_getLsbD_eq; intro i hi; interval_cases i <;> simp [ntSelect]
@[simp] theorem fineY_toggleX : fineY (r ^^^ 0x0400#15) = fineY r := by
  apply BitVec.eq_of_getLsbD_eq; intro i hi; interval_cases i <;> simp [fineY]

/-- Toggling `nt_y` (R185). -/
@[simp] theorem coarseX_toggleY : coarseX (r ^^^ 0x0800#15) = coarseX r := by
  apply BitVec.eq_of_getLsbD_eq; intro i hi; interval_cases i <;> simp [coarseX]
@[simp] theorem coarseY_toggleY : coarseY (r ^^^ 0x0800#15) = coarseY r := by
  apply BitVec.eq_of_getLsbD_eq; intro i hi; interval_cases i <;> simp [coarseY]
@[simp] theorem ntSelect_toggleY : ntSelect (r ^^^ 0x0800#15) = ntSelect r ^^^ 2#2 := by
  apply BitVec.eq_of_getLsbD_eq; intro i hi; interval_cases i <;> simp [ntSelect]
@[simp] theorem fineY_toggleY : fineY (r ^^^ 0x0800#15) = fineY r := by
  apply BitVec.eq_of_getLsbD_eq; intro i hi; interval_cases i <;> simp [fineY]

/-- The two nametable-select bits. -/
theorem ntX_eq : r.getLsbD 10 = (ntSelect r).getLsbD 0 := by simp [ntSelect]
theorem ntY_eq : r.getLsbD 11 = (ntSelect r).getLsbD 1 := by simp [ntSelect]

end fields

/-! ### Register writes -/

/-- The phase-0 write to 0x2005 sets coarse-X (R169). -/
theorem scroll_first (t : Loopy) (d : Byte) :
    (t &&& 0x7FE0) ||| (d >>> 3).setWidth 15 = setCoarseX t ((d >>> 3).setWidth 5) := by
  apply BitVec.eq_of_getLsbD_eq; intro i hi; interval_cases i <;> simp [setCoarseX]

/-- The phase-1 write to 0x2005 sets fine-Y and coarse-Y (R169). -/
theorem scroll_second (t : Loopy) (d : Byte) :
    (t &&& (0x0C1F : Loopy)) ||| ((d &&& 0x07).setWidth 15 <<< 12) ||| ((d >>> 3).setWidth 15 <<< 5) =
      setCoarseY (setFineY t (d.setWidth 3)) ((d >>> 3).setWidth 5) := by
  apply BitVec.eq_of_getLsbD_eq; intro i hi; interval_cases i <;> simp [setCoarseY, setFineY]

/-- The high five bits of a byte, and the low three. -/
theorem highFive_toNat (d : Byte) : ((d >>> 3).setWidth 5).toNat = d.toNat / 8 := by
  have := d.isLt
  simp [Nat.shiftRight_eq_div_pow]; omega

theorem lowThree_toNat (d : Byte) : (d.setWidth 3).toNat = d.toNat % 8 := by simp

theorem lowThree_eq (d : Byte) : (d &&& 0x07).setWidth 3 = d.setWidth 3 := by
  apply BitVec.eq_of_getLsbD_eq; intro i hi; interval_cases i <;> simp

/-- The phase-0 write to 0x2006 (R170). -/
theorem address_first (t : Loopy) (d : Byte) :
    ((t &&& (0x00FF : Loopy)) ||| ((d &&& 0x3F).setWidth 15 <<< 8)).toNat = d.toNat % 64 * 256 + t.toNat % 256 := by
  have h1 : (t &&& (0x00FF : Loopy)).toNat = t.toNat % 256 := by
    rw [BitVec.toNat_and]; exact Nat.and_two_pow_sub_one_eq_mod _ 8
  have h2 : ((d &&& 0x3F).setWidth 15 <<< 8).toNat = (d.toNat % 64) <<< 8 := by
    have h : (d &&& 0x3F).toNat = d.toNat % 64 := by
      rw [BitVec.toNat_and]; exact Nat.and_two_pow_sub_one_eq_mod _ 6
    rw [BitVec.toNat_shiftLeft, BitVec.toNat_setWidth, h, Nat.shiftLeft_eq]; omega
  rw [BitVec.toNat_or, h1, h2, Nat.or_comm, ← Nat.shiftLeft_add_eq_or_of_lt (by omega),
    Nat.shiftLeft_eq]

/-- The phase-1 write to 0x2006 (R170). -/
theorem address_second (t : Loopy) (d : Byte) :
    ((t &&& (0x7F00 : Loopy)) ||| d.setWidth 15).toNat = t.toNat / 256 * 256 + d.toNat := by
  have h1 : t &&& (0x7F00 : Loopy) = (t >>> 8) <<< 8 := by
    apply BitVec.eq_of_getLsbD_eq; intro i hi; interval_cases i <;> simp
  have h2 : (t &&& (0x7F00 : Loopy)).toNat = (t.toNat / 256) <<< 8 := by
    have := t.isLt
    rw [h1]; simp [Nat.shiftRight_eq_div_pow, Nat.shiftLeft_eq]; omega
  have := d.isLt
  have h3 : (d.setWidth 15).toNat = d.toNat := by simp; omega
  rw [BitVec.toNat_or, h2, h3, ← Nat.shiftLeft_add_eq_or_of_lt d.isLt, Nat.shiftLeft_eq]

/-- The write to 0x2000 puts the two low bits into `t[11:10]` (R164). -/
theorem control_first (t : Loopy) (d : Byte) (k : Nat) :
    ((t &&& (0x73FF : Loopy)) ||| ((d &&& 0x03).setWidth 15 <<< 10)).getLsbD k =
      if k = 10 then d.getLsbD 0 else if k = 11 then d.getLsbD 1 else t.getLsbD k := by
  by_cases hk : k < 15
  · interval_cases k <;> simp
  · rw [BitVec.getLsbD_of_ge _ _ (by omega), if_neg (by omega), if_neg (by omega),
      BitVec.getLsbD_of_ge _ _ (by omega)]

/-! ### The register writes, over the fields -/

/-- `v + Inc()` with numbers (R172). -/
theorem Ppu.v_inc (p : Ppu) :
    p.v + p.inc = BitVec.ofNat 15 (p.v.toNat + if p.ctrl1.getLsbD 2 = true then 32 else 1) := by
  apply BitVec.eq_of_toNat_eq
  unfold Ppu.inc Ppu.incMode
  by_cases h : p.ctrl1.getLsbD 2 = true
  · simp only [h, if_true]; simp
  · simp only [h]; simp

theorem Ppu.v_setWidth (p : Ppu) : p.v.setWidth 14 = BitVec.ofNat 14 p.v.toNat := by
  apply BitVec.eq_of_toNat_eq; simp

theorem Ppu.write2005_first (p : Ppu) (d : Byte) (h : p.w = false) :
    p.write2005 d = { p with
      t := setCoarseX p.t ((d >>> 3).setWidth 5), fineX := d.setWidth 3, w := true } := by
  rw [Ppu.write2005, h, scroll_first, lowThree_eq]; rfl

theorem Ppu.write2005_second (p : Ppu) (d : Byte) (h : p.w = true) :
    p.write2005 d = { p with
      t := setCoarseY (setFineY p.t (d.setWidth 3)) ((d >>> 3).setWidth 5), w := false } := by
  rw [Ppu.write2005, h, scroll_second]; rfl

theorem Ppu.write2006_first (p : Ppu) (d : Byte) (h : p.w = false) :
    p.write2006 d = { p with
      t := (p.t &&& (0x00FF : Loopy)) ||| ((d &&& 0x3F).setWidth 15 <<< 8)
      addrLatch := d, w := true } := by
  rw [Ppu.write2006, h]; rfl

theorem Ppu.write2006_second (p : Ppu) (d : Byte) (h : p.w = true) :
    p.write2006 d = { p with
      t := (p.t &&& (0x7F00 : Loopy)) ||| d.setWidth 15
      v := (p.t &&& (0x7F00 : Loopy)) ||| d.setWidth 15
      addrLatch := d, w := false } := by
  rw [Ppu.write2006, h]; rfl

end Sys2Proof.Machine
end

