-- ==== Sys2Proof/Laws/Render.lean ====
section
/-! SUPPORT. What the renderers leave at a pixel: one lemma for a background row, one for a sprite, one for
the whole sprite pass. -/

namespace Sys2Proof.Machine

theorem pixelKey_inj {r r' c c' : Nat} (h : c < 256) (h' : c' < 256) :
    pixelKey r c = pixelKey r' c' ↔ r = r' ∧ c = c' := by
  unfold pixelKey; omega

theorem pixelKey_lt {r c : Nat} (hr : r < 240) (hc : c < 256) : pixelKey r c < 61440 := by
  unfold pixelKey; omega

/-- The frame buffer and the caches are in canonical form. -/
structure Video.Wf (vd : Video) : Prop where
  fb : vd.fb.wf = true
  bgCache : vd.bgCache.wf = true
  spr0Cache : vd.spr0Cache.wf = true
  spr0Line : vd.spr0Line.wf = true

/-- The frame buffer and the caches list nothing beyond their size. -/
structure Video.Within (vd : Video) : Prop where
  fb : vd.fb.within 61440 = true
  bgCache : vd.bgCache.within 61440 = true
  spr0Cache : vd.spr0Cache.within 61440 = true
  spr0Line : vd.spr0Line.within 240 = true

/-! ### The background -/

/-- A mask of the low `n` bits as a remainder. -/
theorem toNat_and_lowMask {w : Nat} (x : BitVec w) (n : Nat) (m : BitVec w) (hm : m.toNat = 2 ^ n - 1) :
    (x &&& m).toNat = x.toNat % 2 ^ n := by
  rw [BitVec.toNat_and, hm]; exact Nat.and_two_pow_sub_one_eq_mod _ n

/-- The nametable address of `BgTile` as a number (R183). -/
theorem tileAddr_eq (a : Loopy) : (0x2000 ||| (a &&& 0x0FFF).setWidth 14 : PpuAddr) =
    BitVec.ofNat 14 (0x2000 + a.toNat % 0x1000) := by
  apply BitVec.eq_of_toNat_eq
  have h1 : (a &&& 0x0FFF).toNat = a.toNat % 0x1000 := toNat_and_lowMask a 12 0x0FFF rfl
  have h2 : ((a &&& 0x0FFF).setWidth 14 : PpuAddr).toNat = a.toNat % 0x1000 := by
    rw [BitVec.toNat_setWidth, h1]; omega
  rw [BitVec.toNat_or, h2, BitVec.toNat_ofNat]
  have := Nat.shiftLeft_add_eq_or_of_lt (i := 13) (b := a.toNat % 0x1000) (by omega) 1
  rw [show (0x2000 : PpuAddr).toNat = 1 <<< 13 from rfl, ← this]; simp only [Nat.shiftLeft_eq]; omega

/-- The attribute address of `BgTile` as a number (R183). -/
theorem attrAddr_eq (a : Loopy) : ((0x23C0 : PpuAddr) ||| (a &&& 0x0C00).setWidth 14 |||
    (((coarseY a) >>> 2).setWidth 14 <<< 3) ||| ((coarseX a) >>> 2).setWidth 14) =
    BitVec.ofNat 14 (0x23C0 + a.toNat / 1024 % 4 * 0x400 + a.toNat / 32 % 32 / 4 * 8 +
      a.toNat % 32 / 4) := by
  have e1 : ((a &&& 0x0C00).setWidth 14 : PpuAddr) = (ntSelect a).setWidth 14 <<< 10 := by
    apply BitVec.eq_of_getLsbD_eq; intro i hi; interval_cases i <;> simp [ntSelect]
  have e2 : ((coarseY a) >>> 2).setWidth 14 = ((((coarseY a) >>> 2).setWidth 3).setWidth 14 : PpuAddr) := by
    apply BitVec.eq_of_getLsbD_eq; intro i hi; interval_cases i <;> simp
  have e3 : ((coarseX a) >>> 2).setWidth 14 = ((((coarseX a) >>> 2).setWidth 3).setWidth 14 : PpuAddr) := by
    apply BitVec.eq_of_getLsbD_eq; intro i hi; interval_cases i <;> simp
  have key : ∀ (n : BitVec 2) (y x : BitVec 3), ((0x23C0 : PpuAddr) ||| n.setWidth 14 <<< 10 ||| y.setWidth 14 <<< 3 ||| x.setWidth 14).toNat = 0x23C0 + n.toNat * 0x400 + y.toNat * 8 + x.toNat := by decide
  have h1 := ntSelect_toNat a
  have h2 : (((coarseY a) >>> 2).setWidth 3).toNat = a.toNat / 32 % 32 / 4 := by
    rw [BitVec.toNat_setWidth, BitVec.toNat_ushiftRight, coarseY_toNat, Nat.shiftRight_eq_div_pow]; omega
  have h3 : (((coarseX a) >>> 2).setWidth 3).toNat = a.toNat % 32 / 4 := by
    rw [BitVec.toNat_setWidth, BitVec.toNat_ushiftRight, coarseX_toNat, Nat.shiftRight_eq_div_pow]; omega
  apply BitVec.eq_of_toNat_eq
  rw [e1, e2, e3, key, h1, h2, h3, BitVec.toNat_ofNat]
  omega

theorem quadrantShift_eq (a : Loopy) :
    quadrantShift a = 4 * (a.toNat / 32 % 32 / 2 % 2) + 2 * (a.toNat % 32 / 2 % 2) := by
  have key : ∀ y x : BitVec 5, (((y &&& (2 : BitVec 5)) <<< 1) ||| (x &&& (2 : BitVec 5))).toNat = 4 * (y.toNat / 2 % 2) + 2 * (x.toNat / 2 % 2) := by decide
  rw [quadrantShift, key, coarseY_toNat, coarseX_toNat]

theorem planePixel_toNat (lo hi : Byte) (b : Nat) :
    (planePixel lo hi b).toNat = lo.toNat / 2 ^ b % 2 + 2 * (hi.toNat / 2 ^ b % 2) := by
  have h (x : Byte) : (BitVec.ofBool (x.getLsbD b)).toNat = x.toNat / 2 ^ b % 2 := by
    rw [BitVec.toNat_ofBool, BitVec.getLsbD, Nat.testBit_eq_decide_div_mod_eq]
    rcases Nat.mod_two_eq_zero_or_one (x.toNat / 2 ^ b) with h | h <;> simp [h]
  rw [planePixel, BitVec.toNat_append, ← Nat.shiftLeft_add_eq_or_of_lt (BitVec.isLt _), h, h, Nat.shiftLeft_eq]; omega

theorem State.drawBgPixel_in (s : State) (row c : Nat) (t : BgTile) (vd : Video) (i : Nat)
    (h : s.ppu.fineX.toNat ≤ 8 * c + i ∧ 8 * c + i - s.ppu.fineX.toNat ≤ 255) :
    s.drawBgPixel row c t vd i =
      { vd with
        fb := vd.fb.write (pixelKey row (8 * c + i - s.ppu.fineX.toNat))
          (s.ppuRead (0x3F00 + paletteIndex t.group (tilePixel t i)))
        bgCache := vd.bgCache.write (pixelKey row (8 * c + i - s.ppu.fineX.toNat)) (tilePixel t i) } := by
  simp only [State.drawBgPixel, if_pos h]

theorem State.drawBgPixel_out (s : State) (row c : Nat) (t : BgTile) (vd : Video) (i : Nat)
    (h : ¬(s.ppu.fineX.toNat ≤ 8 * c + i ∧ 8 * c + i - s.ppu.fineX.toNat ≤ 255)) :
    s.drawBgPixel row c t vd i = vd := by
  simp only [State.drawBgPixel, if_neg h]

/-- What holds of a `Video` after any number of background pixels of a row were drawn over another. -/
structure RowOver (row : Nat) (vd u : Video) : Prop where
  wf : vd.Wf → u.Wf
  within : row < 240 → vd.Within → u.Within
  other : vd.Wf → ∀ r, r ≠ row → ∀ X < 256,
    u.fb.read (pixelKey r X) = vd.fb.read (pixelKey r X) ∧
    u.bgCache.read (pixelKey r X) = vd.bgCache.read (pixelKey r X)
  sprites : u.spr0Cache = vd.spr0Cache ∧ u.spr0Line = vd.spr0Line

theorem RowOver.refl (row : Nat) (vd : Video) : RowOver row vd vd :=
  ⟨id, fun _ h => h, fun _ _ _ _ _ => ⟨rfl, rfl⟩, rfl, rfl⟩

theorem RowOver.trans {row : Nat} {vd u w : Video} (h : RowOver row vd u) (h' : RowOver row u w) :
    RowOver row vd w where
  wf hw := h'.wf (h.wf hw)
  within hr hw := h'.within hr (h.within hr hw)
  other hw r hr X hX := by
    have h1 := h'.other (h.wf hw) r hr X hX
    have h2 := h.other hw r hr X hX
    exact ⟨h1.1.trans h2.1, h1.2.trans h2.2⟩
  sprites := ⟨h'.sprites.1.trans h.sprites.1, h'.sprites.2.trans h.sprites.2⟩

theorem State.drawBgPixel_over (s : State) (row c : Nat) (t : BgTile) (vd : Video) (i : Nat) :
    RowOver row vd (s.drawBgPixel row c t vd i) := by
  by_cases h : s.ppu.fineX.toNat ≤ 8 * c + i ∧ 8 * c + i - s.ppu.fineX.toNat ≤ 255
  · rw [s.drawBgPixel_in row c t vd i h]
    refine ⟨fun hw => ⟨Cells.write_wf hw.fb _ _, Cells.write_wf hw.bgCache _ _, hw.spr0Cache, hw.spr0Line⟩,
      fun hr hw => ⟨Cells.write_within hw.fb (pixelKey_lt hr (by omega)) _,
        Cells.write_within hw.bgCache (pixelKey_lt hr (by omega)) _, hw.spr0Cache, hw.spr0Line⟩,
      fun hw r hr X hX => ?_, rfl, rfl⟩
    have hne : pixelKey row (8 * c + i - s.ppu.fineX.toNat) ≠ pixelKey r X := fun he =>
      hr ((pixelKey_inj (by omega) hX).1 he).1.symm
    exact ⟨Cells.read_write_ne hw.fb hne _, Cells.read_write_ne hw.bgCache hne _⟩
  · rw [s.drawBgPixel_out row c t vd i h]; exact .refl row vd

theorem State.drawBgPixels (s : State) (row c : Nat) (t : BgTile) (vd : Video) (hw : vd.Wf) (n : Nat) :
    RowOver row vd ((List.range n).foldl (s.drawBgPixel row c t) vd) ∧
    ∀ X < 256,
      (((List.range n).foldl (s.drawBgPixel row c t) vd).fb.read (pixelKey row X) =
        if 8 * c ≤ X + s.ppu.fineX.toNat ∧ X + s.ppu.fineX.toNat < 8 * c + n then
          s.ppuRead (0x3F00 + paletteIndex t.group (tilePixel t (X + s.ppu.fineX.toNat - 8 * c)))
        else vd.fb.read (pixelKey row X)) ∧
      (((List.range n).foldl (s.drawBgPixel row c t) vd).bgCache.read (pixelKey row X) =
        if 8 * c ≤ X + s.ppu.fineX.toNat ∧ X + s.ppu.fineX.toNat < 8 * c + n then
          tilePixel t (X + s.ppu.fineX.toNat - 8 * c)
        else vd.bgCache.read (pixelKey row X)) := by
  induction n with
  | zero =>
    refine ⟨.refl row vd, fun X _ => ?_⟩
    simp only [List.range_zero, List.foldl_nil]
    constructor <;> (rw [if_neg]; omega)
  | succ n ih =>
    obtain ⟨ho, ih⟩ := ih
    rw [List.range_succ, List.foldl_append, List.foldl_cons, List.foldl_nil]
    refine ⟨ho.trans (s.drawBgPixel_over row c t _ n), fun X hX => ?_⟩
    obtain ⟨ih1, ih2⟩ := ih X hX
    have hw' := ho.wf hw
    by_cases h : s.ppu.fineX.toNat ≤ 8 * c + n ∧ 8 * c + n - s.ppu.fineX.toNat ≤ 255
    · rw [s.drawBgPixel_in row c t _ n h]
      simp only
      rw [Cells.read_write hw'.fb, Cells.read_write hw'.bgCache, ih1, ih2]
      by_cases he : 8 * c + n - s.ppu.fineX.toNat = X
      · have hn : X + s.ppu.fineX.toNat - 8 * c = n := by omega
        rw [he, if_pos rfl, if_pos rfl, if_pos (by omega), if_pos (by omega), hn]
        exact ⟨rfl, rfl⟩
      · have hk : pixelKey row (8 * c + n - s.ppu.fineX.toNat) ≠ pixelKey row X := fun hk =>
          he ((pixelKey_inj (by omega) hX).1 hk).2
        rw [if_neg hk, if_neg hk]
        by_cases hin : 8 * c ≤ X + s.ppu.fineX.toNat ∧ X + s.ppu.fineX.toNat < 8 * c + n
        · rw [if_pos hin, if_pos hin, if_pos (by omega), if_pos (by omega)]; exact ⟨rfl, rfl⟩
        · rw [if_neg hin, if_neg hin, if_neg (by omega), if_neg (by omega)]; exact ⟨rfl, rfl⟩
    · rw [s.drawBgPixel_out row c t _ n h, ih1, ih2]
      by_cases hin : 8 * c ≤ X + s.ppu.fineX.toNat ∧ X + s.ppu.fineX.toNat < 8 * c + n
      · rw [if_pos hin, if_pos hin, if_pos (by omega), if_pos (by omega)]; exact ⟨rfl, rfl⟩
      · rw [if_neg hin, if_neg hin, if_neg (by omega), if_neg (by omega)]; exact ⟨rfl, rfl⟩

theorem walkAddr_hInc (a : Loopy) (n : Nat) : walkAddr (hInc a) n = walkAddr a (n + 1) := by
  induction n with
  | zero => rfl
  | succ n ih => rw [walkAddr, ih]; rfl

/-- A run of tile columns: each pixel it covers shows its own tile's pixel, every other pixel stays
(R182). -/
theorem State.drawBgTiles_read (s : State) (row : Nat) (fy : BitVec 3) (n c : Nat) (a : Loopy)
    (vd : Video) (hw : vd.Wf) :
    RowOver row vd (s.drawBgTiles row fy n c a vd) ∧
    ∀ X < 256,
      let j := X + s.ppu.fineX.toNat
      let t := s.bgTile (walkAddr a (j / 8 - c)) fy
      (8 * c ≤ j → j < 8 * (c + n) →
        (s.drawBgTiles row fy n c a vd).fb.read (pixelKey row X) =
          s.ppuRead (0x3F00 + paletteIndex t.group (tilePixel t (j % 8))) ∧
        (s.drawBgTiles row fy n c a vd).bgCache.read (pixelKey row X) = tilePixel t (j % 8)) ∧
      (¬(8 * c ≤ j ∧ j < 8 * (c + n)) →
        (s.drawBgTiles row fy n c a vd).fb.read (pixelKey row X) = vd.fb.read (pixelKey row X) ∧
        (s.drawBgTiles row fy n c a vd).bgCache.read (pixelKey row X) =
          vd.bgCache.read (pixelKey row X)) := by
  induction n generalizing c a vd with
  | zero =>
    refine ⟨.refl row vd, fun X _ => ⟨fun _ _ => ?_, fun _ => ⟨rfl, rfl⟩⟩⟩
    omega
  | succ n ih =>
    obtain ⟨ho, hp⟩ := s.drawBgPixels row c (s.bgTile a fy) vd hw 8
    obtain ⟨ho', hp'⟩ := ih (c + 1) (hInc a) (s.drawBgTile row c (s.bgTile a fy) vd) (ho.wf hw)
    refine ⟨ho.trans ho', fun X hX => ?_⟩
    obtain ⟨h1, h2⟩ := hp X hX
    obtain ⟨hin, hout⟩ := hp' X hX
    rw [State.drawBgTile, h1, h2] at hout
    refine ⟨fun hc hn => ?_, fun h => ?_⟩
    · by_cases hc' : 8 * (c + 1) ≤ X + s.ppu.fineX.toNat
      · have h := hin hc' (by omega)
        rw [walkAddr_hInc, show (X + s.ppu.fineX.toNat) / 8 - (c + 1) + 1 =
          (X + s.ppu.fineX.toNat) / 8 - c by omega] at h
        exact h
      · have h := hout (fun h => hc' h.1)
        rw [if_pos ⟨hc, by omega⟩, if_pos ⟨hc, by omega⟩,
          show X + s.ppu.fineX.toNat - 8 * c = (X + s.ppu.fineX.toNat) % 8 by omega] at h
        rw [show (X + s.ppu.fineX.toNat) / 8 - c = 0 by omega]
        exact h
    · have h' := hout (fun h' => h ⟨by omega, by omega⟩)
      rw [if_neg (fun h' => h ⟨h'.1, by omega⟩), if_neg (fun h' => h ⟨h'.1, by omega⟩)] at h'
      exact h'

/-! ### The sprites -/

/-- What a pixel of sprite `n` is: the value it shows, if it shows one. -/
abbrev Painting := Nat → Nat → Option (BitVec 2)

/-- The palette byte of value `p` of sprite `n` (R189). -/
def State.spriteByte (s : State) (n : Nat) (p : BitVec 2) : Byte :=
  s.ppuRead (0x3F10 + paletteIndex (s.sprite n).group p)

/-- `F` draws the painting `q` of sprite `n`: it changes the pixels where `q` shows something, tracks
them for sprite 0, and leaves the rest. -/
structure Paints (s : State) (n : Nat) (q : Painting) (F : Video → Video) : Prop where
  wf : ∀ vd, vd.bgCache = s.video.bgCache → vd.Wf → (F vd).Wf
  within : ∀ vd, vd.bgCache = s.video.bgCache → vd.Within → (F vd).Within
  bg : ∀ vd, vd.bgCache = s.video.bgCache → (F vd).bgCache = s.video.bgCache
  fb : ∀ vd, vd.bgCache = s.video.bgCache → vd.Wf → ∀ row < 240, ∀ col < 256,
    (F vd).fb.read (pixelKey row col) = ((q row col).map (s.spriteByte n)).getD
      (vd.fb.read (pixelKey row col))
  cache : ∀ vd, vd.bgCache = s.video.bgCache → vd.Wf → ∀ row < 240, ∀ col < 256,
    (F vd).spr0Cache.read (pixelKey row col) =
      if n = 0 then (q row col).getD (vd.spr0Cache.read (pixelKey row col))
      else vd.spr0Cache.read (pixelKey row col)
  line : ∀ vd, vd.bgCache = s.video.bgCache → vd.Wf → ∀ row < 240,
    ((F vd).spr0On row = true ↔ (n = 0 ∧ ∃ col < 256, (q row col).isSome) ∨ vd.spr0On row = true)

theorem Paints.id (s : State) (n : Nat) : Paints s n (fun _ _ => none) (fun vd => vd) where
  wf _ _ h := h
  within _ _ h := h
  bg _ h := h
  fb _ _ _ _ _ _ _ := rfl
  cache _ _ _ _ _ _ _ := by simp
  line _ _ _ _ _ := by simp

theorem Paints.comp {s : State} {n : Nat} {q q' : Painting} {F F' : Video → Video}
    (h : Paints s n q F) (h' : Paints s n q' F') :
    Paints s n (fun row col => (q' row col).or (q row col)) (fun vd => F' (F vd)) where
  wf vd hb hw := h'.wf _ (h.bg vd hb) (h.wf vd hb hw)
  within vd hb hw := h'.within _ (h.bg vd hb) (h.within vd hb hw)
  bg vd hb := h'.bg _ (h.bg vd hb)
  fb vd hb hw row hr col hc := by
    rw [h'.fb _ (h.bg vd hb) (h.wf vd hb hw) row hr col hc, h.fb vd hb hw row hr col hc]
    cases q' row col <;> rfl
  cache vd hb hw row hr col hc := by
    rw [h'.cache _ (h.bg vd hb) (h.wf vd hb hw) row hr col hc, h.cache vd hb hw row hr col hc]
    split
    · cases q' row col <;> rfl
    · rfl
  line vd hb hw row hr := by
    rw [h'.line _ (h.bg vd hb) (h.wf vd hb hw) row hr, h.line vd hb hw row hr]
    simp only [Option.isSome_or, Bool.or_eq_true]
    constructor
    · rintro (⟨h0, c, hc, hs⟩ | ⟨h0, c, hc, hs⟩ | h)
      · exact .inl ⟨h0, c, hc, .inl hs⟩
      · exact .inl ⟨h0, c, hc, .inr hs⟩
      · exact .inr h
    · rintro (⟨h0, c, hc, hs | hs⟩ | h)
      · exact .inl ⟨h0, c, hc, hs⟩
      · exact .inr (.inl ⟨h0, c, hc, hs⟩)
      · exact .inr (.inr h)

theorem Paints.congr {s : State} {n : Nat} {q q' : Painting} {F : Video → Video} (h : Paints s n q F)
    (hq : ∀ row < 240, ∀ col < 256, q row col = q' row col) : Paints s n q' F where
  wf := h.wf
  within := h.within
  bg := h.bg
  fb vd hb hw row hr col hc := by rw [h.fb vd hb hw row hr col hc, hq row hr col hc]
  cache vd hb hw row hr col hc := by rw [h.cache vd hb hw row hr col hc, hq row hr col hc]
  line vd hb hw row hr := by
    rw [h.line vd hb hw row hr]
    have : (∃ col < 256, (q row col).isSome = true) ↔ ∃ col < 256, (q' row col).isSome = true := by
      constructor <;> rintro ⟨c, hc, h⟩ <;> refine ⟨c, hc, ?_⟩
      · rwa [← hq row hr c hc]
      · rwa [hq row hr c hc]
    rw [this]

theorem Paints.of_eq {s : State} {n : Nat} {q : Painting} {F G : Video → Video} (h : Paints s n q F)
    (he : ∀ vd, vd.bgCache = s.video.bgCache → G vd = F vd) : Paints s n q G where
  wf vd hb hw := by rw [he vd hb]; exact h.wf vd hb hw
  within vd hb hw := by rw [he vd hb]; exact h.within vd hb hw
  bg vd hb := by rw [he vd hb]; exact h.bg vd hb
  fb vd hb := by rw [he vd hb]; exact h.fb vd hb
  cache vd hb := by rw [he vd hb]; exact h.cache vd hb
  line vd hb := by rw [he vd hb]; exact h.line vd hb

/-- A loop whose rounds paint disjoint parts of `q` paints `q`. -/
theorem Paints.loop {s : State} {n : Nat} {q : Painting} (f : Video → Nat → Video) (m : Nat)
    (part : Nat → Nat → Nat → Prop) [∀ i row col, Decidable (part i row col)]
    (h : ∀ i < m, Paints s n (fun row col => if part i row col then q row col else none)
      (fun vd => f vd i)) :
    Paints s n (fun row col => if ∃ i < m, part i row col then q row col else none)
      (fun vd => (List.range m).foldl f vd) := by
  induction m with
  | zero => exact (Paints.id s n).congr (by simp)
  | succ m ih =>
    have h1 := (ih fun i hi => h i (by omega)).comp (h m (by omega))
    simp only [List.range_succ, List.foldl_append, List.foldl_cons, List.foldl_nil]
    refine h1.congr fun row _ col _ => ?_
    by_cases hm : part m row col
    · rw [if_pos hm, if_pos (show ∃ i < m + 1, part i row col from ⟨m, by omega, hm⟩)]
      by_cases he : ∃ i < m, part i row col
      · rw [if_pos he]; cases q row col <;> rfl
      · rw [if_neg he]; cases q row col <;> rfl
    · rw [if_neg hm]
      by_cases he : ∃ i < m, part i row col
      · obtain ⟨i, hi, hp⟩ := he
        rw [if_pos ⟨i, hi, hp⟩, if_pos ⟨i, by omega, hp⟩]; rfl
      · rw [if_neg he, if_neg]
        · rfl
        · rintro ⟨i, hi, hp⟩
          rcases Nat.lt_succ_iff_lt_or_eq.1 hi with h' | rfl
          · exact he ⟨i, h', hp⟩
          · exact hm hp

/-- One pixel of a sprite (R189). -/
theorem State.sprPixel_paints (s : State) (n row col : Nat) (p : BitVec 2) (hr : row < 240)
    (hc : col < 256) :
    Paints s n (fun r c => if (r = row ∧ c = col) ∧ p ≠ 0 ∧
        ¬((s.sprite n).behind = true ∧ s.video.bgCache.read (pixelKey row col) ≠ 0) then some p else none)
      (s.sprPixel n row col p (s.sprite n).group (s.sprite n).behind) := by
  by_cases hs : p ≠ 0 ∧ ¬((s.sprite n).behind = true ∧ s.video.bgCache.read (pixelKey row col) ≠ 0)
  · have heq : ∀ vd, vd.bgCache = s.video.bgCache →
        s.sprPixel n row col p (s.sprite n).group (s.sprite n).behind vd =
          if n = 0 then { vd with
            fb := vd.fb.write (pixelKey row col) (s.spriteByte n p)
            spr0Cache := vd.spr0Cache.write (pixelKey row col) p
            spr0Line := vd.spr0Line.write row 1 }
          else { vd with fb := vd.fb.write (pixelKey row col) (s.spriteByte n p) } := by
      intro vd hb
      have hb' : ¬(((s.sprite n).behind && vd.bgCache.read (pixelKey row col) != 0) = true) := by
        rw [hb]; simpa using hs.2
      simp only [State.sprPixel]
      rw [if_neg hs.1, if_neg hb']; rfl
    have hk := pixelKey_lt hr hc
    constructor
    · intro vd hb hw; rw [heq vd hb]
      split
      · exact ⟨Cells.write_wf hw.fb _ _, hw.bgCache, Cells.write_wf hw.spr0Cache _ _,
          Cells.write_wf hw.spr0Line _ _⟩
      · exact ⟨Cells.write_wf hw.fb _ _, hw.bgCache, hw.spr0Cache, hw.spr0Line⟩
    · intro vd hb hw; rw [heq vd hb]
      split
      · exact ⟨Cells.write_within hw.fb hk _, hw.bgCache, Cells.write_within hw.spr0Cache hk _,
          Cells.write_within hw.spr0Line hr _⟩
      · exact ⟨Cells.write_within hw.fb hk _, hw.bgCache, hw.spr0Cache, hw.spr0Line⟩
    · intro vd hb; rw [heq vd hb]; split <;> exact hb
    · intro vd hb hw r hr' c hc'
      have : (s.sprPixel n row col p (s.sprite n).group (s.sprite n).behind vd).fb =
          vd.fb.write (pixelKey row col) (s.spriteByte n p) := by rw [heq vd hb]; split <;> rfl
      rw [this, Cells.read_write hw.fb]
      by_cases h : r = row ∧ c = col
      · obtain ⟨rfl, rfl⟩ := h
        rw [if_pos rfl, if_pos ⟨⟨rfl, rfl⟩, hs⟩]; rfl
      · rw [if_neg (fun he => h ?_), if_neg (fun he => h he.1)]; rfl
        have := (pixelKey_inj hc hc').1 he
        exact ⟨this.1.symm, this.2.symm⟩
    · intro vd hb hw r hr' c hc'
      rw [heq vd hb]
      by_cases hn : n = 0
      · rw [if_pos hn, if_pos hn]
        simp only
        rw [Cells.read_write hw.spr0Cache]
        by_cases h : r = row ∧ c = col
        · obtain ⟨rfl, rfl⟩ := h
          rw [if_pos rfl, if_pos ⟨⟨rfl, rfl⟩, hs⟩]; rfl
        · rw [if_neg (fun he => h ?_), if_neg (fun he => h he.1)]; rfl
          have := (pixelKey_inj hc hc').1 he
          exact ⟨this.1.symm, this.2.symm⟩
      · rw [if_neg hn, if_neg hn]
    · intro vd hb hw r hr'
      rw [heq vd hb]
      by_cases hn : n = 0
      · rw [if_pos hn]
        simp only [Video.spr0On, Cells.read_write hw.spr0Line]
        by_cases h : row = r
        · subst h
          rw [if_pos rfl]
          simp only [beq_self_eq_true, true_iff]
          exact .inl ⟨hn, col, hc, by
            simp only [and_self, true_and]; rw [if_pos hs]; rfl⟩
        · rw [if_neg h]
          refine ⟨.inr, ?_⟩
          rintro (⟨-, c, -, h'⟩ | h')
          · rw [if_neg (fun he => h he.1.1.symm)] at h'; simp at h'
          · exact h'
      · rw [if_neg hn]; simp [Video.spr0On, hn]
  · refine Paints.of_eq ((Paints.id s n).congr fun r _ c _ => ?_) fun vd hb => ?_
    · rw [if_neg (fun h => hs h.2)]
    · simp only [State.sprPixel]
      by_cases hp : p = 0
      · rw [if_pos hp]
      · rw [if_neg hp, if_pos]
        rw [hb]
        by_contra hcon
        exact hs ⟨hp, by simpa using hcon⟩

/-- Column `i` of a sprite row (R187). -/
theorem State.drawSpritePixel_paints (s : State) (n row : Nat) (lo hi : Byte) (q : Painting)
    (hr : row < 240) (i : Nat)
    (hq : ∀ col < 256, col = (s.sprite n).x.toNat + i →
      q row col =
        let p := planePixel lo hi (if (s.sprite n).flipX then i else 7 - i)
        if p ≠ 0 ∧ ¬((s.sprite n).behind = true ∧ s.video.bgCache.read (pixelKey row col) ≠ 0) then
          some p else none) :
    Paints s n (fun r c => if r = row ∧ c = (s.sprite n).x.toNat + i then q r c else none)
      (fun vd => s.drawSpritePixel n (s.sprite n) row lo hi vd i) := by
  by_cases hc : 255 < (s.sprite n).x.toNat + i
  · refine Paints.of_eq ((Paints.id s n).congr fun r _ c hc' => ?_) fun vd _ => ?_
    · rw [if_neg (fun h => by omega)]
    · simp only [State.drawSpritePixel, if_pos hc]
  · refine Paints.of_eq ((s.sprPixel_paints n row ((s.sprite n).x.toNat + i)
      (planePixel lo hi (if (s.sprite n).flipX then i else 7 - i)) hr (by omega)).congr
        fun r _ c hc' => ?_) fun vd _ => ?_
    · by_cases h : r = row ∧ c = (s.sprite n).x.toNat + i
      · obtain ⟨rfl, rfl⟩ := h
        simp only [and_self, true_and, if_true, hq _ hc' rfl]
      · rw [if_neg (fun h' => h h'.1), if_neg h]
    · simp only [State.drawSpritePixel, if_neg hc]

/-- Sprite `n` paints exactly what `spriteShows` computes from the pixel (R187 to R189). -/
theorem State.drawSprite_paints (s : State) (n : Nat) :
    Paints s n (s.spriteShows n) (fun vd => s.drawSprite vd n) := by
  have hrow : ∀ r < s.ppu.spriteHeight, Paints s n
      (fun row col => if (row : Int) = s.spriteRow (s.sprite n) r then s.spriteShows n row col else none)
      (fun vd => s.drawSpriteRow n (s.sprite n) vd r) := by
    intro r hr
    by_cases hout : s.spriteRow (s.sprite n) r < 0 ∨ 239 < s.spriteRow (s.sprite n) r
    · refine Paints.of_eq ((Paints.id s n).congr fun row h _ _ => ?_) fun vd _ => ?_
      · rw [if_neg (fun he => by omega)]
      · simp only [State.drawSpriteRow, if_pos hout]
    · obtain ⟨row, hrow⟩ : ∃ row : Nat, (row : Int) = s.spriteRow (s.sprite n) r :=
        ⟨(s.spriteRow (s.sprite n) r).toNat, by omega⟩
      have h240 : row < 240 := by omega
      have hcol := Paints.loop (s := s) (n := n) (q := s.spriteShows n)
        (s.drawSpritePixel n (s.sprite n) row
          (s.ppuRead (sprRowAddr s.ppu (s.sprite n).tile
            (if (s.sprite n).flipY then s.ppu.spriteHeight - 1 - r else r)))
          (s.ppuRead (sprRowAddr s.ppu (s.sprite n).tile
            (if (s.sprite n).flipY then s.ppu.spriteHeight - 1 - r else r) + 8))) 8
        (fun i row' col => row' = row ∧ col = (s.sprite n).x.toNat + i)
        (fun i hi => s.drawSpritePixel_paints n row _ _ _ h240 i (fun col _ hc => by
          have hr' : (row : Int) - ((s.sprite n).y.toNat + s.config.params.spriteYOffset) = r := by
            rw [hrow, State.spriteRow]; omega
          have hb : (if (s.sprite n).flipX then col - (s.sprite n).x.toNat
              else 7 - (col - (s.sprite n).x.toNat)) = if (s.sprite n).flipX then i else 7 - i := by
            rw [show col - (s.sprite n).x.toNat = i by omega]
          simp only [State.spriteShows, State.spriteValue, hr', hb]
          rw [if_pos ⟨by omega, by omega, by omega, by omega⟩]
          rfl))
      refine Paints.of_eq (hcol.congr fun row' hr' col hc => ?_) fun vd _ => ?_
      · by_cases he : row' = row
        · subst he
          rw [if_pos hrow]
          by_cases hx : ∃ i < 8, row' = row' ∧ col = (s.sprite n).x.toNat + i
          · rw [if_pos hx]
          · rw [if_neg hx]
            have : s.spriteValue n row' col = none := by
              simp only [State.spriteValue]
              rw [if_neg]
              rintro ⟨-, -, h1, h2⟩
              exact hx ⟨col - (s.sprite n).x.toNat, by omega, rfl, by omega⟩
            simp only [State.spriteShows, this]
        · rw [if_neg (by rintro ⟨_, _, h, -⟩; exact he h), if_neg (fun h => he (by omega))]
      · simp only [State.drawSpriteRow, if_neg hout]
        rw [← hrow, Int.toNat_natCast]
  refine (Paints.loop (s.drawSpriteRow n (s.sprite n)) s.ppu.spriteHeight
    (fun r row _ => (row : Int) = s.spriteRow (s.sprite n) r) hrow).congr fun row _ col _ => ?_
  by_cases hx : ∃ r < s.ppu.spriteHeight, (row : Int) = s.spriteRow (s.sprite n) r
  · rw [if_pos hx]
  · rw [if_neg hx]
    have : s.spriteValue n row col = none := by
      simp only [State.spriteValue]
      rw [if_neg]
      rintro ⟨h1, h2, -, -⟩
      refine hx ⟨((row : Int) - ((s.sprite n).y.toNat + s.config.params.spriteYOffset)).toNat, by omega, ?_⟩
      simp only [State.spriteRow]; omega
    simp only [State.spriteShows, this]

/-! ### The sprite pass -/

/-- The sprites of a list, drawn from its last to its first: the first that shows at a pixel wins, and
sprite 0 is tracked (R187, R189). -/
theorem State.drawSprites (s : State) (l : List Nat) (vd : Video) (hb : vd.bgCache = s.video.bgCache)
    (hw : vd.Wf) :
    let u := l.foldr (fun n vd => s.drawSprite vd n) vd
    u.Wf ∧ (vd.Within → u.Within) ∧ u.bgCache = s.video.bgCache ∧
    (∀ row < 240, ∀ col < 256,
      u.fb.read (pixelKey row col) =
        (l.findSome? fun n => (s.spriteShows n row col).map (s.spriteByte n)).getD
          (vd.fb.read (pixelKey row col)) ∧
      u.spr0Cache.read (pixelKey row col) =
        if 0 ∈ l then (s.spriteShows 0 row col).getD (vd.spr0Cache.read (pixelKey row col))
        else vd.spr0Cache.read (pixelKey row col)) ∧
    (∀ row < 240, u.spr0On row = true ↔
      (0 ∈ l ∧ ∃ col < 256, (s.spriteShows 0 row col).isSome) ∨ vd.spr0On row = true) := by
  induction l with
  | nil => exact ⟨hw, id, hb, fun _ _ _ _ => ⟨rfl, rfl⟩, by simp⟩
  | cons n l ih =>
    obtain ⟨h1, h2, h3, h4, h5⟩ := ih
    have hp := s.drawSprite_paints n
    refine ⟨hp.wf _ h3 h1, fun h => hp.within _ h3 (h2 h), hp.bg _ h3, fun row hr col hc => ⟨?_, ?_⟩,
      fun row hr => ?_⟩
    · rw [List.foldr_cons, hp.fb _ h3 h1 row hr col hc, (h4 row hr col hc).1, List.findSome?_cons]
      cases s.spriteShows n row col <;> rfl
    · rw [List.foldr_cons, hp.cache _ h3 h1 row hr col hc, (h4 row hr col hc).2]
      by_cases hn : n = 0
      · subst hn
        rw [if_pos rfl, if_pos (List.mem_cons_self)]
        cases s.spriteShows 0 row col <;> simp
      · have : (0 ∈ n :: l) ↔ 0 ∈ l := by simp [Ne.symm hn]
        rw [if_neg hn]; simp only [this]
    · rw [List.foldr_cons, hp.line _ h3 h1 row hr, h5 row hr]
      by_cases hn : n = 0
      · subst hn; simp only [true_and, List.mem_cons, true_or]
        generalize (∃ col < 256, (s.spriteShows 0 row col).isSome = true) = P
        tauto
      · simp only [hn, false_and, List.mem_cons, Ne.symm hn, false_or]

/-- The sprite pass with sprites enabled draws over cleared sprite-zero caches (R186, R187). -/
theorem State.renderSprites_enabled (s : State) (h : s.ppu.spriteEnable = true) :
    s.renderSprites = { s with
      video := (List.range 64).foldr (fun n vd => s.drawSprite vd n)
        { s.video with spr0Cache := [], spr0Line := [] } } := by
  simp only [State.renderSprites, if_pos h, List.foldl_reverse]

theorem State.renderSprites_disabled (s : State) (h : s.ppu.spriteEnable = false) :
    s.renderSprites = { s with video := { s.video with spr0Cache := [], spr0Line := [] } } := by
  simp only [State.renderSprites, h, Bool.false_eq_true, if_false]

end Sys2Proof.Machine
end

