-- ==== Sys2Proof/Laws/Step.lean ====
section
/-! SUPPORT. Every memory operation keeps the canonical form and the mirrors; what the steps of the schedule
are, over chains of accesses. -/

namespace Sys2Proof.Machine

/-! ### The canonical form of the memories -/

/-- No index of `ppu_mem` is an alias (R59). -/
def NoAlias (m : Memory) : Prop := ∀ c ∈ m, c.1 < 0x3000 ∨ (0x3F00 ≤ c.1 ∧ c.1 < 0x3F20)

/-- The three memories are in canonical form and within their size. -/
structure State.MemOk (s : State) : Prop where
  cpuMem : s.cpuMem.ok 65536
  ppuMem : s.ppuMem.ok 16384
  oam : s.oam.ok 256
  noAlias : NoAlias s.ppuMem

/-- The memories right after reset. -/
theorem reset_memOk : State.reset.MemOk := ⟨⟨rfl, rfl⟩, ⟨rfl, rfl⟩, ⟨rfl, rfl⟩, fun _ h => by cases h⟩

theorem NoAlias.within {m : Memory} (h : NoAlias m) : Cells.within 16384 m = true := by
  simp only [Cells.within, List.all_eq_true, decide_eq_true_eq]
  intro c hc
  have := h c hc
  omega

theorem NoAlias.ppuStore {m : Memory} (h : NoAlias m) (mir : Mirroring) (a : PpuAddr) (v : Byte) :
    NoAlias (ppuStore m mir a v) := fun c hc => (mem_ppuStore hc).elim ppuStored_range (h c)

theorem mem_writeChr {l : List (BitVec 13 × Byte)} {m : Memory} {c : Nat × Byte}
    (h : c ∈ writeChr m l) : c.1 < 0x2000 ∨ c ∈ m := by
  unfold writeChr at h
  induction l generalizing m with
  | nil => exact .inr h
  | cons d l ih =>
    obtain h | h := ih h
    · exact .inl h
    · obtain h | h := Cells.mem_write h
      · left
        have := d.1.isLt
        omega
      · exact .inr h

theorem NoAlias.writeChr {m : Memory} (h : NoAlias m) (l : List (BitVec 13 × Byte)) :
    NoAlias (writeChr m l) := fun c hc => by
  obtain h' | h' := mem_writeChr hc
  · left; exact Nat.lt_trans h' (by decide)
  · exact h c h'

theorem writePrg_within {m : Memory} (hm : Cells.within 65536 m = true)
    (l : List (BitVec 15 × Byte)) : Cells.within 65536 (writePrg m l) = true :=
  Cells.foldl_write_within l _ _ (fun c _ => by have := c.1.isLt; omega) hm

/-- The DMA's 256 bytes fill OAM exactly (R176). -/
theorem oam_fill_ok {m : Memory} (hm : m.ok 256) (f : Nat → Byte) : Cells.ok 256 (Cells.fill m 0 256 f) :=
  And.intro (Cells.fill_wf hm.1 0 256 f) (Cells.fill_within hm.2 (Nat.le_of_eq (Nat.zero_add 256)) f)

theorem State.memWrite_memOk {s t : State} {a : Addr} {v : Byte} (hs : s.MemOk)
    (h : s.memWrite a v = .next t) : t.MemOk := by
  obtain ⟨h1, h2, h3, h4⟩ := hs
  obtain ⟨-, h'⟩ | ⟨-, t', h', hc⟩ := s.memWrite_split a v
  · rw [h'] at h; cases h
  · rw [h'] at h; cases h
    obtain ⟨-, rfl⟩ | ⟨-, -, rfl⟩ | ⟨-, rfl⟩ | ⟨-, rfl⟩ | ⟨ha, -, -, -, rfl⟩ | ⟨-, rfl⟩ := hc
    · exact ⟨⟨ramStore_wf h1.1 _ _, ramStore_within h1.2 _ _⟩, h2, h3, h4⟩
    · obtain ⟨p, o, m, he, -, ho, hm⟩ := s.ppuRegWrite_state (BitVec.ofNat 3 (a.toNat % 8)) v
      rw [he]
      have ho' : o.ok 256 := by
        obtain rfl | rfl := ho
        · exact h3
        · exact ⟨Cells.write_wf h3.1 _ _, Cells.write_within h3.2 (by omega) _⟩
      obtain rfl | rfl := hm
      · exact ⟨h1, h2, ho', h4⟩
      · have h5 := h4.ppuStore s.config.mirroring (s.ppu.v.setWidth 14) v
        exact ⟨h1, ⟨ppuStore_wf h2.1 _ _ _, h5.within⟩, ho', h5⟩
    · have h5 := oam_fill_ok h3 (s.pageByte v)
      revert h5
      generalize Cells.fill s.oam 0 256 (s.pageByte v) = o
      exact fun h5 => ⟨h1, h2, h5, h4⟩
    · exact ⟨h1, h2, h3, h4⟩
    · exact ⟨⟨Cells.write_wf h1.1 _ _, Cells.write_within h1.2 (by omega) _⟩, h2, h3, h4⟩
    · obtain ⟨he, -⟩ | ⟨e, he, -⟩ := s.mapperWrite_state a v <;> rw [he]
      · exact ⟨h1, h2, h3, h4⟩
      · have h5 := h4.writeChr e.chr
        exact ⟨⟨writePrg_wf h1.1 _, writePrg_within h1.2 _⟩, ⟨writeChr_wf h2.1 _, h5.within⟩, h3, h5⟩

theorem Touches.memOk {s t : State} (h : Touches s t) (hs : s.MemOk) : t.MemOk := by
  induction h with
  | refl => exact hs
  | @read t _ a ih =>
    exact ⟨by simpa using ih.cpuMem, by simpa using ih.ppuMem, by simpa using ih.oam,
      by simpa using ih.noAlias⟩
  | write _ hw ih => exact State.memWrite_memOk ih hw
  | cpu _ c ih => exact ⟨ih.1, ih.2, ih.3, ih.4⟩

/-! ### The mirrors -/

/-- A store keeps the images of RAM equal (R44). -/
theorem ramMirrored_ramStore {m : Memory} (hm : Cells.wf m = true) (h : RamMirrored m) (a : Addr)
    (v : Byte) : RamMirrored (ramStore m a v) := by
  intro b hb k hk
  rw [read_ramStore hm, read_ramStore hm, h b hb k hk]
  have : (b + 0x800 * k < 0x2000 ∧ (b + 0x800 * k) % 0x800 = a.toNat % 0x800) ↔
      (b < 0x2000 ∧ b % 0x800 = a.toNat % 0x800) := by omega
  simp only [this]

/-- A write that leaves RAM alone keeps its images equal. -/
theorem RamMirrored.congr {m m' : Memory} (h : RamMirrored m) (he : ∀ b < 0x2000, m'.read b = m.read b) :
    RamMirrored m' := by
  intro b hb k hk
  rw [he _ (by omega), he _ (by omega), h b hb k hk]

theorem State.memWrite_ramMirrored {s t : State} {a : Addr} {v : Byte} (hm : Cells.wf s.cpuMem = true)
    (hr : RamMirrored s.cpuMem) (h : s.memWrite a v = .next t) : RamMirrored t.cpuMem := by
  obtain ⟨-, h'⟩ | ⟨-, t', h', hc⟩ := s.memWrite_split a v
  · rw [h'] at h; cases h
  · rw [h'] at h; cases h
    obtain ⟨-, rfl⟩ | ⟨-, -, rfl⟩ | ⟨-, rfl⟩ | ⟨-, rfl⟩ | ⟨ha, -, -, -, rfl⟩ | ⟨-, rfl⟩ := hc
    · exact ramMirrored_ramStore hm hr a v
    · obtain ⟨p, o, m, he, -⟩ := s.ppuRegWrite_state (BitVec.ofNat 3 (a.toNat % 8)) v
      rw [he]; exact hr
    · exact hr
    · exact hr
    · exact hr.congr fun b hb => Cells.read_write_ne hm (by omega) v
    · obtain ⟨he, -⟩ | ⟨e, he, -⟩ := s.mapperWrite_state a v <;> rw [he]
      · exact hr
      · exact hr.congr fun b hb => read_writePrg hm _ (by omega)

/-- The stored images of a write meet a mirrored cell in both places or in neither (R62). -/
theorem ppuStored_nametable {mir : Mirroring} {a : PpuAddr} {n k o : Nat} (hn : n < 4)
    (hk : k ∈ nametableGroup mir n) (ho : o < 0x400) :
    PpuStored mir a (0x2000 + 0x400 * k + o) ↔ PpuStored mir a (0x2000 + 0x400 * n + o) := by
  have hk4 := nametableGroup_lt mir hn hk
  have hc4 : (canon a).toNat / 0x400 % 4 < 4 := Nat.mod_lt _ (by omega)
  have step (x y : Nat) (hx : x < 4) (hy : y < 4) (hxy : y ∈ nametableGroup mir x)
      (h : PpuStored mir a (0x2000 + 0x400 * x + o)) : PpuStored mir a (0x2000 + 0x400 * y + o) := by
    rw [mem_nametableGroup mir hx hy] at hxy
    have hin : ∃ z, z < 4 ∧ z = x ∧ 0x2000 ≤ (canon a).toNat ∧ (canon a).toNat ≤ 0x2FFF ∧
        (canon a).toNat % 0x400 = o ∧ z ∈ nametableGroup mir ((canon a).toNat / 0x400 % 4) := by
      obtain h | ⟨h1, h2, z, hz, h3⟩ | ⟨-, h⟩ | ⟨-, h⟩ := h
      · refine ⟨x, hx, rfl, by omega, by omega, by omega, ?_⟩
        rw [show (canon a).toNat / 0x400 % 4 = x by omega, mem_nametableGroup mir hx hx]
        cases mir <;> simp
      · have := nametableGroup_lt mir hc4 hz
        exact ⟨z, this, by omega, h1, h2, by omega, hz⟩
      · omega
      · omega
    obtain ⟨z, hz4, rfl, h1, h2, h3, hz⟩ := hin
    refine .inr (.inl ⟨h1, h2, y, ?_, by omega⟩)
    rw [mem_nametableGroup mir hc4 hx] at hz
    rw [mem_nametableGroup mir hc4 hy]
    cases mir <;> simp only at hz hxy ⊢ <;> omega
  constructor
  · refine step k n hk4 hn ?_
    rw [mem_nametableGroup mir hn hk4] at hk
    rw [mem_nametableGroup mir hk4 hn]
    cases mir <;> simp only at hk ⊢ <;> omega
  · exact step n k hn hk4 hk

theorem NametablesMirrored.ppuStore {m : Memory} {mir : Mirroring} (hm : Cells.wf m = true)
    (h : NametablesMirrored m mir) (a : PpuAddr) (v : Byte) :
    NametablesMirrored (ppuStore m mir a v) mir := by
  intro n hn k hk o ho
  have he := ppuStored_nametable (a := a) hn hk ho
  by_cases hs : PpuStored mir a (0x2000 + 0x400 * n + o)
  · rw [(read_ppuStore hm mir a v _).1 hs, (read_ppuStore hm mir a v _).1 (he.2 hs)]
  · rw [(read_ppuStore hm mir a v _).2 hs, (read_ppuStore hm mir a v _).2 (fun h' => hs (he.1 h')),
      h n hn k hk o ho]

/-- The palette pair after a write (R63). -/
theorem palette_ppuStore {m : Memory} (hm : Cells.wf m = true)
    (h : m.read 0x3F10 = m.read 0x3F00) (mir : Mirroring) (a : PpuAddr) (v : Byte) :
    (ppuStore m mir a v).read 0x3F10 = (ppuStore m mir a v).read 0x3F00 := by
  have he : PpuStored mir a 0x3F10 ↔ PpuStored mir a 0x3F00 := by
    have hc4 : (canon a).toNat / 0x400 % 4 < 4 := Nat.mod_lt _ (by omega)
    constructor
    · rintro (h | ⟨h1, h2, k, hk, h3⟩ | ⟨h, h'⟩ | ⟨h, h'⟩)
      · exact .inr (.inr (.inl ⟨h.symm, rfl⟩))
      · have := nametableGroup_lt mir hc4 hk; omega
      · omega
      · exact .inl h.symm
    · rintro (h | ⟨h1, h2, k, hk, h3⟩ | ⟨h, h'⟩ | ⟨h, h'⟩)
      · exact .inr (.inr (.inr ⟨h.symm, rfl⟩))
      · have := nametableGroup_lt mir hc4 hk; omega
      · exact .inl h.symm
      · omega
  by_cases hs : PpuStored mir a 0x3F00
  · rw [(read_ppuStore hm mir a v _).1 hs, (read_ppuStore hm mir a v _).1 (he.2 hs)]
  · rw [(read_ppuStore hm mir a v _).2 hs, (read_ppuStore hm mir a v _).2 (fun h' => hs (he.1 h')), h]

/-! ### The steps of the schedule -/

/-- Frame step 2: `VBL` is set, then at most an entry is taken (R180, R193). -/
theorem State.vblankStart_touches (s : State) :
    ∃ u, Touches { s with ppu := { s.ppu with status := s.ppu.status ||| 0x80 } } u ∧
      s.vblankStart = u.goto (.enter .postNmi) := by
  refine ⟨_, ?_, rfl⟩
  simp only
  split
  · exact State.interrupt_touches _ _
  · exact .refl

/-- The mapper's scanline hook changes its own state only (R47, R192). -/
theorem State.mapperIrq_state (s : State) (n : Nat) :
    (s.mapperIrq n).2 = { s with mapperState := (s.mapperIrq n).2.mapperState } := by
  unfold State.mapperIrq
  split <;> rfl

/-- The scanline hook of a plug-in (R180, R192). -/
theorem State.mapperIrq_plugin {s : State} (h : s.config.mapper = .plugin) (n : Nat) :
    s.mapperIrq n =
      ((Config.pluginIrq s.config.mapperNumber n s.mapperState).1,
        { s with mapperState := (Config.pluginIrq s.config.mapperNumber n s.mapperState).2 }) := by
  simp only [State.mapperIrq, h]

/-- The end of a scanline: the mapper's hook, then at most an entry (R180, R192, R194). -/
theorem State.lineDone_touches (s : State) (n : Nat) :
    ∃ u, Touches (s.mapperIrq n).2 u ∧ s.lineDone n =
      u.goto (if n < lastLine s.config.standard then .line (n + 1) else .sprites) := by
  unfold State.lineDone
  generalize s.mapperIrq n = p
  refine ⟨_, ?_, rfl⟩
  cases p.1
  · exact .refl
  · exact State.irqRequest_touches _

/-- The check sets one bit at most (R190). -/
theorem State.s0Check_state (s : State) (n : Nat) :
    s.s0Check n = { s with ppu := { s.ppu with
      status := if s.s0Hit n then s.ppu.status ||| 0x40 else s.ppu.status } } := by
  unfold State.s0Check
  split <;> rfl

theorem firstLine_le (std : VideoStandard) : firstLine std ≤ lastLine std := by cases std <;> decide

theorem lastLine_lt (std : VideoStandard) : lastLine std < 240 := by cases std <;> decide

/-- A run of one step more. -/
theorem core_run_next {s t : State} (h : step s = .next t) (k : Nat) :
    core.run (k + 1) s = core.run k t := by
  have h' : core.step s = .next t := h
  simp only [Host.Core.run, h']

theorem core_run_refused {s : State} {r : Refusal} (h : step s = .refused r) (k : Nat) :
    core.run (k + 1) s = .refused r := by
  have h' : core.step s = .refused r := h
  simp only [Host.Core.run, h']

/-- The only refusal of an instruction is that of the DMA (R13). -/
theorem exec_refused {i : Instr} {s : State} {r : Refusal} (h : exec i s = .refused r) :
    r = .dmaFromSideEffectPage := by
  have wr (u : State) (a : Addr) (v : Byte) (f : State → State)
      (h : onNext (u.memWrite a v) f = .refused r) : r = .dmaFromSideEffectPage := by
    obtain ⟨-, h'⟩ | ⟨-, t, h', -⟩ := u.memWrite_split a v
    · rw [h'] at h; cases h; rfl
    · rw [h'] at h; cases h
  have st (a : Addr) (v : Byte) (h : s.memWrite a v = .refused r) : r = .dmaFromSideEffectPage := by
    obtain ⟨-, h'⟩ | ⟨-, t, h', -⟩ := s.memWrite_split a v
    · rw [h'] at h; cases h; rfl
    · rw [h'] at h; cases h
  cases i with
  | lda m | ldx m | ldy m | adc m | sbc m | and m | ora m | eor m | cmp m | cpx m | cpy m =>
    simp only [exec_lda, exec_ldx, exec_ldy, exec_adc, exec_sbc, exec_and, exec_ora, exec_eor,
      exec_cmp, exec_cpx, exec_cpy] at h
    cases h
  | bit m => rw [exec_bit] at h; cases h
  | sta m | stx m | sty m => exact st _ _ h
  | inc m | dec m => exact wr _ _ _ _ h
  | asl m | lsr m | rol m | ror m =>
    cases m with
    | acc => cases h
    | mem m => exact wr _ _ _ _ h
  | jmp m => rw [exec_jmp] at h; cases h
  | _ => cases h

/-- An instruction never faults (R13, R191). -/
theorem no_fault (r : Fault) : False := by cases r

/-! ### Loading -/

/-- Each byte that the default loader leaves in CPU memory (R209.1). -/
theorem loadPrg_read {l : List (List Byte)} {p q : List Byte} (h : l = [p] ∧ q = p ∨ l = [p, q]) :
    ∃ m, loadPrg [] l = some m ∧ Cells.wf m = true ∧ ∀ a, m.read a =
      if 0x8000 ≤ a ∧ a < 0xC000 then p.getD (a - 0x8000) 0
      else if 0xC000 ≤ a ∧ a < 0x10000 then q.getD (a - 0xC000) 0 else 0 := by
  have w0 : Cells.wf ([] : Memory) = true := rfl
  have key : ∀ q : List Byte, Cells.wf (placeBank (placeBank [] 0x8000 0x4000 p) 0xC000 0x4000 q) = true ∧
      ∀ a, (placeBank (placeBank [] 0x8000 0x4000 p) 0xC000 0x4000 q).read a =
        if 0x8000 ≤ a ∧ a < 0xC000 then p.getD (a - 0x8000) 0
        else if 0xC000 ≤ a ∧ a < 0x10000 then q.getD (a - 0xC000) 0 else 0 := by
    intro q
    have w1 : Cells.wf (placeBank [] 0x8000 0x4000 p) = true := Cells.fill_wf w0 _ _ _
    refine ⟨Cells.fill_wf w1 _ _ _, fun a => ?_⟩
    rw [placeBank, Cells.read_fill w1, placeBank, Cells.read_fill w0, Cells.read_nil]
    split_ifs <;> first | rfl | omega
  obtain ⟨rfl, rfl⟩ | rfl := h
  · exact ⟨_, rfl, key q⟩
  · exact ⟨_, rfl, key q⟩

/-- Each byte that the default loader leaves in PPU memory (R209.1). -/
theorem loadChr_read {l : List (List Byte)} (h : l.length ≤ 1) :
    ∃ m, loadChr [] l = some m ∧ Cells.wf m = true ∧ ∀ a, m.read a =
      if a < 0x2000 then (l.getD 0 []).getD a 0 else 0 := by
  have w0 : Cells.wf ([] : Memory) = true := rfl
  match l, h with
  | [], _ => exact ⟨[], rfl, rfl, fun a => by simp⟩
  | [q], _ =>
    refine ⟨_, rfl, Cells.fill_wf w0 _ _ _, fun a => ?_⟩
    rw [placeBank, Cells.read_fill w0, Cells.read_nil]
    simp

/-- Placing a bank keeps the canonical form and the bound. -/
theorem placeBank_ok {m : Memory} {k base n : Nat} (hm : m.ok k) (h : base + n ≤ k) (bank : List Byte) :
    Cells.ok k (placeBank m base n bank) :=
  And.intro (Cells.fill_wf hm.1 base n _) (Cells.fill_within hm.2 h _)

/-- Placing a bank leaves what lies below it. -/
theorem read_placeBank_below {m : Memory} {base n b : Nat} (hm : Cells.wf m = true) (h : b < base)
    (bank : List Byte) : (placeBank m base n bank).read b = m.read b := by
  rw [placeBank, Cells.read_fill hm, if_neg (by omega)]

/-- The default loader keeps the canonical form and what lies below ROM (R209.1). -/
theorem loadPrg_ok {m m' : Memory} {l : List (List Byte)} (h : loadPrg m l = some m') (hm : m.ok 65536) :
    m'.ok 65536 ∧ ∀ b < 0x8000, m'.read b = m.read b := by
  have key : ∀ p q : List Byte, placeBank (placeBank m 0x8000 0x4000 p) 0xC000 0x4000 q = m' →
      m'.ok 65536 ∧ ∀ b < 0x8000, m'.read b = m.read b := by
    rintro p q rfl
    have h1 := placeBank_ok hm (base := 0x8000) (n := 0x4000) (by omega) p
    refine ⟨placeBank_ok h1 (by omega) q, fun b hb => ?_⟩
    rw [read_placeBank_below h1.1 (by omega), read_placeBank_below hm.1 hb]
  match l, h with
  | [p], h => exact key p p (Option.some.inj h)
  | [p, q], h => exact key p q (Option.some.inj h)

/-- The default loader puts CHR bytes into the pattern tables only (R209.1). -/
theorem loadChr_ok {m m' : Memory} {l : List (List Byte)} (h : loadChr m l = some m') (hm : m.ok 0x2000) :
    m'.ok 0x2000 := by
  match l, h with
  | [], h => exact Option.some.inj h ▸ hm
  | [q], h => exact Option.some.inj h ▸ placeBank_ok hm (by omega) q

/-- The mapper number with numbers: bits 7:4 of the two header bytes (R209.1). -/
theorem Cartridge.mapperNumber_toNat (c : Cartridge) :
    c.mapperNumber.toNat = c.flags7.toNat / 16 * 16 + c.flags6.toNat / 16 := by
  have h0 : c.mapperNumber = (c.flags7 &&& (0xF0 : Byte)) ||| (c.flags6 >>> 4) := rfl
  have h1 : c.flags7 &&& (0xF0 : Byte) = (c.flags7 >>> 4) <<< 4 := by
    apply BitVec.eq_of_getLsbD_eq; intro i hi; interval_cases i <;> simp
  have h2 := c.flags7.isLt
  have h3 := c.flags6.isLt
  have h4 : (c.flags7 &&& (0xF0 : Byte)).toNat = (c.flags7.toNat / 16) <<< 4 := by
    rw [h1]; simp [Nat.shiftRight_eq_div_pow, Nat.shiftLeft_eq]; omega
  have h5 : (c.flags6 >>> 4).toNat = c.flags6.toNat / 16 := by simp [Nat.shiftRight_eq_div_pow]
  rw [h0, BitVec.toNat_or, h4, h5, ← Nat.shiftLeft_add_eq_or_of_lt (by omega),
    Nat.shiftLeft_eq]

/-- What loading answers, if it answers (R209.1). -/
theorem State.load_some {s t : State} {c : Cartridge} (h : s.load c = some t) :
    ∃ m p, loadPrg s.cpuMem c.prg = some m ∧ loadChr s.ppuMem c.chr = some p ∧
      t = { s with
        cpuMem := m, ppuMem := p, mapperState := []
        config := { s.config with
          mirroring := c.mirroring, prgBanks := c.prg.length, chrBanks := c.chr.length
          mapperNumber := c.mapperNumber, mapper := .default } } := by
  unfold State.load at h
  split at h
  · rename_i m p hm hp
    exact ⟨m, p, hm, hp, (Option.some.inj h).symm⟩
  · cases h

/-- `CpuReset` touches the CPU only (R207). -/
theorem State.cpuReset_withCpu (s : State) : s.cpuReset = s.withCpu s.cpuReset.cpu := rfl

theorem State.load_eq (s : State) (c : Cartridge) {m p : Memory} (hm : loadPrg s.cpuMem c.prg = some m)
    (hp : loadChr s.ppuMem c.chr = some p) :
    s.load c = some { s with
      cpuMem := m, ppuMem := p, mapperState := []
      config := { s.config with
        mirroring := c.mirroring, prgBanks := c.prg.length, chrBanks := c.chr.length
        mapperNumber := c.mapperNumber, mapper := .default } } := by
  simp only [State.load, hm, hp]

end Sys2Proof.Machine
end

