-- ==== Sys2Proof/Tests/Slice0.lean ====
section
/-! SUPPORT. Tests: ill-formed instructions refused, words written out from the spec's encodings, one step
per instruction with the values of 95_test_vectors.md, and a witness for the hypotheses of each
statement. -/

namespace Sys2Proof.Tests

open Sys2Proof Sys2Proof.Machine

/-! ### WellFormed: one ill-formed term for each check (empty cells of R75) -/

theorem test_illformed_lda_zpy : Instr.wf (.lda (.mem (.zpy 0))) = false := by decide

theorem test_illformed_adc_zpy : Instr.wf (.adc (.mem (.zpy 0))) = false := by decide

theorem test_illformed_sbc_zpy : Instr.wf (.sbc (.mem (.zpy 0))) = false := by decide

theorem test_illformed_and_zpy : Instr.wf (.and (.mem (.zpy 0))) = false := by decide

theorem test_illformed_ora_zpy : Instr.wf (.ora (.mem (.zpy 0))) = false := by decide

theorem test_illformed_eor_zpy : Instr.wf (.eor (.mem (.zpy 0))) = false := by decide

theorem test_illformed_cmp_zpy : Instr.wf (.cmp (.mem (.zpy 0))) = false := by decide

theorem test_illformed_ldx_zpx : Instr.wf (.ldx (.mem (.zpx 0))) = false := by decide

theorem test_illformed_ldy_absy : Instr.wf (.ldy (.mem (.absy 0))) = false := by decide

theorem test_illformed_cpx_zpx : Instr.wf (.cpx (.mem (.zpx 0))) = false := by decide

theorem test_illformed_cpy_indx : Instr.wf (.cpy (.mem (.indx 0))) = false := by decide

theorem test_illformed_sta_zpy : Instr.wf (.sta (.zpy 0)) = false := by decide

theorem test_illformed_stx_zpx : Instr.wf (.stx (.zpx 0)) = false := by decide

theorem test_illformed_sty_absx : Instr.wf (.sty (.absx 0)) = false := by decide

theorem test_illformed_bit_zpx : Instr.wf (.bit (.zpx 0)) = false := by decide

theorem test_illformed_inc_absy : Instr.wf (.inc (.absy 0)) = false := by decide

theorem test_illformed_dec_indy : Instr.wf (.dec (.indy 0)) = false := by decide

theorem test_illformed_asl_absy : Instr.wf (.asl (.mem (.absy 0))) = false := by decide

theorem test_illformed_lsr_indx : Instr.wf (.lsr (.mem (.indx 0))) = false := by decide

theorem test_illformed_rol_zpy : Instr.wf (.rol (.mem (.zpy 0))) = false := by decide

theorem test_illformed_ror_indy : Instr.wf (.ror (.mem (.indy 0))) = false := by decide

theorem test_illformed_undef_documented : Instr.wf (.undef 0x00) = false := by decide

/-! ### Decode: at least one word of every constructor, from the Encoding lines of R100 to R162; bit 0 of the
word is bit 0 of the first byte -/

theorem test_decode_loads :
    [decodeTableWord 16 0x10A9,
      decodeTableWord 24 0x1234AD,
      decodeTableWord 16 0x40A1,
      decodeTableWord 16 0x40B1,
      decodeTableWord 24 0x1234B9,
      decodeTableWord 16 0x00A2,
      decodeTableWord 16 0x10B6,
      decodeTableWord 24 0x1234BE,
      decodeTableWord 16 0xFFA0,
      decodeTableWord 16 0x10B4,
      decodeTableWord 24 0x1234BC] =
    [some (.lda (.imm 0x10)),
      some (.lda (.mem (.abs 0x1234))),
      some (.lda (.mem (.indx 0x40))),
      some (.lda (.mem (.indy 0x40))),
      some (.lda (.mem (.absy 0x1234))),
      some (.ldx (.imm 0x00)),
      some (.ldx (.mem (.zpy 0x10))),
      some (.ldx (.mem (.absy 0x1234))),
      some (.ldy (.imm 0xFF)),
      some (.ldy (.mem (.zpx 0x10))),
      some (.ldy (.mem (.absx 0x1234)))] := by decide

theorem test_decode_stores :
    [decodeTableWord 24 0x03008D,
      decodeTableWord 16 0x4091,
      decodeTableWord 16 0xF096,
      decodeTableWord 16 0x0394] =
    [some (.sta (.abs 0x0300)),
      some (.sta (.indy 0x40)),
      some (.stx (.zpy 0xF0)),
      some (.sty (.zpx 0x03))] := by decide

theorem test_decode_arith :
    [decodeTableWord 16 0x0169,
      decodeTableWord 16 0xF0E9,
      decodeTableWord 16 0x0F29,
      decodeTableWord 16 0x8009,
      decodeTableWord 16 0xFF49,
      decodeTableWord 16 0x1024,
      decodeTableWord 24 0x20022C,
      decodeTableWord 16 0x10E6,
      decodeTableWord 24 0x0800CE,
      decodeTableWord 8 0xE8,
      decodeTableWord 8 0xC8,
      decodeTableWord 8 0xCA,
      decodeTableWord 8 0x88] =
    [some (.adc (.imm 0x01)),
      some (.sbc (.imm 0xF0)),
      some (.and (.imm 0x0F)),
      some (.ora (.imm 0x80)),
      some (.eor (.imm 0xFF)),
      some (.bit (.zp 0x10)),
      some (.bit (.abs 0x2002)),
      some (.inc (.zp 0x10)),
      some (.dec (.abs 0x0800)),
      some (.inx),
      some (.iny),
      some (.dex),
      some (.dey)] := by decide

theorem test_decode_shifts :
    [decodeTableWord 8 0x0A,
      decodeTableWord 8 0x4A,
      decodeTableWord 8 0x2A,
      decodeTableWord 24 0x03006E,
      decodeTableWord 24 0x12341E] =
    [some (.asl .acc),
      some (.lsr .acc),
      some (.rol .acc),
      some (.ror (.mem (.abs 0x0300))),
      some (.asl (.mem (.absx 0x1234)))] := by decide

theorem test_decode_compares :
    [decodeTableWord 16 0x10C9,
      decodeTableWord 16 0x05E0,
      decodeTableWord 24 0x1234CC] =
    [some (.cmp (.imm 0x10)),
      some (.cpx (.imm 0x05)),
      some (.cpy (.mem (.abs 0x1234)))] := by decide

theorem test_decode_branches :
    [decodeTableWord 16 0x1010,
      decodeTableWord 16 0x0230,
      decodeTableWord 16 0xFB50,
      decodeTableWord 16 0x0170,
      decodeTableWord 16 0x8090,
      decodeTableWord 16 0x01B0,
      decodeTableWord 16 0x05D0,
      decodeTableWord 16 0xFEF0] =
    [some (.bpl 0x10),
      some (.bmi 0x02),
      some (.bvc 0xFB),
      some (.bvs 0x01),
      some (.bcc 0x80),
      some (.bcs 0x01),
      some (.bne 0x05),
      some (.beq 0xFE)] := by decide

theorem test_decode_jumps :
    [decodeTableWord 24 0x12344C,
      decodeTableWord 24 0x12FF6C,
      decodeTableWord 24 0x900020,
      decodeTableWord 8 0x60] =
    [some (.jmp (.abs 0x1234)),
      some (.jmp (.ind 0x12FF)),
      some (.jsr 0x9000),
      some (.rts)] := by decide

theorem test_decode_stack :
    [decodeTableWord 8 0x48,
      decodeTableWord 8 0x08,
      decodeTableWord 8 0x68,
      decodeTableWord 8 0x28,
      decodeTableWord 8 0xAA,
      decodeTableWord 8 0xA8,
      decodeTableWord 8 0x8A,
      decodeTableWord 8 0x98,
      decodeTableWord 8 0xBA,
      decodeTableWord 8 0x9A] =
    [some (.pha),
      some (.php),
      some (.pla),
      some (.plp),
      some (.tax),
      some (.tay),
      some (.txa),
      some (.tya),
      some (.tsx),
      some (.txs)] := by decide

theorem test_decode_flags :
    [decodeTableWord 8 0x18,
      decodeTableWord 8 0x38,
      decodeTableWord 8 0x58,
      decodeTableWord 8 0x78,
      decodeTableWord 8 0xD8,
      decodeTableWord 8 0xF8,
      decodeTableWord 8 0xB8,
      decodeTableWord 8 0xEA,
      decodeTableWord 8 0x00,
      decodeTableWord 8 0x40,
      decodeTableWord 8 0x02,
      decodeTableWord 8 0xFF,
      decodeTableWord 8 0x89] =
    [some (.clc),
      some (.sec),
      some (.cli),
      some (.sei),
      some (.cld),
      some (.sed),
      some (.clv),
      some (.nop),
      some (.brk),
      some (.rti),
      some (.undef 0x02),
      some (.undef 0xFF),
      some (.undef 0x89)] := by decide

/-- Bytes cut short are rejected by name. -/
theorem test_decode_cut_short :
    decodeTableWord 0 0 = none ∧ (decode [0xAD, 0x02]).isOk = false ∧ (decode []).isOk = false := by
  decide

/-! ### One step: start states and what is looked at -/

/-- The base state of 95_test_vectors.md section 0: power-on, `S` = 0xFF, `PC` = 0x8000, vertical mirroring, in a
CPU run with 100 cycles left. -/
def base : State :=
  { State.powerOn with
    cpu := { State.powerOn.cpu with sp := 0xFF, pc := 0x8000, budget := 100 }
    config := { Configuration.powerOn with mirroring := .vertical }
    phase := .running .vblank }

/-- The base state with registers and the packed flags set. -/
def cpu (a x y sp p : Byte) : State :=
  { base with cpu := { base.cpu with a := a, x := x, y := y, sp := sp, flags := Flags.unpack p } }

/-- Bytes stored beforehand, RAM in its four images. -/
def mem (s : State) (l : List (Addr × Byte)) : State := l.foldl (fun s c => s.placeByte c.1 c.2) s

/-- Bytes of PPU memory stored beforehand. -/
def ppu (s : State) (l : List (Nat × Byte)) : State :=
  { s with ppuMem := l.foldl (fun m c => Cells.write m c.1 c.2) s.ppuMem }

/-- The state after one step of the instruction with these bytes at `PC`. -/
def after (s : State) (bs : List Byte) : Option State :=
  match step (mem s ((List.range bs.length).map fun k => (s.cpu.pc + BitVec.ofNat 16 k, bs.getD k 0))) with
  | .next t => some t
  | _ => none

/-- `A`, `X`, `Y`, `S`, `PC`, `P` and the cost out of 100. -/
structure Regs where
  a : Byte
  x : Byte
  y : Byte
  s : Byte
  pc : Addr
  p : Byte
  cost : Int
  deriving DecidableEq, Repr

/-- What is looked at in the CPU. -/
def look (t : State) : Regs :=
  ⟨t.cpu.a, t.cpu.x, t.cpu.y, t.cpu.sp, t.cpu.pc, t.cpu.flags.pack, 100 - t.cpu.budget⟩

/-- The same after a step. -/
def regs (o : Option State) : Option Regs := o.map look

/-- Bytes of CPU memory. -/
def bytes (o : Option State) (l : List Nat) : Option (List Byte) := o.map fun t => l.map t.cpuMem.read

/-- `v`, `t`, `x`, `w`, `addr_latch`, `read_buffer`. -/
def scroll (s : State) : Loopy × Loopy × BitVec 3 × Bool × Byte × Byte :=
  (s.ppu.v, s.ppu.t, s.ppu.fineX, s.ppu.w, s.ppu.addrLatch, s.ppu.readBuffer)

/-- A sequence of CPU writes. -/
def writes (s : State) (l : List (Addr × Byte)) : State :=
  l.foldl (fun s c => match s.memWrite c.1 c.2 with
    | .next t => t
    | _ => s) s

/-! ### One step of each instruction; the vector's number stands in the name -/

theorem test_AM1_lda_zpx :
    regs (after (mem (cpu 0x00 0x20 0x00 0xFF 0x20) [(0x0010, 0x77)]) [0xB5, 0xF0]) =
      some ⟨0x77, 0x20, 0x00, 0xFF, 0x8002, 0x20, 4⟩ := by decide

theorem test_AM2_ldx_zpy :
    regs (after (mem (cpu 0x00 0x00 0x11 0xFF 0x20) [(0x0001, 0x99)]) [0xB6, 0xF0]) =
      some ⟨0x00, 0x99, 0x11, 0xFF, 0x8002, 0xA0, 4⟩ := by decide

theorem test_AM3_lda_indx :
    regs (after (mem (cpu 0x00 0x00 0x00 0xFF 0x20) [(0x00FF, 0x34), (0x0000, 0x02), (0x0234, 0x5A)]) [0xA1, 0xFF]) =
      some ⟨0x5A, 0x00, 0x00, 0xFF, 0x8002, 0x20, 6⟩ := by decide

theorem test_LS4_ldy_imm :
    regs (after (cpu 0x00 0x00 0x00 0xFF 0x20) [0xA0, 0xFF]) =
      some ⟨0x00, 0x00, 0xFF, 0xFF, 0x8002, 0xA0, 2⟩ := by decide

theorem test_AM6_sta_indy :
    regs (after (mem (cpu 0xEE 0x00 0x10 0xFF 0x20) [(0x0040, 0xF8), (0x0041, 0x06)]) [0x91, 0x40]) =
      some ⟨0xEE, 0x00, 0x10, 0xFF, 0x8002, 0x20, 6⟩ ∧
    bytes (after (mem (cpu 0xEE 0x00 0x10 0xFF 0x20) [(0x0040, 0xF8), (0x0041, 0x06)]) [0x91, 0x40]) [0x0708, 0x0F08] =
      some [0xEE, 0xEE] := by decide

theorem test_LS5_sta_abs :
    regs (after (cpu 0x5A 0x00 0x00 0xFF 0x22) [0x8D, 0x00, 0x03]) =
      some ⟨0x5A, 0x00, 0x00, 0xFF, 0x8003, 0x22, 4⟩ ∧
    bytes (after (cpu 0x5A 0x00 0x00 0xFF 0x22) [0x8D, 0x00, 0x03]) [0x0300, 0x0B00, 0x1300, 0x1B00, 0x0301] =
      some [0x5A, 0x5A, 0x5A, 0x5A, 0x00] := by decide

theorem test_LS6_stx_zpy :
    regs (after (cpu 0x00 0x07 0x20 0xFF 0x20) [0x96, 0xF0]) =
      some ⟨0x00, 0x07, 0x20, 0xFF, 0x8002, 0x20, 4⟩ ∧
    bytes (after (cpu 0x00 0x07 0x20 0xFF 0x20) [0x96, 0xF0]) [0x0010, 0x0110] =
      some [0x07, 0x00] := by decide

theorem test_LS7_sty_zpx :
    regs (after (cpu 0x00 0xFF 0x02 0xFF 0x20) [0x94, 0x03]) =
      some ⟨0x00, 0xFF, 0x02, 0xFF, 0x8002, 0x20, 4⟩ ∧
    bytes (after (cpu 0x00 0xFF 0x02 0xFF 0x20) [0x94, 0x03]) [0x0002, 0x0102] =
      some [0x02, 0x00] := by decide

theorem test_E4_adc_overflow :
    regs (after (cpu 0x7F 0x00 0x00 0xFF 0x20) [0x69, 0x01]) =
      some ⟨0x80, 0x00, 0x00, 0xFF, 0x8002, 0xE0, 2⟩ := by decide

theorem test_AL6_adc_decimal_ignored :
    regs (after (cpu 0x09 0x00 0x00 0xFF 0x28) [0x69, 0x01]) =
      some ⟨0x0A, 0x00, 0x00, 0xFF, 0x8002, 0x28, 2⟩ := by decide

theorem test_AL10_sbc_overflow :
    regs (after (cpu 0x80 0x00 0x00 0xFF 0x21) [0xE9, 0x01]) =
      some ⟨0x7F, 0x00, 0x00, 0xFF, 0x8002, 0x61, 2⟩ := by decide

theorem test_AL11_sbc_borrow :
    regs (after (cpu 0x05 0x00 0x00 0xFF 0x20) [0xE9, 0x05]) =
      some ⟨0xFF, 0x00, 0x00, 0xFF, 0x8002, 0xA0, 2⟩ := by decide

theorem test_AL13_and :
    regs (after (cpu 0xF0 0x00 0x00 0xFF 0x20) [0x29, 0x0F]) =
      some ⟨0x00, 0x00, 0x00, 0xFF, 0x8002, 0x22, 2⟩ := by decide

theorem test_AL14_ora :
    regs (after (cpu 0x01 0x00 0x00 0xFF 0x20) [0x09, 0x80]) =
      some ⟨0x81, 0x00, 0x00, 0xFF, 0x8002, 0xA0, 2⟩ := by decide

theorem test_AL15_eor :
    regs (after (cpu 0xFF 0x00 0x00 0xFF 0x20) [0x49, 0xFF]) =
      some ⟨0x00, 0x00, 0x00, 0xFF, 0x8002, 0x22, 2⟩ := by decide

theorem test_AL17_bit :
    regs (after (mem (cpu 0x41 0x00 0x00 0xFF 0xA0) [(0x0010, 0x41)]) [0x24, 0x10]) =
      some ⟨0x41, 0x00, 0x00, 0xFF, 0x8002, 0x60, 3⟩ := by decide

theorem test_AL18_inc :
    regs (after (mem (cpu 0x00 0x00 0x00 0xFF 0x20) [(0x0010, 0xFF)]) [0xE6, 0x10]) =
      some ⟨0x00, 0x00, 0x00, 0xFF, 0x8002, 0x22, 5⟩ ∧
    bytes (after (mem (cpu 0x00 0x00 0x00 0xFF 0x20) [(0x0010, 0xFF)]) [0xE6, 0x10]) [0x0010, 0x1810] =
      some [0x00, 0x00] := by decide

theorem test_M3_dec :
    regs (after (mem (cpu 0x00 0x00 0x00 0xFF 0x20) [(0x0000, 0x01)]) [0xCE, 0x00, 0x08]) =
      some ⟨0x00, 0x00, 0x00, 0xFF, 0x8003, 0x22, 6⟩ ∧
    bytes (after (mem (cpu 0x00 0x00 0x00 0xFF 0x20) [(0x0000, 0x01)]) [0xCE, 0x00, 0x08]) [0x0000, 0x0800, 0x1000, 0x1800] =
      some [0x00, 0x00, 0x00, 0x00] := by decide

theorem test_AL20_inx :
    regs (after (cpu 0x00 0xFF 0x00 0xFF 0x20) [0xE8]) =
      some ⟨0x00, 0x00, 0x00, 0xFF, 0x8001, 0x22, 2⟩ := by decide

/-- R117: 0x7F plus 1 is 0x80, so `N` = 1. -/
theorem test_iny :
    regs (after (cpu 0x00 0x00 0x7F 0xFF 0x20) [0xC8]) =
      some ⟨0x00, 0x00, 0x80, 0xFF, 0x8001, 0xA0, 2⟩ := by decide

/-- R118: 1 minus 1 is 0, so `Z` = 1. -/
theorem test_dex :
    regs (after (cpu 0x00 0x01 0x00 0xFF 0x20) [0xCA]) =
      some ⟨0x00, 0x00, 0x00, 0xFF, 0x8001, 0x22, 2⟩ := by decide

theorem test_AL21_dey :
    regs (after (cpu 0x00 0x00 0x00 0xFF 0x20) [0x88]) =
      some ⟨0x00, 0x00, 0xFF, 0xFF, 0x8001, 0xA0, 2⟩ := by decide

theorem test_SR1_asl :
    regs (after (cpu 0x81 0x00 0x00 0xFF 0x20) [0x0A]) =
      some ⟨0x02, 0x00, 0x00, 0xFF, 0x8001, 0x21, 2⟩ := by decide

theorem test_SR2_lsr :
    regs (after (cpu 0x01 0x00 0x00 0xFF 0x20) [0x4A]) =
      some ⟨0x00, 0x00, 0x00, 0xFF, 0x8001, 0x23, 2⟩ := by decide

theorem test_SR4_rol :
    regs (after (cpu 0x40 0x00 0x00 0xFF 0x21) [0x2A]) =
      some ⟨0x81, 0x00, 0x00, 0xFF, 0x8001, 0xA0, 2⟩ := by decide

theorem test_SR5_ror :
    regs (after (cpu 0x01 0x00 0x00 0xFF 0x21) [0x6A]) =
      some ⟨0x80, 0x00, 0x00, 0xFF, 0x8001, 0xA1, 2⟩ := by decide

theorem test_SR6_ror_abs :
    regs (after (mem (cpu 0x00 0x00 0x00 0xFF 0x20) [(0x0300, 0x02)]) [0x6E, 0x00, 0x03]) =
      some ⟨0x00, 0x00, 0x00, 0xFF, 0x8003, 0x20, 6⟩ ∧
    bytes (after (mem (cpu 0x00 0x00 0x00 0xFF 0x20) [(0x0300, 0x02)]) [0x6E, 0x00, 0x03]) [0x0300] =
      some [0x01] := by decide

theorem test_CP1_cmp :
    regs (after (cpu 0x10 0x00 0x00 0xFF 0x20) [0xC9, 0x20]) =
      some ⟨0x10, 0x00, 0x00, 0xFF, 0x8002, 0xA0, 2⟩ := by decide

theorem test_CP4_cmp :
    regs (after (cpu 0xFF 0x00 0x00 0xFF 0x20) [0xC9, 0x00]) =
      some ⟨0xFF, 0x00, 0x00, 0xFF, 0x8002, 0xA1, 2⟩ := by decide

theorem test_CP5_cpx :
    regs (after (cpu 0x00 0x05 0x00 0xFF 0x20) [0xE0, 0x05]) =
      some ⟨0x00, 0x05, 0x00, 0xFF, 0x8002, 0x23, 2⟩ := by decide

theorem test_CP6_cpy :
    regs (after (cpu 0x00 0x00 0x05 0xFF 0x20) [0xC0, 0x06]) =
      some ⟨0x00, 0x00, 0x05, 0xFF, 0x8002, 0xA0, 2⟩ := by decide

theorem test_BJ1_bne_taken :
    regs (after (cpu 0x00 0x00 0x00 0xFF 0x20) [0xD0, 0x05]) =
      some ⟨0x00, 0x00, 0x00, 0xFF, 0x8007, 0x20, 2⟩ := by decide

theorem test_BJ2_bne_not_taken :
    regs (after (cpu 0x00 0x00 0x00 0xFF 0x22) [0xD0, 0x05]) =
      some ⟨0x00, 0x00, 0x00, 0xFF, 0x8002, 0x22, 2⟩ := by decide

theorem test_BJ3_beq :
    regs (after (cpu 0x00 0x00 0x00 0xFF 0x22) [0xF0, 0xFE]) =
      some ⟨0x00, 0x00, 0x00, 0xFF, 0x8000, 0x22, 2⟩ := by decide

theorem test_BJ4_bcc :
    regs (after (cpu 0x00 0x00 0x00 0xFF 0x20) [0x90, 0x80]) =
      some ⟨0x00, 0x00, 0x00, 0xFF, 0x7F82, 0x20, 2⟩ := by decide

/-- R135, R128: 0x8002 + 127. -/
theorem test_bcs :
    regs (after (cpu 0x00 0x00 0x00 0xFF 0x21) [0xB0, 0x7F]) =
      some ⟨0x00, 0x00, 0x00, 0xFF, 0x8081, 0x21, 2⟩ := by decide

theorem test_BJ5_bpl :
    regs (after ({ base with cpu := { base.cpu with pc := 0x80F0 } }) [0x10, 0x10]) =
      some ⟨0x00, 0x00, 0x00, 0xFF, 0x8102, 0x20, 2⟩ := by decide

theorem test_BJ6_bmi :
    regs (after ({ cpu 0x00 0x00 0x00 0xFF 0xA0 with cpu := { (cpu 0x00 0x00 0x00 0xFF 0xA0).cpu with pc := 0xFFFE } }) [0x30, 0x02]) =
      some ⟨0x00, 0x00, 0x00, 0xFF, 0x0002, 0xA0, 2⟩ := by decide

/-- R132: not taken while `V` = 1. -/
theorem test_bvc :
    regs (after (cpu 0x00 0x00 0x00 0xFF 0x60) [0x50, 0x05]) =
      some ⟨0x00, 0x00, 0x00, 0xFF, 0x8002, 0x60, 2⟩ := by decide

/-- R133: taken while `V` = 1. -/
theorem test_bvs :
    regs (after (cpu 0x00 0x00 0x00 0xFF 0x60) [0x70, 0x05]) =
      some ⟨0x00, 0x00, 0x00, 0xFF, 0x8007, 0x60, 2⟩ := by decide

theorem test_BJ7_jmp :
    regs (after (cpu 0x00 0x00 0x00 0xFF 0x20) [0x4C, 0x34, 0x12]) =
      some ⟨0x00, 0x00, 0x00, 0xFF, 0x1234, 0x20, 3⟩ := by decide

theorem test_AM7_jmp_ind :
    regs (after (mem (cpu 0x00 0x00 0x00 0xFF 0x20) [(0x12FF, 0x00), (0x1200, 0x90), (0x1300, 0xA0)]) [0x6C, 0xFF, 0x12]) =
      some ⟨0x00, 0x00, 0x00, 0xFF, 0x9000, 0x20, 5⟩ := by decide

theorem test_BJ8_jsr :
    regs (after (cpu 0x00 0x00 0x00 0xFF 0x20) [0x20, 0x00, 0x90]) =
      some ⟨0x00, 0x00, 0x00, 0xFD, 0x9000, 0x20, 6⟩ ∧
    bytes (after (cpu 0x00 0x00 0x00 0xFF 0x20) [0x20, 0x00, 0x90]) [0x01FF, 0x01FE] =
      some [0x80, 0x02] := by decide

theorem test_BJ10_jsr_wraps :
    regs (after (cpu 0x00 0x00 0x00 0x00 0x20) [0x20, 0x00, 0x90]) =
      some ⟨0x00, 0x00, 0x00, 0xFE, 0x9000, 0x20, 6⟩ ∧
    bytes (after (cpu 0x00 0x00 0x00 0x00 0x20) [0x20, 0x00, 0x90]) [0x0100, 0x01FF] =
      some [0x80, 0x02] := by decide

theorem test_BJ9_rts :
    regs (after (mem (cpu 0x00 0x00 0x00 0xFD 0x20) [(0x01FE, 0x02), (0x01FF, 0x80)]) [0x60]) =
      some ⟨0x00, 0x00, 0x00, 0xFF, 0x8003, 0x20, 6⟩ := by decide

theorem test_ST1_php :
    regs (after (cpu 0x00 0x00 0x00 0xFF 0xA1) [0x08]) =
      some ⟨0x00, 0x00, 0x00, 0xFE, 0x8001, 0xA1, 3⟩ ∧
    bytes (after (cpu 0x00 0x00 0x00 0xFF 0xA1) [0x08]) [0x01FF] =
      some [0xB1] := by decide

theorem test_ST3_plp :
    regs (after (mem (cpu 0x00 0x00 0x00 0xFE 0xFF) [(0x01FF, 0x00)]) [0x28]) =
      some ⟨0x00, 0x00, 0x00, 0xFF, 0x8001, 0x20, 4⟩ := by decide

theorem test_ST2_plp :
    regs (after (mem (cpu 0x00 0x00 0x00 0xFE 0x20) [(0x01FF, 0xFF)]) [0x28]) =
      some ⟨0x00, 0x00, 0x00, 0xFF, 0x8001, 0xFF, 4⟩ := by decide

theorem test_ST5_pha :
    regs (after (cpu 0x42 0x00 0x00 0x00 0x20) [0x48]) =
      some ⟨0x42, 0x00, 0x00, 0xFF, 0x8001, 0x20, 3⟩ ∧
    bytes (after (cpu 0x42 0x00 0x00 0x00 0x20) [0x48]) [0x0100] =
      some [0x42] := by decide

theorem test_ST6_pla :
    regs (after (mem (cpu 0x00 0x00 0x00 0xFF 0x20) [(0x0100, 0x81)]) [0x68]) =
      some ⟨0x81, 0x00, 0x00, 0x00, 0x8001, 0xA0, 4⟩ := by decide

/-- R146. -/
theorem test_tax :
    regs (after (cpu 0x80 0x00 0x00 0xFF 0x20) [0xAA]) =
      some ⟨0x80, 0x80, 0x00, 0xFF, 0x8001, 0xA0, 2⟩ := by decide

theorem test_ST9_tay :
    regs (after (cpu 0x80 0x00 0x00 0xFF 0x20) [0xA8]) =
      some ⟨0x80, 0x00, 0x80, 0xFF, 0x8001, 0xA0, 2⟩ := by decide

/-- R148. -/
theorem test_txa :
    regs (after (cpu 0x12 0x00 0x00 0xFF 0x20) [0x8A]) =
      some ⟨0x00, 0x00, 0x00, 0xFF, 0x8001, 0x22, 2⟩ := by decide

/-- R149. -/
theorem test_tya :
    regs (after (cpu 0x12 0x00 0xFF 0xFF 0x20) [0x98]) =
      some ⟨0xFF, 0x00, 0xFF, 0xFF, 0x8001, 0xA0, 2⟩ := by decide

theorem test_ST8_tsx :
    regs (after (cpu 0x00 0x00 0x00 0x80 0x20) [0xBA]) =
      some ⟨0x00, 0x80, 0x00, 0x80, 0x8001, 0xA0, 2⟩ := by decide

theorem test_ST7_txs :
    regs (after (cpu 0x00 0x00 0x00 0xFF 0x20) [0x9A]) =
      some ⟨0x00, 0x00, 0x00, 0x00, 0x8001, 0x20, 2⟩ := by decide

/-- R152. -/
theorem test_clc :
    regs (after (cpu 0x00 0x00 0x00 0xFF 0xFF) [0x18]) =
      some ⟨0x00, 0x00, 0x00, 0xFF, 0x8001, 0xFE, 2⟩ := by decide

/-- R153. -/
theorem test_sec :
    regs (after (cpu 0x00 0x00 0x00 0xFF 0x20) [0x38]) =
      some ⟨0x00, 0x00, 0x00, 0xFF, 0x8001, 0x21, 2⟩ := by decide

/-- R154. -/
theorem test_cli :
    regs (after (cpu 0x00 0x00 0x00 0xFF 0xFF) [0x58]) =
      some ⟨0x00, 0x00, 0x00, 0xFF, 0x8001, 0xFB, 2⟩ := by decide

/-- R155. -/
theorem test_sei :
    regs (after (cpu 0x00 0x00 0x00 0xFF 0x20) [0x78]) =
      some ⟨0x00, 0x00, 0x00, 0xFF, 0x8001, 0x24, 2⟩ := by decide

/-- R156. -/
theorem test_cld :
    regs (after (cpu 0x00 0x00 0x00 0xFF 0xFF) [0xD8]) =
      some ⟨0x00, 0x00, 0x00, 0xFF, 0x8001, 0xF7, 2⟩ := by decide

theorem test_FS1_sed :
    regs (after (cpu 0x00 0x00 0x00 0xFF 0x20) [0xF8]) =
      some ⟨0x00, 0x00, 0x00, 0xFF, 0x8001, 0x28, 2⟩ := by decide

theorem test_FS2_clv :
    regs (after (cpu 0x00 0x00 0x00 0xFF 0x60) [0xB8]) =
      some ⟨0x00, 0x00, 0x00, 0xFF, 0x8001, 0x20, 2⟩ := by decide

theorem test_FS3_nop :
    regs (after (cpu 0x00 0x00 0x00 0xFF 0x20) [0xEA]) =
      some ⟨0x00, 0x00, 0x00, 0xFF, 0x8001, 0x20, 2⟩ := by decide

theorem test_FS4_brk :
    regs (after (mem (cpu 0x00 0x00 0x00 0xFF 0x21) [(0xFFFE, 0x00), (0xFFFF, 0x90)]) [0x00, 0xFF]) =
      some ⟨0x00, 0x00, 0x00, 0xFC, 0x9000, 0x35, 7⟩ ∧
    bytes (after (mem (cpu 0x00 0x00 0x00 0xFF 0x21) [(0xFFFE, 0x00), (0xFFFF, 0x90)]) [0x00, 0xFF]) [0x01FF, 0x01FE, 0x01FD] =
      some [0x80, 0x02, 0x31] := by decide

theorem test_FS9_brk_ignores_i :
    regs (after (mem (cpu 0x00 0x00 0x00 0xFF 0x24) [(0xFFFE, 0x00), (0xFFFF, 0x90)]) [0x00, 0x00]) =
      some ⟨0x00, 0x00, 0x00, 0xFC, 0x9000, 0x34, 7⟩ ∧
    bytes (after (mem (cpu 0x00 0x00 0x00 0xFF 0x24) [(0xFFFE, 0x00), (0xFFFF, 0x90)]) [0x00, 0x00]) [0x01FD] =
      some [0x34] := by decide

theorem test_FS5_rti :
    regs (after (mem (cpu 0x00 0x00 0x00 0xFC 0x20) [(0x01FD, 0xF1), (0x01FE, 0x02), (0x01FF, 0x80)]) [0x40]) =
      some ⟨0x00, 0x00, 0x00, 0xFF, 0x8002, 0xF1, 6⟩ := by decide

theorem test_FS6_undef :
    regs (after (cpu 0x00 0x00 0x00 0xFF 0x20) [0x02]) =
      some ⟨0x00, 0x00, 0x00, 0xFF, 0x8001, 0x20, 1⟩ := by decide

/-! ### The bridge, the renderers and the interrupts -/

/-- LS8: a load of 0x2002 clears `VBL`. -/
theorem test_LS8_lda_status :
    ((after { base with ppu := { base.ppu with status := 0x80, addrLatch := 0x05 } } [0xAD, 0x02, 0x20]).map
      fun t => (t.cpu.a, t.cpu.flags.pack, t.ppu.status, t.ppu.w)) = some (0x85, 0xA0, 0x00, false) := by
  decide

/-- AL22: `INC $2007` reads the buffer, then writes at the advanced `v`. -/
theorem test_AL22_inc_data_port :
    ((after (ppu { base with ppu := { base.ppu with v := 0x2000, readBuffer := 0x41 } } [(0x2000, 0x99)])
      [0xEE, 0x07, 0x20]).map fun t => (t.ppu.v, t.ppu.readBuffer, t.ppuMem.read 0x2001,
        t.ppuMem.read 0x2801, t.cpu.flags.pack)) = some (0x2002, 0x99, 0x42, 0x42, 0x20) := by decide

/-- M1: a store to ROM changes nothing under the default mapping. -/
theorem test_M1_rom : bytes (after (cpu 0x12 0 0 0xFF 0x20) [0x8D, 0x00, 0x90]) [0x9000] = some [0x00] := by
  decide

/-- M9: the DMA of page 0x20 is refused. -/
theorem test_M9_dma_refused :
    base.memWrite 0x4014 0x20 = .refused .dmaFromSideEffectPage ∧
    base.memWrite 0x4014 0x40 = .refused .dmaFromSideEffectPage := ⟨rfl, rfl⟩

/-- E2: two reads of 0x2002. -/
theorem test_E2_status_twice :
    let s : State := { base with ppu := { base.ppu with status := 0xC0, addrLatch := 0x3F, w := true } }
    ((s.memRead 0x2002).1, ((s.memRead 0x2002).2.memRead 0x2002).1, (s.memRead 0x2002).2.ppu.w) =
      (0xDF, 0x1F, false) := by decide

/-- E7: the scroll round trip. -/
theorem test_E7_scroll : scroll (writes base [(0x2005, 0x7D), (0x2005, 0x5E)]) =
    (0x0000, 0x616F, 5, false, 0, 0) := by decide

/-- PR3, its first write. -/
theorem test_PR3_scroll_first :
    scroll (writes { base with ppu := { base.ppu with t := 0x7FFF } } [(0x2005, 0x00)]) =
      (0x0000, 0x7FE0, 0, true, 0, 0) := by decide

/-- PR5 and M4: bit 14 of `t` is cleared, and 0x3FF6 is register 0x2006. -/
theorem test_PR5_address :
    scroll (writes { base with ppu := { base.ppu with t := 0x4000 } } [(0x3FF6, 0x21), (0x2006, 0x08)]) =
      (0x2108, 0x2108, 0, false, 0x08, 0) := by decide

/-- PR7: the increment of 32, and the nametable bits from 0x2000 overwritten by the address. -/
theorem test_PR7_increment :
    let s := writes base [(0x2000, 0x04), (0x2006, 0x20), (0x2006, 0x00), (0x2007, 0x33), (0x2007, 0x44)]
    (s.ppuMem.read 0x2000, s.ppuMem.read 0x2020, s.ppu.v, s.ppu.t) = (0x33, 0x44, 0x2040, 0x2000) := by
  decide

/-- PR10: 0x3F30 is 0x3F10, paired with 0x3F00. -/
theorem test_PR10_palette :
    let s := writes base [(0x2006, 0x3F), (0x2006, 0x30), (0x2007, 0x2C)]
    (s.ppuMem.read 0x3F10, s.ppuMem.read 0x3F00, s.ppuMem.read 0x3F30) = (0x2C, 0x2C, 0x00) := by decide

/-- PR13: `v` = 0x7FFF addresses 0x3F1F and wraps. -/
theorem test_PR13_wrap :
    let s := writes { base with ppu := { base.ppu with v := 0x7FFF } } [(0x2007, 0x01)]
    (s.ppuMem.read 0x3F1F, s.ppu.v) = (0x01, 0x0000) := by decide

/-- PR14: `oam_addr` wraps. -/
theorem test_PR14_oam :
    let s := writes base [(0x2003, 0xFF), (0x2004, 0x10), (0x2004, 0x20)]
    (s.oam.read 0xFF, s.oam.read 0x00, s.ppu.oamAddr) = (0x10, 0x20, 0x01) := by decide

/-- PR16: the nametable images of 0x2C05 under each mirroring. -/
theorem test_PR16_mirroring :
    (([.vertical, .horizontal, .oneScreen, .fourScreen] : List Mirroring).map fun mir =>
      [0x2005, 0x2405, 0x2805, 0x2C05].map (ppuStore [] mir 0x2C05 0x5C).read) =
    [[0, 0x5C, 0, 0x5C], [0, 0, 0x5C, 0x5C], [0x5C, 0x5C, 0x5C, 0x5C], [0, 0, 0, 0x5C]] := by decide

/-- RH1 and the examples of R184. -/
theorem test_RH1_hInc : [hInc 0x0C1F, hInc 0x001F, hInc 0x041F, hInc 0x0005] =
    [0x0800, 0x0400, 0x0000, 0x0006] := by decide

/-- RH2 to RH4 and the examples of R185. -/
theorem test_RH2_vInc : [vInc 0x73C0, vInc 0x7BA0, vInc 0x6FFF, vInc 0x73A0, vInc 0x7BE0, vInc 0x7000] =
    [0x03E0, 0x0000, 0x7FFF, 0x0800, 0x0800, 0x0020] := by decide

/-- RH5: the groups of three quadrants. -/
theorem test_RH5_groups :
    ([0x0002, 0x0040, 0x0042].map fun a => ((ppu base [(0x23C0, 0xE4)]).bgTile a 0).group) = [1, 2, 3] := by
  decide

/-- The example of R183. -/
theorem test_R183_tile :
    let s := ppu base [(0x2000, 0x01), (0x23C0, 0xE4), (0x0010, 0xF0), (0x0018, 0x0F)]
    ((s.bgTile 0x0000 0).group, (List.range 8).map (tilePixel (s.bgTile 0x0000 0))) =
      (0, [1, 1, 1, 1, 2, 2, 2, 2]) := by decide

/-- RH6 and the examples of R188. -/
theorem test_RH6_sprite_rows :
    let tall : Ppu := { Ppu.powerOn with ctrl1 := 0x20 }
    [sprRowAddr tall 0x02 0, sprRowAddr tall 0x02 15, sprRowAddr tall 0x03 9,
      sprRowAddr { Ppu.powerOn with ctrl1 := 0x08 } 0x02 3] = [0x0020, 0x0037, 0x1031, 0x1023] := by decide

/-- The palette and pattern of RH7. -/
def rh7 (x : BitVec 3) : State :=
  ppu { base with ppu := { base.ppu with ctrl2 := 0x08, fineX := x } }
    [(0x2000, 0x01), (0x0010, 0xF0), (0x0018, 0x0F), (0x3F00, 0x0F), (0x3F01, 0x11), (0x3F02, 0x12),
      (0x3F03, 0x13)]

/-- RH7: the first three pixels are scrolled off; the first tile column alone is drawn. -/
theorem test_RH7_fine_scroll :
    let t := (rh7 3).drawBgTile 8 0 ((rh7 3).bgTile 0 0) (rh7 3).video
    ((List.range 5).map fun c => (t.fb.read (pixelKey 8 c), t.bgCache.read (pixelKey 8 c))) =
      [(0x11, 1), (0x12, 2), (0x12, 2), (0x12, 2), (0x12, 2)] := by decide

/-- The patterns and palettes of SP1 to SP4 with sprite 0 given. -/
def sp (attr : Byte) : State :=
  ppu { base with
    ppu := { base.ppu with ctrl2 := 0x10 }
    oam := [(0, 9), (1, 1), (2, attr), (3, 20)].foldl (fun m c => Cells.write m c.1 c.2) [] }
    [(0x0010, 0x80), (0x3F11, 0x31)]

/-- SP2: the horizontal flip. -/
theorem test_SP2_flip_x :
    let t := (sp 0x40).drawSprite (sp 0x40).video 0
    ([26, 27].map fun c => t.fb.read (pixelKey 10 c)) = [0x00, 0x31] := by decide

/-- SP3: the vertical flip. -/
theorem test_SP3_flip_y :
    let t := (sp 0x80).drawSprite (sp 0x80).video 0
    ([10, 17].map fun r => t.fb.read (pixelKey r 20)) = [0x00, 0x31] := by decide

/-- SP4: behind an opaque background pixel, and not tracked. -/
theorem test_SP4_behind :
    let vd : Video := { fb := [(pixelKey 10 20, 0x44)], bgCache := [(pixelKey 10 20, 1)], spr0Cache := [], spr0Line := [] }
    let t := ({ sp 0x20 with video := vd } : State).drawSprite vd 0
    (t.fb.read (pixelKey 10 20), t.spr0On 10) = (0x44, false) := by decide

/-- SP5 and SP6: off the bottom and the right edge nothing is drawn. -/
theorem test_SP5_edges :
    let s (y x : Byte) : State := ppu { base with
      oam := [(0, y), (1, 1), (3, x)].foldl (fun m c => Cells.write m c.1 c.2) [] }
      [(0x0010, 0xFF), (0x3F11, 0x31)]
    let t := (s 0xEE 0xFC).drawSprite base.video 0
    ([251, 252, 255, 256].map fun c => t.fb.read (pixelKey 239 c)) = [0x00, 0x31, 0x31, 0x00] ∧
      ((s 0xEF 0x00).drawSprite base.video 0).fb = [] := by decide

/-- SP7: with sprites disabled the caches are cleared. -/
theorem test_SP7_disabled :
    let s : State := { base with video := { base.video with spr0Line := [(10, 1)] } }
    (s.video.spr0On 10, s.renderSprites.video.spr0On 10) = (true, false) := by decide

/-- R190: a hit on row 104 is found by the check of scanline 105 and by no other. -/
theorem test_R190_latency :
    let s : State := { base with video :=
      { fb := [], bgCache := [(pixelKey 104 40, 1)], spr0Cache := [(pixelKey 104 40, 1)], spr0Line := [(104, 1)] } }
    ([104, 105, 106].map fun n => (s.s0Check n).ppu.status) = [0x00, 0x40, 0x00] := by decide

/-- IN1: the entry pushes the stored `B`, clears it and charges 7. -/
theorem test_IN1_interrupt :
    let s := mem { base with cpu := { base.cpu with pc := 0x8123, flags := Flags.unpack 0x31, budget := 0 } }
      [(0xFFFA, 0x00), (0xFFFB, 0xC0)]
    let t := s.interrupt 0xFFFA
    ([0x1FF, 0x1FE, 0x1FD].map t.cpuMem.read, t.cpu.sp, t.cpu.pc, t.cpu.flags.pack, t.cpu.budget) =
      ([0x81, 0x23, 0x31], 0xFC, 0xC000, 0x25, -7) := by decide

/-- IN2: a masked request is lost. -/
theorem test_IN2_masked :
    (cpu 0 0 0 0xFF 0x24).irqRequest = cpu 0 0 0 0xFF 0x24 := by decide

/-- IN4: the NMI is taken although `I` = 1. -/
theorem test_IN4_nmi :
    let s := mem { cpu 0 0 0 0xFF 0x24 with ppu := { base.ppu with ctrl1 := 0x80 } }
      [(0xFFFA, 0x00), (0xFFFB, 0x90)]
    let t := s.vblankStart
    (t.cpuMem.read 0x1FD, t.cpu.sp, t.cpu.pc, t.ppu.status, t.phase) =
      (0x24, 0xFC, 0x9000, 0x80, .enter .postNmi) := by decide

/-- E3: CPU reset. -/
theorem test_E3_reset :
    let t := (mem (cpu 1 2 3 4 0xFF) [(0xFFFC, 0x34), (0xFFFD, 0xC2)]).cpuReset
    look t = ⟨0, 0, 0, 0xFF, 0xC234, 0x22, 0⟩ := by decide

/-- `State.reset` is power-on with nothing loaded, then `CpuReset` (R208). -/
theorem test_reset_is_cpuReset : State.reset = State.powerOn.cpuReset := by decide

/-- The very next step runs the host's word. -/
theorem test_withFetchWord :
    ((match step (State.reset.withFetchWord 16 0x42A9) with
      | .next t => some (t.cpu.a, t.cpu.pc, t.cpu.flags.pack)
      | _ => none)) = some (0x42, 0x0002, 0x20) := by decide

/-! ### Witnesses: states and operands that meet the hypotheses of each statement -/

/-- The base state has the invariants. -/
theorem base_canonical : base.Canonical :=
  { cpuMem := ⟨rfl, rfl⟩, ppuMem := ⟨rfl, rfl⟩, oam := ⟨rfl, rfl⟩, fb := ⟨rfl, rfl⟩
    bgCache := ⟨rfl, rfl⟩, spr0Cache := ⟨rfl, rfl⟩, spr0Line := ⟨rfl, rfl⟩
    noAlias := fun _ h => (nomatch h)
    line := fun _ h => (nomatch h) }

theorem base_mirrored : base.Mirrored :=
  { ram := fun _ _ _ _ => rfl, palette := rfl, nametables := fun _ _ _ _ _ _ _ => rfl }

theorem base_tracked : base.video.SpriteZeroTracked := fun _ _ =>
  ⟨fun h => (nomatch h), fun ⟨_, _, h⟩ => absurd rfl h⟩

theorem witness_DecodeOfEncode : ∃ i : Instr, i.wf = true := ⟨.lda (.mem (.indy 0xFF)), by decide⟩

theorem witness_EncodeOfDecode : ∃ bs i rest, decode bs = .ok (i, rest) :=
  ⟨[0x8D, 0x00, 0x03, 0xEA], .sta (.abs 0x0300), [0xEA], rfl⟩

theorem witness_StepRunsDecoded : ∃ (s : State) (r : Run) (i : Instr),
    s.phase = .running r ∧ 0 < s.cpu.budget ∧ i.wf = true ∧
    ∀ (k : Nat) (h : k < (encode i).length),
      plainAddr (s.cpu.pc + BitVec.ofNat 16 k) = true ∧
      s.cpuMem.read (s.cpu.pc + BitVec.ofNat 16 k).toNat = (encode i)[k] :=
  ⟨mem base [(0x8000, 0x8D), (0x8002, 0x03)], .vblank, .sta (.abs 0x0300), rfl, by decide, by decide,
    fun k h => match k, h with
      | 0, _ => ⟨by decide, rfl⟩
      | 1, _ => ⟨by decide, rfl⟩
      | 2, _ => ⟨by decide, rfl⟩⟩

/-- Bytes fetched at 0x2002 that ask for none, one and two operand bytes: NOP, LDA immediate, STA absolute. -/
theorem witness_StepRunsDecoded_registers :
    let at2002 (status latch : Byte) : State := { base with
      cpu := { base.cpu with pc := 0x2002 }
      ppu := { base.ppu with status := status, addrLatch := latch } }
    (∃ i, PlainForm ((at2002 0xE0 0x0A).memRead 0x2002).1 i) ∧
    (∃ f, ByteForm ((at2002 0xA0 0x09).memRead 0x2002).1 f) ∧
    (∃ f, WordForm ((at2002 0x80 0x0D).memRead 0x2002).1 f) ∧
    (at2002 0xE0 0x0A).phase = .running .vblank ∧ 0 < (at2002 0xE0 0x0A).cpu.budget :=
  ⟨⟨.nop, fun _ => rfl⟩, ⟨fun n => .lda (.imm n), fun _ _ => rfl⟩,
    ⟨fun a => .sta (.abs a), fun _ _ _ => rfl⟩, rfl, by decide⟩

/-- Executing at 0x2002 reads the status register (R69): the byte 0xEA is a NOP, and `VBL`, `S0` and `w`
are cleared (R173). -/
theorem test_fetch_from_status :
    ((match step { base with
        cpu := { base.cpu with pc := 0x2002 }
        ppu := { base.ppu with status := 0xE0, addrLatch := 0x0A, w := true } } with
      | .next t => some (t.cpu.pc, t.ppu.status, t.ppu.w)
      | _ => none) = some (0x2003, 0x20, false)) := by decide

theorem witness_FrameSchedule :
    (∃ s : State, s.phase = .enter (.scanline 8)) ∧ (∃ s : State, s.phase = .running .startup ∧ s.cpu.budget ≤ 0) ∧
    (∃ s : State, s.phase = .vblankStart ∧ s.ppu.ctrl1.getLsbD 7 = true) ∧ (∃ s : State, s.phase = .vblankEnd) ∧
    (∃ s : State, s.phase = .latchScroll) ∧ (∃ s : State, s.phase = .line 0) ∧
    (∃ s : State, s.phase = .lineEnd 230 ∧ s.config.mapper = .plugin ∧ s.config.standard = .ntsc) ∧
    (∃ s : State, s.phase = .lineEnd 231 ∧ s.config.mapper = .default ∧ s.config.standard = .ntsc) ∧
    (∃ s : State, s.phase = .lineEnd 238 ∧ s.config.standard = .pal) ∧
    (∃ s : State, s.phase = .lineEnd 239 ∧ s.config.standard = .pal) ∧
    (∃ s : State, s.phase = .sprites) ∧ (∃ s : State, s.phase = .present) ∧ (∃ s : State, s.phase = .input) ∧
    (∃ s : State, s.phase = .boundary) ∧ (∃ s : State, s.phase = .halted) :=
  ⟨⟨base.goto _, rfl⟩, ⟨{ base.goto (.running .startup) with cpu := { base.cpu with budget := 0 } }, rfl, by decide⟩,
    ⟨{ base.goto .vblankStart with ppu := { base.ppu with ctrl1 := 0x80 } }, rfl, by decide⟩, ⟨base.goto _, rfl⟩,
    ⟨base.goto _, rfl⟩, ⟨base.goto _, rfl⟩,
    ⟨{ base.goto (.lineEnd 230) with config := { base.config with mapper := .plugin } }, rfl, rfl, rfl⟩,
    ⟨base.goto (.lineEnd 231), rfl, rfl, rfl⟩,
    ⟨{ base.goto (.lineEnd 238) with config := { base.config with standard := .pal } }, rfl, rfl⟩,
    ⟨{ base.goto (.lineEnd 239) with config := { base.config with standard := .pal } }, rfl, rfl⟩,
    ⟨base.goto _, rfl⟩, ⟨base.goto _, rfl⟩, ⟨base.goto _, rfl⟩, ⟨base.goto _, rfl⟩, ⟨base.goto _, rfl⟩⟩

theorem witness_CpuRunEnds : ∃ (s : State) (r : Run), s.phase = .running r ∧
    1 ≤ s.config.params.undefCycles ∧ s.config.params.undefCycles ≤ 7 ∧ 0 < s.cpu.budget :=
  ⟨base, .vblank, rfl, by decide, by decide, by decide⟩

theorem witness_BootMapsTheBanks :
    (∃ (c : Cartridge) (p q : List Byte), (c.prg = [p] ∧ q = p) ∧ c.chr.length ≤ 1) ∧
    (∃ (c : Cartridge) (p q : List Byte), c.prg = [p, q] ∧ c.chr.length ≤ 1) :=
  ⟨⟨⟨[[1]], [], 0, 0⟩, [1], [1], ⟨rfl, rfl⟩, by decide⟩, ⟨⟨[[1], [2]], [[3]], 1, 0⟩, [1], [2], rfl, by decide⟩⟩

theorem witness_ResetHasInvariants : ∃ (c : Cartridge) (s : State), bootState .pal c = some s :=
  ⟨⟨[[1], [2]], [[3]], 1, 0⟩, _, rfl⟩

theorem witness_CycleCosts : (∃ i : Instr, i.wf = true) ∧ ∃ s t : State, s.oamDma 0x41 = .next t :=
  ⟨⟨.undef 0x02, by decide⟩, base, _, rfl⟩

theorem witness_MemoryMapRegions :
    (0x1FFF : Addr).toNat < 0x2000 ∧ 0x2000 ≤ (0x2000 : Addr).toNat ∧ (0x3FFF : Addr).toNat < 0x4000 ∧
    (0x4014 : Addr).toNat = 0x4014 ∧ (0x4016 : Addr).toNat = 0x4016 ∧ 0x4000 ≤ (0x4000 : Addr).toNat ∧
    (0x7FFF : Addr).toNat < 0x8000 ∧ (0x4015 : Addr).toNat ≠ 0x4014 ∧ (0x4015 : Addr).toNat ≠ 0x4016 ∧
    0x8000 ≤ (0x8000 : Addr).toNat := by decide

theorem witness_RamImages : ∃ (s t : State) (a : Addr) (v : Byte), s.cpuMem.wf = true ∧ a.toNat < 0x2000 ∧
    RamMirrored s.cpuMem ∧ s.memWrite a v = .next t :=
  ⟨base, _, 0x1FFF, 0xCD, rfl, by decide, base_mirrored.ram, rfl⟩

theorem witness_RomGoesToTheMapper :
    ∃ (s s' : State) (a : Addr), 0x8000 ≤ a.toNat ∧ s.cpuMem.wf = true ∧ s.ppuMem.wf = true ∧
      s.config.mapper = .default ∧ s'.cpuMem.wf = true ∧ s'.ppuMem.wf = true ∧ s'.config.mapper = .plugin :=
  ⟨base, { base with config := { base.config with mapper := .plugin } }, 0x8000, by decide, rfl, rfl, rfl, rfl,
    rfl, rfl⟩

/-- Both clauses of a store, at the edges of the refused values. -/
theorem witness_StoreResults :
    DmaRefused ((cpu 0x20 0 0 0 0x20).effAddr (.abs 0x4014)) (cpu 0x20 0 0 0 0x20).cpu.a ∧
    DmaRefused 0x4014 0x40 ∧ ¬DmaRefused 0x4014 0x1F ∧ ¬DmaRefused 0x4014 0x41 ∧ ¬DmaRefused 0x0300 0x20 ∧
    base.cpuMem.wf = true := by
  refine ⟨⟨rfl, by decide, by decide⟩, ⟨rfl, by decide, by decide⟩, fun h => absurd h.2.1 (by decide),
    fun h => absurd h.2.2 (by decide), fun h => absurd h.1 (by decide), rfl⟩

/-- INC of 0xFF, DEC of 0, at a plain address; and an INC that starts the refused DMA. -/
theorem witness_IncDecMemoryResults :
    let s := mem base [(0x0010, 0xFF), (0x4014, 0x1F)]
    ((0x00 : Byte).toNat = ((s.memRead (s.effAddr (.zp 0x10))).1.toNat + 1) % 256 ∧
      ¬DmaRefused (s.effAddr (.zp 0x10)) 0x00) ∧
    ((0xFF : Byte).toNat = ((s.memRead (s.effAddr (.zp 0x11))).1.toNat + 255) % 256 ∧
      ¬DmaRefused (s.effAddr (.zp 0x11)) 0xFF) ∧
    (0x20 : Byte).toNat = ((s.memRead (s.effAddr (.abs 0x4014))).1.toNat + 1) % 256 ∧
    DmaRefused (s.effAddr (.abs 0x4014)) 0x20 := by
  refine ⟨⟨by decide, fun h => absurd h.1 (by decide)⟩, ⟨by decide, fun h => absurd h.1 (by decide)⟩, by decide,
    rfl, by decide, by decide⟩

theorem witness_IncDecRegisterResults :
    (0x00 : Byte).toNat = ((cpu 0 0xFF 0xFF 0 0).cpu.x.toNat + 1) % 256 ∧
    (0x00 : Byte).toNat = ((cpu 0 0xFF 0xFF 0 0).cpu.y.toNat + 1) % 256 ∧
    (0xFF : Byte).toNat = (base.cpu.x.toNat + 255) % 256 ∧ (0xFF : Byte).toNat = (base.cpu.y.toNat + 255) % 256 := by
  decide

/-- Each of the four operations has a result byte, on the accumulator and on memory. -/
theorem witness_ShiftResults :
    let s := mem (cpu 0x81 0 0 0xFF 0x21) [(0x0010, 0x81), (0x4014, 0x10)]
    (0x02 : Byte).toNat = s.cpu.a.toNat * 2 % 256 ∧ (0x40 : Byte).toNat = s.cpu.a.toNat / 2 ∧
    (0x03 : Byte).toNat = s.cpu.a.toNat * 2 % 256 + bitNat s.cpu.flags.c ∧
    (0xC0 : Byte).toNat = s.cpu.a.toNat / 2 + 128 * bitNat s.cpu.flags.c ∧
    ((0x02 : Byte).toNat = (s.memRead (s.effAddr (.zp 0x10))).1.toNat * 2 % 256 ∧
      ¬DmaRefused (s.effAddr (.zp 0x10)) 0x02) ∧
    (0x20 : Byte).toNat = (s.memRead (s.effAddr (.abs 0x4014))).1.toNat * 2 % 256 ∧
    DmaRefused (s.effAddr (.abs 0x4014)) 0x20 := by
  refine ⟨by decide, by decide, by decide, by decide, ⟨by decide, fun h => absurd h.1 (by decide)⟩, by decide, rfl,
    by decide, by decide⟩

theorem witness_canonical_memory : ∃ s : State, s.cpuMem.wf = true ∧ s.ppuMem.wf = true ∧ s.oam.wf = true :=
  ⟨base, rfl, rfl, rfl⟩

theorem witness_NopAndUnrecognised : (0x02 : Byte) ∈ undefOpcodes ∧ (0xFF : Byte) ∈ undefOpcodes ∧
    (∃ (s : State) (r : Run), s.phase = .running r ∧ 0 < s.cpu.budget ∧ plainAddr s.cpu.pc = true ∧
      s.cpuMem.read s.cpu.pc.toNat = 0xEA) ∧
    ∃ (s : State) (r : Run), s.phase = .running r ∧ 0 < s.cpu.budget ∧ plainAddr s.cpu.pc = true ∧
      s.cpuMem.read s.cpu.pc.toNat ∈ undefOpcodes :=
  ⟨by decide, by decide, ⟨mem base [(0x8000, 0xEA)], .vblank, rfl, by decide, by decide, by decide⟩,
    ⟨mem base [(0x8000, 0x02)], .vblank, rfl, by decide, by decide, by decide⟩⟩

theorem witness_InterruptEntry : ∃ vec vec' : Addr, vec = 0xFFFA ∧ vec' = 0xFFFE ∧ vec ≠ vec' :=
  ⟨0xFFFA, 0xFFFE, rfl, rfl, by decide⟩

/-- The first and the last image of 0x2002, 0x2007 and of a register with no value of its own. -/
theorem witness_register_images :
    ((0x2002 : Addr).toNat % 8 = 2 ∧ (0x3FFA : Addr).toNat % 8 = 2) ∧
    ((0x2007 : Addr).toNat % 8 = 7 ∧ (0x3FFF : Addr).toNat % 8 = 7) ∧
    ((0x2000 : Addr).toNat % 8 ≠ 7 ∧ (0x2000 : Addr).toNat % 8 ≠ 2) ∧
    ((0x3FFE : Addr).toNat % 8 ≠ 7 ∧ (0x3FFE : Addr).toNat % 8 ≠ 2) := by decide

theorem witness_write_pairs : (∃ s : State, s.ppu.w = false) ∧ ∃ s : State, s.ppu.w = true :=
  ⟨⟨base, rfl⟩, { base with ppu := { base.ppu with w := true } }, rfl⟩

theorem witness_OamDmaCopies :
    (0x20 ≤ (0x20 : Byte).toNat ∧ (0x40 : Byte).toNat ≤ 0x40) ∧ ¬(0x20 ≤ (0x1F : Byte).toNat) ∧
    ¬((0x41 : Byte).toNat ≤ 0x40) := by decide

/-- Cells of each kind of image, and one that is none: PR16, PR8, PR9. -/
theorem witness_PpuWriteImages :
    (canon 0x3405 = canon 0x2405 ∧ canon 0x2C05 ≠ canon 0x2405 ∧ canon 0x3F30 = canon 0x3F10) ∧
    canon 0x3F14 ≠ canon 0x3F04 ∧ base.ppuMem.wf = true ∧ base.config.mirroring = .vertical := by
  refine ⟨by decide, by decide, rfl, rfl⟩

theorem witness_BackgroundRow : ∃ s : State, s.Canonical ∧ s.ppu.ctrl2.getLsbD 4 = false := ⟨base, base_canonical, rfl⟩

theorem witness_SpritePriority : ∃ s : State, s.Canonical ∧ s.ppu.ctrl2.getLsbD 4 = true :=
  ⟨{ base with ppu := { base.ppu with ctrl2 := 0x10 } },
    { base_canonical with }, rfl⟩

theorem witness_SpriteRows :
    Ppu.powerOn.ctrl1.getLsbD 5 = false ∧ (7 : Nat) < 8 ∧
    ({ Ppu.powerOn with ctrl1 := 0x20 } : Ppu).ctrl1.getLsbD 5 = true ∧ (15 : Nat) < 16 := by decide

/-- A hit on the last row of the picture, and none on the row above it. -/
theorem witness_SpriteZeroCheck : ∃ s : State,
    (0 ≤ (240 : Int) - 1 + s.config.params.spr0RowAdjust ∧ (240 : Int) - 1 + s.config.params.spr0RowAdjust ≤ 239 ∧
      s.video.spr0On 239 = true ∧
      ∃ col < 256, s.video.bgCache.read (pixelKey 239 col) ≠ 0 ∧ s.video.spr0Cache.read (pixelKey 239 col) ≠ 0) ∧
    s.video.spr0On 238 = false :=
  ⟨{ base with video :=
      { fb := [], bgCache := [(pixelKey 239 255, 1)], spr0Cache := [(pixelKey 239 255, 1)], spr0Line := [(239, 1)] } },
    ⟨by decide, by decide, by decide, 255, by decide, by decide, by decide⟩, by decide⟩

/-- A store that completes: the premise of the frames. -/
theorem witness_frames : ∃ (s t : State) (a : Nat), s.cpuMem.wf = true ∧ exec (.sta (.abs 0x0300)) s = .next t ∧
    a ∉ s.storedBytes (.sta (.abs 0x0300)) ∧ (a < 0x8000 ∨ s.config.mapper = .default) ∧
    ∀ b ∈ s.accessed (.sta (.abs 0x0300)), s.quiet (.sta (.abs 0x0300)) b := by
  refine ⟨base, _, 0x0301, rfl, rfl, by decide, .inl (by decide), ?_⟩
  intro b hb
  have : b = 0x0300 := by simpa [State.accessed, Instr.memOperand, State.effAddr] using hb
  subst this
  exact ⟨by decide, .inr ⟨by decide, .inl (by decide)⟩⟩

/-- The invariants together, in a state that takes a step. -/
theorem witness_steps : ∃ s t : State,
    s.Canonical ∧ s.Mirrored ∧ s.video.SpriteZeroTracked ∧ step s = .next t :=
  ⟨base, _, base_canonical, base_mirrored, base_tracked, rfl⟩

/-- The same in a state whose step draws: the last scanline of NTSC. -/
theorem witness_steps_drawing : ∃ s t : State, s.Canonical ∧ s.Mirrored ∧ s.video.SpriteZeroTracked ∧
    s.phase = .line 231 ∧ step s = .next t :=
  ⟨base.goto (.line 231), _, { base_canonical with
      line := fun n h => by
        have h' : 231 = n := by simpa [State.goto, Phase.scanline] using h
        subst h'; exact ⟨by decide, by decide⟩ },
    { base_mirrored with }, base_tracked, rfl, rfl⟩

end Sys2Proof.Tests
end

section
/-! PROOFS. What an access to ROM gives (O12), and that an instruction stops only at the refused DMA
(O50). -/

namespace Sys2Proof.Machine

/-! ### ROM and the mapper's write hook -/

theorem State.memRead_rom (s : State) {a : Addr} (h : 0x8000 ≤ a.toNat) :
    s.memRead a = (s.cpuMem.read a.toNat, s) :=
  s.memRead_plain ((plainAddr_iff a).2 (by omega))

theorem State.memWrite_rom (s : State) {a : Addr} (h : 0x8000 ≤ a.toNat) (v : Byte) :
    s.memWrite a v = .next (s.mapperWrite a v) := by
  rw [s.memWrite_cases, if_neg (by omega), if_neg (by omega), if_neg (by omega), if_neg (by omega),
    if_neg (by omega)]

theorem State.mapperWrite_default {s : State} (h : s.config.mapper = .default) (a : Addr) (v : Byte) :
    s.mapperWrite a v = s := by
  simp only [State.mapperWrite, h]

theorem State.mapperWrite_plugin {s : State} (h : s.config.mapper = .plugin) (a : Addr) (v : Byte) :
    s.mapperWrite a v =
      s.applyMapper (Config.pluginWrite s.config.mapperNumber a v s.mapperState) := by
  simp only [State.mapperWrite, h]

/-- What the hook cannot reach, whichever mapper is loaded (R47). -/
theorem State.mapperWrite_frame (s : State) (a : Addr) (v : Byte) (hc : Cells.wf s.cpuMem = true)
    (hp : Cells.wf s.ppuMem = true) :
    (∀ b < 0x8000, (s.mapperWrite a v).cpuMem.read b = s.cpuMem.read b) ∧
    (∀ b, 0x2000 ≤ b → (s.mapperWrite a v).ppuMem.read b = s.ppuMem.read b) ∧
    s.mapperWrite a v =
      { s with cpuMem := (s.mapperWrite a v).cpuMem, ppuMem := (s.mapperWrite a v).ppuMem
               mapperState := (s.mapperWrite a v).mapperState
               config := { s.config with mirroring := (s.mapperWrite a v).config.mirroring } } := by
  obtain ⟨h, -⟩ | ⟨e, h, -⟩ := s.mapperWrite_state a v <;> rw [h]
  · exact ⟨fun _ _ => rfl, fun _ _ => rfl, rfl⟩
  · exact ⟨fun _ hb => read_writePrg hc e.prg hb, fun _ hb => read_writeChr hp e.chr hb, rfl⟩

/-- Settles O12: the read is plain, the write is the hook's, and its answer is applied by the rewrites
of PRG and CHR memory. -/
theorem romGoesToTheMapper : Obligations.RomGoesToTheMapper := by
  intro s a v ha hc hp
  refine ⟨s.memRead_rom ha, fun hm => ?_, fun hm => ?_, _, s.memWrite_rom ha v,
    s.mapperWrite_frame a v hc hp⟩
  · rw [s.memWrite_rom ha, State.mapperWrite_default hm]
  · refine ⟨_, s.memWrite_rom ha v, ?_⟩
    rw [State.mapperWrite_plugin hm]
    exact ⟨rfl, rfl, fun k _ => read_writePrg_upper hc _ k, fun k _ => read_writeChr_lower hp _ k⟩

/-! ### Completion -/

/-- A write completes or is the refused DMA, at its one address (R176). -/
theorem State.memWrite_completes (s : State) (a : Addr) (v : Byte) :
    (∃ t, s.memWrite a v = .next t) ∨
    (s.memWrite a v = .refused .dmaFromSideEffectPage ∧ a = 0x4014) := by
  by_cases h : DmaRefused a v
  · exact .inr ⟨State.memWrite_refused h, h.1⟩
  · exact .inl (State.memWrite_next h)

/-- A read-modify-write completes or its write is the refused DMA (R99, R176). -/
theorem State.modify_completes (s : State) (m : MemOperand) (f : Byte → Byte)
    (g : Byte → Flags → Flags) :
    (∃ t, s.modify m f g = .next t) ∨
    (s.modify m f g = .refused .dmaFromSideEffectPage ∧ s.effAddr m = 0x4014) := by
  by_cases h : DmaRefused (s.effAddr m) (f (s.memRead (s.effAddr m)).1)
  · exact .inr ⟨s.modify_refused m f g h, h.1⟩
  · obtain ⟨t, -, ht⟩ := s.modify_next m f g h
    exact .inl ⟨_, ht⟩

/-- Settles O50, by the instruction's access pattern: the stores and the read-modify-writes of memory
end in a write, which may be the refused DMA; every other pattern gives a next state. -/
theorem instructionsComplete : Obligations.InstructionsComplete := by
  intro i s
  cases i with
  | sta m | stx m | sty m =>
    exact (s.memWrite_completes _ _).imp_right fun ⟨h, ha⟩ => ⟨h, m, rfl, ha⟩
  | inc m | dec m =>
    simp only [exec_inc, exec_dec]
    exact (s.modify_completes m _ _).imp_right fun ⟨h, ha⟩ => ⟨h, m, rfl, ha⟩
  | asl o | lsr o | rol o | ror o =>
    cases o with
    | acc => exact .inl ⟨_, s.shiftOperand_acc _⟩
    | mem m =>
      simp only [exec_asl, exec_lsr, exec_rol, exec_ror, State.shiftOperand_mem]
      exact (s.modify_completes m _ _).imp_right fun ⟨h, ha⟩ => ⟨h, m, rfl, ha⟩
  | lda m | ldx m | ldy m | adc m | sbc m | and m | ora m | eor m | cmp m | cpx m | cpy m =>
    simp only [exec_lda, exec_ldx, exec_ldy, exec_adc, exec_sbc, exec_and, exec_ora, exec_eor,
      exec_cmp, exec_cpx, exec_cpy]
    exact .inl ⟨_, rfl⟩
  | bit m => exact .inl ⟨_, exec_bit s m⟩
  | jmp j => exact .inl ⟨_, exec_jmp s j⟩
  | bpl _ | bmi _ | bvc _ | bvs _ | bcc _ | bcs _ | bne _ | beq _ | jsr _ | rts | rti | brk | pha | php
  | pla | plp | inx | iny | dex | dey | tax | tay | txa | tya | tsx | txs | clc | sec | cli | sei | cld
  | sed | clv | nop | undef _ => exact .inl ⟨_, rfl⟩

end Sys2Proof.Machine
end

section
/-! PROOFS. What one move of the control thread can be, said once (`Move`); that every move keeps the
canonical form (O56), the low bits of the status register (O55) and the tracking of sprite 0's pixels
(O58); the sprite pass and the collision check (O47, O49). -/

namespace Sys2Proof.Machine

/-! ### One move of the control thread -/

/-- The moves of the control thread, by the phase they start from (R15, R180, R209.4). An instruction
and the two frame steps that may take an interrupt are chains of accesses. -/
inductive Move (s : State) : State → Prop where
  | boundary (hp : s.phase = .boundary) : Move s s.frameBoundary
  | halted (hp : s.phase = .halted) : Move s s
  | enterRun (r : Run) (hp : s.phase = .enter r) : Move s (s.enterRun r)
  | instr (r : Run) (hp : s.phase = .running r) {t : State} (ht : Touches s t) : Move s t
  | leaveRun (r : Run) (hp : s.phase = .running r) : Move s (s.leaveRun r)
  | vblankStart (hp : s.phase = .vblankStart) {u : State}
      (hu : Touches { s with ppu := { s.ppu with status := s.ppu.status ||| 0x80 } } u) :
      Move s (u.goto (.enter .postNmi))
  | vblankEnd (hp : s.phase = .vblankEnd) : Move s s.vblankEnd
  | latchScroll (hp : s.phase = .latchScroll) : Move s s.latchScroll
  | lineStart (n : Nat) (hp : s.phase = .line n) : Move s (s.lineStart n)
  | lineDone (n : Nat) (hp : s.phase = .lineEnd n) {m : List Byte} {u : State}
      (hu : Touches { s with mapperState := m } u) :
      Move s (u.goto (if n < lastLine s.config.standard then .line (n + 1) else .sprites))
  | sprites (hp : s.phase = .sprites) : Move s s.spriteStep
  | present (hp : s.phase = .present) : Move s s.presentStep
  | input (hp : s.phase = .input) : Move s s.inputStep

/-- A step that answers a next state is a move. -/
theorem step_move {s t : State} (h : step s = .next t) : Move s t := by
  unfold step at h
  split at h
  case h_4 r hp =>
    split at h
    · exact .instr r hp (cpuStep_touches h)
    · cases h; exact .leaveRun r hp
  all_goals cases h
  · exact .boundary ‹_›
  · exact .halted ‹_›
  · exact .enterRun _ ‹_›
  · obtain ⟨u, hu, he⟩ := s.vblankStart_touches
    rw [he]; exact .vblankStart ‹_› hu
  · exact .vblankEnd ‹_›
  · exact .latchScroll ‹_›
  · exact .lineStart _ ‹_›
  · obtain ⟨u, hu, he⟩ := s.lineDone_touches _
    rw [s.mapperIrq_state] at hu
    rw [he]; exact .lineDone _ ‹_› hu
  · exact .sprites ‹_›
  · exact .present ‹_›
  · exact .input ‹_›

/-! ### A scanline's start -/

/-- A scanline's start: the check's bit in the status register, then at most a background row
(R180 to R182, R190). -/
theorem State.lineStart_eq (s : State) (n : Nat) :
    s.lineStart n =
      (if (s.s0Check n).bgEnabled n then (s.s0Check n).renderBackground n else s.s0Check n).goto
        (.enter (.scanline n)) := rfl

/-- A background row draws on its own row only and leaves the sprite-zero caches (R182). -/
theorem State.renderBackground_over (s : State) (row : Nat) (hw : s.video.Wf) :
    RowOver row s.video (s.renderBackground row).video :=
  (s.drawBgTiles_read row _ 33 0 _ s.video hw).1

/-- What a scanline's start leaves unchanged, and the check's bit (R182, R190). -/
theorem State.lineStart_frame (s : State) (n : Nat) :
    (s.lineStart n).cpuMem = s.cpuMem ∧ (s.lineStart n).ppuMem = s.ppuMem ∧
    (s.lineStart n).oam = s.oam ∧ (s.lineStart n).config = s.config ∧
    (s.lineStart n).ppu.status =
      if s.s0Hit n then s.ppu.status ||| 0x40 else s.ppu.status := by
  rw [s.lineStart_eq]
  cases (s.s0Check n).bgEnabled n <;> rw [s.s0Check_state] <;> exact ⟨rfl, rfl, rfl, rfl, rfl⟩

/-- A scanline's start draws at most its background row (R181, R182). -/
theorem State.lineStart_video (s : State) (n : Nat) (hw : s.video.Wf) :
    RowOver n s.video (s.lineStart n).video := by
  have hv : (s.s0Check n).video = s.video := by rw [s.s0Check_state]
  rw [s.lineStart_eq, State.goto_video, ← hv]
  split
  · exact State.renderBackground_over _ n (hv ▸ hw)
  · exact .refl n _

/-! ### The memories -/

/-- Equal memories are in canonical form together. -/
theorem State.MemOk.congr {s t : State} (hs : s.MemOk) (hc : t.cpuMem = s.cpuMem)
    (hp : t.ppuMem = s.ppuMem) (ho : t.oam = s.oam) : t.MemOk :=
  ⟨hc ▸ hs.cpuMem, hp ▸ hs.ppuMem, ho ▸ hs.oam, hp ▸ hs.noAlias⟩

/-- Every move keeps the memories in canonical form: an access does, and the rest of the schedule
leaves them as they are. -/
theorem Move.memOk {s t : State} (h : Move s t) (hs : s.MemOk) : t.MemOk := by
  cases h with
  | instr r hp ht => exact ht.memOk hs
  | vblankStart hp hu | lineDone n hp hu =>
    exact (hu.memOk (hs.congr rfl rfl rfl)).congr rfl rfl rfl
  | lineStart n hp =>
    obtain ⟨hc, hm, ho, -⟩ := s.lineStart_frame n
    exact hs.congr hc hm ho
  | boundary | halted | enterRun | leaveRun | vblankEnd | latchScroll | sprites | present | input =>
    exact hs.congr rfl rfl rfl

/-! ### The sprite pass -/

/-- The picture that the sprite pass draws over: the sprite-zero caches are empty (R186). -/
def Video.cleared (vd : Video) : Video := { vd with spr0Cache := [], spr0Line := [] }

theorem Video.Wf.cleared {vd : Video} (h : vd.Wf) : vd.cleared.Wf := ⟨h.fb, h.bgCache, rfl, rfl⟩

theorem Video.Within.cleared {vd : Video} (h : vd.Within) : vd.cleared.Within :=
  ⟨h.fb, h.bgCache, rfl, rfl⟩

/-- The sprite pass keeps the frame buffer and the caches in canonical form (R186, R187). -/
theorem State.renderSprites_ok (s : State) (hw : s.video.Wf) (hi : s.video.Within) :
    s.renderSprites.video.Wf ∧ s.renderSprites.video.Within := by
  cases he : s.ppu.spriteEnable with
  | false => rw [s.renderSprites_disabled he]; exact ⟨hw.cleared, hi.cleared⟩
  | true =>
    obtain ⟨h1, h2, -⟩ := s.drawSprites (List.range 64) s.video.cleared rfl hw.cleared
    rw [s.renderSprites_enabled he]
    exact ⟨h1, h2 hi.cleared⟩

/-- The sprite pass from a pixel: with sprites enabled the lowest-index sprite that shows there wins,
and sprite 0's shown pixels are what the sprite-zero caches hold (R36, R186 to R189). -/
theorem State.renderSprites_pixels (s : State) (hw : s.video.Wf) (he : s.ppu.spriteEnable = true) :
    (∀ row < 240, ∀ col < 256,
      s.renderSprites.video.fb.read (pixelKey row col) =
        (s.spriteColour row col).getD (s.video.fb.read (pixelKey row col)) ∧
      s.renderSprites.video.spr0Cache.read (pixelKey row col) =
        (s.spriteShows 0 row col).getD 0) ∧
    (∀ row < 240, s.renderSprites.video.spr0On row = true ↔
      ∃ col < 256, (s.spriteShows 0 row col).isSome = true) ∧
    s.renderSprites.video.bgCache = s.video.bgCache := by
  obtain ⟨-, -, hb, hp, hl⟩ := s.drawSprites (List.range 64) s.video.cleared rfl hw.cleared
  have h0 : 0 ∈ List.range 64 := by simp
  rw [s.renderSprites_enabled he]
  refine ⟨fun row hr col hc => ?_, fun row hr => ?_, hb⟩
  · obtain ⟨hfb, hcache⟩ := hp row hr col hc
    rw [if_pos h0] at hcache
    exact ⟨hfb, hcache⟩
  · simpa [h0, Video.spr0On, Video.cleared] using hl row hr

/-- A pixel that a sprite shows is opaque (R189). -/
theorem State.spriteShows_ne_zero {s : State} {n row col : Nat} {p : BitVec 2}
    (h : s.spriteShows n row col = some p) : p ≠ 0 := by
  unfold State.spriteShows at h
  split at h
  · split at h
    · rename_i hp; cases h; exact hp.1
    · cases h
  · cases h

theorem State.spriteShows_isSome_iff (s : State) (n row col : Nat) :
    (s.spriteShows n row col).isSome = true ↔ (s.spriteShows n row col).getD 0 ≠ 0 := by
  cases h : s.spriteShows n row col with
  | none => simp
  | some p => simpa using State.spriteShows_ne_zero h

/-- The sprite pass leaves `spr0_line` true of exactly the rows with a sprite-zero pixel, whatever it
was before (R36, R186, R189). -/
theorem State.renderSprites_tracked (s : State) (hw : s.video.Wf) :
    s.renderSprites.video.SpriteZeroTracked := by
  intro row hr
  cases he : s.ppu.spriteEnable with
  | false => rw [s.renderSprites_disabled he]; simp [Video.spr0On]
  | true =>
    obtain ⟨hp, hl, -⟩ := s.renderSprites_pixels hw he
    rw [hl row hr]
    refine exists_congr fun col => and_congr_right fun hc => ?_
    rw [(hp row hr col hc).2, s.spriteShows_isSome_iff]

/-! ### The picture -/

/-- What a move does to the picture: a scanline's start draws at most a background row, the sprite
pass draws the sprites, nothing else touches it (R180). -/
theorem Move.video {s t : State} (h : Move s t) (hw : s.video.Wf) :
    t.video = s.video ∨ (∃ n, s.phase = .line n ∧ RowOver n s.video t.video) ∨
      t.video = s.renderSprites.video := by
  cases h with
  | instr r hp hu | vblankStart hp hu | lineDone n hp hu => exact .inl hu.frame.1
  | lineStart n hp => exact .inr (.inl ⟨n, hp, s.lineStart_video n hw⟩)
  | sprites hp => exact .inr (.inr rfl)
  | boundary | halted | enterRun | leaveRun | vblankEnd | latchScroll | present | input =>
    exact .inl rfl

/-! ### The scanline in progress -/

/-- Entering a run stays on the run's scanline (R180). -/
theorem Run.enter_scanline (r : Run) : (Phase.enter r).scanline = (Phase.running r).scanline := by
  cases r <;> rfl

/-- A run's end stays on the run's scanline (R180). -/
theorem Run.after_scanline (r : Run) : r.after.scanline = (Phase.running r).scanline := by
  cases r <;> rfl

theorem Touches.standard {s t : State} (h : Touches s t) :
    t.config.standard = s.config.standard := by
  obtain ⟨-, -, -, -, -, hc⟩ := h.frame
  rw [hc]

/-- No move changes the video standard (R39). -/
theorem Move.standard {s t : State} (h : Move s t) : t.config.standard = s.config.standard := by
  cases h with
  | instr r hp hu | vblankStart hp hu | lineDone n hp hu => exact (hu.standard :)
  | lineStart n hp =>
    obtain ⟨-, -, -, hc, -⟩ := s.lineStart_frame n
    rw [hc]
  | boundary | halted | enterRun | leaveRun | vblankEnd | latchScroll | sprites | present | input =>
    rfl

/-- A scanline in progress after a move is the one before it, the standard's first, or the next one
while the last is not reached (R180). -/
theorem Move.scanline {s t : State} (h : Move s t) {n : Nat} (hn : t.phase.scanline = some n) :
    s.phase.scanline = some n ∨ n = firstLine s.config.standard ∨
      ∃ m, s.phase.scanline = some m ∧ m < lastLine s.config.standard ∧ n = m + 1 := by
  cases h with
  | boundary hp =>
    simp only [State.frameBoundary] at hn
    split at hn
    · split at hn <;> cases hn
    · cases hn
  | halted hp => exact .inl hn
  | enterRun r hp => rw [hp, r.enter_scanline]; exact .inl hn
  | instr r hp ht =>
    obtain ⟨-, -, hph, -⟩ := ht.frame
    exact .inl (hph ▸ hn)
  | leaveRun r hp =>
    rw [State.leaveRun, State.goto_phase, Run.after_scanline, ← hp] at hn
    exact .inl hn
  | latchScroll hp => cases hn; exact .inr (.inl rfl)
  | lineStart m hp => cases hn; exact .inl (hp ▸ rfl)
  | lineDone m hp hu =>
    rw [State.goto_phase] at hn
    split at hn
    · rename_i hlt; cases hn; exact .inr (.inr ⟨m, hp ▸ rfl, hlt, rfl⟩)
    · cases hn
  | vblankStart | vblankEnd | sprites | present | input => cases hn

/-! ### The invariant -/

theorem State.Canonical.memOk {s : State} (h : s.Canonical) : s.MemOk :=
  ⟨h.cpuMem, h.ppuMem, h.oam, h.noAlias⟩

theorem State.Canonical.videoWf {s : State} (h : s.Canonical) : s.video.Wf :=
  ⟨h.fb.1, h.bgCache.1, h.spr0Cache.1, h.spr0Line.1⟩

theorem State.Canonical.videoWithin {s : State} (h : s.Canonical) : s.video.Within :=
  ⟨h.fb.2, h.bgCache.2, h.spr0Cache.2, h.spr0Line.2⟩

theorem State.canonical_of_parts {s : State} (hm : s.MemOk) (hw : s.video.Wf) (hi : s.video.Within)
    (hl : ∀ n, s.phase.scanline = some n →
      firstLine s.config.standard ≤ n ∧ n ≤ lastLine s.config.standard) : s.Canonical where
  cpuMem := hm.cpuMem
  ppuMem := hm.ppuMem
  oam := hm.oam
  fb := ⟨hw.fb, hi.fb⟩
  bgCache := ⟨hw.bgCache, hi.bgCache⟩
  spr0Cache := ⟨hw.spr0Cache, hi.spr0Cache⟩
  spr0Line := ⟨hw.spr0Line, hi.spr0Line⟩
  noAlias := hm.noAlias
  line := hl

/-- Every move keeps the picture in canonical form; a background row lies in the picture because the
scanline is one of the standard's (R34 to R36). -/
theorem Move.videoOk {s t : State} (h : Move s t) (hs : s.Canonical) : t.video.Wf ∧ t.video.Within := by
  obtain hv | ⟨n, hp, hv⟩ | hv := h.video hs.videoWf
  · rw [hv]; exact ⟨hs.videoWf, hs.videoWithin⟩
  · obtain ⟨-, hn⟩ := hs.line n (hp ▸ rfl)
    exact ⟨hv.wf hs.videoWf, hv.within (hn.trans_lt (lastLine_lt _)) hs.videoWithin⟩
  · rw [hv]; exact s.renderSprites_ok hs.videoWf hs.videoWithin

/-- Every move keeps the scanline in progress within the standard's (R180). -/
theorem Move.line {s t : State} (h : Move s t) (hs : s.Canonical) (n : Nat)
    (hn : t.phase.scanline = some n) :
    firstLine t.config.standard ≤ n ∧ n ≤ lastLine t.config.standard := by
  rw [h.standard]
  obtain hn | rfl | ⟨m, hm, hlt, rfl⟩ := h.scanline hn
  · exact hs.line n hn
  · exact ⟨le_rfl, firstLine_le _⟩
  · exact ⟨Nat.le_succ_of_le (hs.line m hm).1, hlt⟩

/-- Settles O56: a step is a move, and a move keeps the memories, the picture and the scanline. -/
theorem stepKeepsCanonical : Obligations.StepKeepsCanonical := by
  intro s t hs h
  have hm := step_move h
  obtain ⟨hw, hi⟩ := hm.videoOk hs
  exact State.canonical_of_parts (hm.memOk hs.memOk) hw hi (hm.line hs)

/-- Settles O58: a background row leaves the sprite-zero caches, and the sprite pass writes both of
them anew. -/
theorem stepKeepsSpriteZeroLine : Obligations.StepKeepsSpriteZeroLine := by
  intro s t hs htr h
  obtain hv | ⟨n, -, hv⟩ | hv := (step_move h).video hs.videoWf
  · rw [hv]; exact htr
  · obtain ⟨hcache, hline⟩ := hv.sprites
    simpa only [Video.SpriteZeroTracked, Video.spr0On, hcache, hline] using htr
  · rw [hv]; exact s.renderSprites_tracked hs.videoWf

/-- Settles O47: the pass seen from a pixel, and its frame. -/
theorem spritePriority : Obligations.SpritePriority := by
  intro s hs he
  obtain ⟨hp, hl, hb⟩ := s.renderSprites_pixels hs.videoWf he
  exact ⟨hp, hl,
    congrArg (fun b => { s with video := { s.renderSprites.video with bgCache := b } }) hb⟩

/-! ### The collision check -/

/-- The check's condition, as R190 says it. -/
theorem State.s0Hit_iff (s : State) (n : Nat) :
    s.s0Hit n = true ↔ 0 ≤ s.s0Row n ∧ s.s0Row n ≤ 239 ∧
      s.video.spr0On (s.s0Row n).toNat = true ∧
      ∃ col < 256, s.video.bgCache.read (pixelKey (s.s0Row n).toNat col) ≠ 0 ∧
        s.video.spr0Cache.read (pixelKey (s.s0Row n).toNat col) ≠ 0 := by
  unfold State.s0Hit
  simp only
  split
  · simp only [Bool.false_eq_true, false_iff]; omega
  · have hr : 0 ≤ s.s0Row n ∧ s.s0Row n ≤ 239 := by omega
    simp [hr, Video.hitOn]

/-- Settles O49: the check sets the bit under its condition and is the identity otherwise. -/
theorem spriteZeroCheck : Obligations.SpriteZeroCheck := by
  intro s n
  refine ⟨fun h => ?_, fun h => ?_⟩
  · rw [State.s0Check, if_pos ((s.s0Hit_iff n).2 h)]
  · rw [State.s0Check, if_neg fun h' => h ((s.s0Hit_iff n).1 h')]

/-! ### The status register -/

/-- From status `p` to status `q`: the low six bits stay and neither of the top two is set (R28). -/
def StatusKept (p q : Byte) : Prop :=
  q &&& 0x3F = p &&& 0x3F ∧ (q.getLsbD 7 = true → p.getLsbD 7 = true) ∧
    (q.getLsbD 6 = true → p.getLsbD 6 = true)

theorem StatusKept.refl (p : Byte) : StatusKept p p := ⟨rfl, id, id⟩

theorem StatusKept.cleared (p : Byte) : StatusKept p (p &&& 0x3F) :=
  ⟨by rw [BitVec.and_assoc]; rfl, by simp, by simp⟩

/-- Accesses clear the top two bits or leave the register (R28, R173). -/
theorem Touches.statusKept {s t : State} (h : Touches s t) : StatusKept s.ppu.status t.ppu.status := by
  obtain h | h := h.status <;> rw [h]
  · exact .refl _
  · exact .cleared _

theorem or_vbl_bits (p : Byte) :
    (p ||| 0x80) &&& 0x3F = p &&& 0x3F ∧ (p ||| 0x80).getLsbD 6 = p.getLsbD 6 := by
  revert p; decide

theorem or_s0_bits (p : Byte) :
    (p ||| 0x40) &&& 0x3F = p &&& 0x3F ∧ (p ||| 0x40).getLsbD 7 = p.getLsbD 7 := by
  revert p; decide

/-- Only frame step 2 and the collision check can set a bit of the status register (R28). -/
theorem Move.status {s t : State} (h : Move s t) :
    StatusKept s.ppu.status t.ppu.status ∨
    (s.phase = .vblankStart ∧ StatusKept (s.ppu.status ||| 0x80) t.ppu.status) ∨
    ∃ n, s.phase = .line n ∧ s.s0Hit n = true ∧ t.ppu.status = s.ppu.status ||| 0x40 := by
  cases h with
  | instr r hp hu | lineDone n hp hu => exact .inl hu.statusKept
  | vblankStart hp hu => exact .inr (.inl ⟨hp, hu.statusKept⟩)
  | vblankEnd hp => exact .inl (.cleared _)
  | lineStart n hp =>
    obtain ⟨-, -, -, -, hst⟩ := s.lineStart_frame n
    split at hst
    · exact .inr (.inr ⟨n, hp, ‹_›, hst⟩)
    · rw [hst]; exact .inl (.refl _)
  | boundary | halted | enterRun | leaveRun | latchScroll | sprites | present | input =>
    exact .inl (.refl _)

/-- Settles O55: a move sets no status bit, but frame step 2 `VBL` and a scanline's check `S0`. -/
theorem statusBitSetters : Obligations.StatusBitSetters := by
  intro s t h
  obtain ⟨hlow, h7, h6⟩ | ⟨hp, hlow, -, h6⟩ | ⟨n, hp, hhit, hst⟩ := (step_move h).status
  · exact ⟨hlow, fun h => .inl (h7 h), fun h => .inl (h6 h)⟩
  · obtain ⟨elow, e6⟩ := or_vbl_bits s.ppu.status
    exact ⟨hlow.trans elow, fun _ => .inr hp, fun h => .inl (e6 ▸ h6 h)⟩
  · obtain ⟨elow, e7⟩ := or_s0_bits s.ppu.status
    rw [hst]
    exact ⟨elow, fun h => .inl (e7 ▸ h), fun _ => .inr ⟨n, hp, hhit⟩⟩

end Sys2Proof.Machine
end

section
/-! PROOFS. The controller port (O43), what an instruction leaves alone (O51, O52), and the step as the
fetched instruction's meaning (O4). -/

namespace Sys2Proof.Machine

/-! ### The controller port -/

/-- A read of 0x4016 gives one button and moves the sequencer (R177). -/
theorem State.memRead_pad (s : State) :
    s.memRead 0x4016 = (if buttonAt s.buttons s.padStep then 0x01 else 0x00,
      { s with padStep := s.padStep + 1 }) := by
  rw [s.memRead_cases]; rfl

/-- Any write to 0x4016 resets the sequencer (R178). -/
theorem State.memWrite_pad (s : State) (d : Byte) :
    s.memWrite 0x4016 d = .next { s with padStep := 0 } := by
  rw [s.memWrite_cases]; rfl

/-- Settles O43: each read moves the sequencer by one, and it wraps after eight. -/
theorem controllerSequence : Obligations.ControllerSequence := by
  intro s d
  refine ⟨_, s.memWrite_pad d, rfl, ?_⟩
  simp only [State.memRead_pad]
  exact ⟨rfl, rfl⟩

/-! ### What an instruction leaves alone -/

/-- Settles O51: an instruction is a chain of accesses, and none of its forms writes the budget. -/
theorem instructionsLeaveTheSchedule : Obligations.InstructionsLeaveTheSchedule := by
  intro i s t h
  obtain ⟨hvideo, hbuttons, hphase, hrunning, hpaused, hconfig⟩ := (exec_touches h).frame
  exact ⟨exec_budget h, hvideo, hbuttons, hphase, hrunning, hpaused, hconfig⟩

/-- The registers and flags after an entry (R160, R195). -/
theorem State.enterVector_cpu (s : State) (vec : Addr) :
    (s.enterVector vec).cpu = { s.cpu with
      sp := s.cpu.sp - 1 - 1 - 1
      flags := { s.cpu.flags with i := true }
      pc := ((s.pushAddr s.cpu.pc).push s.cpu.flags.pack).vector vec } := rfl

/-- Settles O52, by the CPU that each access pattern leaves. -/
theorem registerAndFlagWriters : Obligations.RegisterAndFlagWriters := by
  intro i s t h
  cases i with
  | lda m | ldx m | ldy m | and m | ora m | eor m =>
    simp only [exec_lda, exec_ldx, exec_ldy, exec_and, exec_ora, exec_eor] at h
    cases h; simp [Flags.setNZ, Instr.mode]
  | adc m | sbc m =>
    simp only [exec_adc, exec_sbc] at h
    cases h; simp [Flags.add, Flags.setNZ, Instr.mode]
  | cmp m | cpx m | cpy m | bit m =>
    simp only [exec_cmp, exec_cpx, exec_cpy, exec_bit] at h
    cases h; simp [Flags.compare, Flags.bitTest, Instr.mode]
  | sta m | stx m | sty m => simp [State.memWrite_cpu h]
  | inc m | dec m =>
    simp only [exec_inc, exec_dec] at h
    simp [State.modify_cpu h, Flags.setNZ, Instr.mode]
  | asl o | lsr o | rol o | ror o =>
    simp only [exec_asl, exec_lsr, exec_rol, exec_ror] at h
    cases o with
    | acc => cases h; simp [Flags.shift, Flags.setNZ, Instr.mode, ShiftOperand.mode]
    | mem m =>
      rw [State.shiftOperand_mem] at h
      simp [State.modify_cpu h, Flags.shift, Flags.setNZ, Instr.mode, ShiftOperand.mode]
  | bpl d | bmi d | bvc d | bvs d | bcc d | bcs d | bne d | beq d =>
    cases h; simp [Instr.mode]
  | jmp j => rw [exec_jmp] at h; cases h; simp
  | jsr a => rw [exec_jsr] at h; cases h; simp
  | inx | iny | dex | dey | tax | tay | txa | tya | tsx | txs | clc | sec | cli | sei | cld | sed |
    clv | nop | undef op =>
    cases h; simp [Flags.setNZ, Instr.mode]
  | pha | php => cases h; simp
  | rts | pla | plp | rti =>
    simp only [exec_rts, exec_pla, exec_plp, exec_rti] at h
    cases h; simp [Flags.setNZ, Instr.mode]
  | brk => cases h; rw [State.enterVector_cpu]; simp

/-! ### The step as the fetched instruction's meaning -/

/-- The three shapes of an entry of the opcode map are the three forms of an encoding (R71, R72). -/
theorem plainForm_iff {op : Byte} {i : Instr} : PlainForm op i ↔ opcodeEntry op = .imp i :=
  ⟨PlainForm.entry, fun h _ => by simp only [decode, h]⟩

theorem byteForm_iff {op : Byte} {f : Byte → Instr} : ByteForm op f ↔ opcodeEntry op = .byte f :=
  ⟨ByteForm.entry, fun h _ _ => by simp only [decode, h]⟩

theorem wordForm_iff {op : Byte} {f : Addr → Instr} : WordForm op f ↔ opcodeEntry op = .word f :=
  ⟨WordForm.entry, fun h _ _ _ => by simp only [decode, h, operand16]⟩

/-- Every opcode byte asks for none, one or two operand bytes (R71). -/
theorem form_cases (op : Byte) :
    (∃ i, PlainForm op i) ∨ (∃ f, ByteForm op f) ∨ ∃ f, WordForm op f := by
  cases h : opcodeEntry op with
  | imp i => exact .inl ⟨i, plainForm_iff.2 h⟩
  | byte f => exact .inr (.inl ⟨f, byteForm_iff.2 h⟩)
  | word f => exact .inr (.inr ⟨f, wordForm_iff.2 h⟩)

/-- The bytes of an instruction and the form they have (R71, R72). -/
inductive Encoded : Instr → List Byte → Prop where
  | plain {op : Byte} {i : Instr} (h : PlainForm op i) : Encoded i [op]
  | byte {op : Byte} {f : Byte → Instr} (h : ByteForm op f) (n : Byte) : Encoded (f n) [op, n]
  | word {op : Byte} {f : Addr → Instr} (h : WordForm op f) (a : Addr) :
    Encoded (f a) (op :: addrBytes a)

/-- An entry of the opcode map and an instruction that it builds from some operand bytes (R71). -/
inductive Builds : OpEntry → Instr → Prop where
  | imp (i : Instr) : Builds (.imp i) i
  | byte (f : Byte → Instr) (n : Byte) : Builds (.byte f) (f n)
  | word (f : Addr → Instr) (a : Addr) : Builds (.word f) (f a)

/-- Each of the 105 unrecognised bytes is its own instruction (R77). -/
theorem opcodeEntry_undef {op : Byte} (h : op ∈ undefOpcodes) : opcodeEntry op = .imp (.undef op) := by
  have key : ∀ op ∈ undefOpcodes,
      (match opcodeEntry op with | .imp (.undef b) => b == op | _ => false) = true := by decide
  have hop := key op h
  split at hop
  · rename_i b he
    rw [he, eq_of_beq hop]
  · cases hop

/-- The opcode map leads from the opcode byte of a well-formed instruction back to it (R74 to R77). -/
theorem opcode_builds {i : Instr} (h : i.wf = true) : Builds (opcodeEntry (i.opcode.getD 0)) i := by
  cases i with
  | lda m | adc m | sbc m | and m | ora m | eor m | cmp m =>
    cases m with
    | imm n => exact .byte _ n
    | mem m =>
      cases m with
      | zp n | zpx n | indx n | indy n => exact .byte _ n
      | abs a | absx a | absy a => exact .word _ a
      | zpy n => cases h
  | ldx m =>
    cases m with
    | imm n => exact .byte _ n
    | mem m =>
      cases m with
      | zp n | zpy n => exact .byte _ n
      | abs a | absy a => exact .word _ a
      | zpx n | absx a | indx n | indy n => cases h
  | ldy m =>
    cases m with
    | imm n => exact .byte _ n
    | mem m =>
      cases m with
      | zp n | zpx n => exact .byte _ n
      | abs a | absx a => exact .word _ a
      | zpy n | absy a | indx n | indy n => cases h
  | cpx m | cpy m =>
    cases m with
    | imm n => exact .byte _ n
    | mem m =>
      cases m with
      | zp n => exact .byte _ n
      | abs a => exact .word _ a
      | zpx n | zpy n | absx a | absy a | indx n | indy n => cases h
  | sta m =>
    cases m with
    | zp n | zpx n | indx n | indy n => exact .byte _ n
    | abs a | absx a | absy a => exact .word _ a
    | zpy n => cases h
  | stx m =>
    cases m with
    | zp n | zpy n => exact .byte _ n
    | abs a => exact .word _ a
    | zpx n | absx a | absy a | indx n | indy n => cases h
  | sty m =>
    cases m with
    | zp n | zpx n => exact .byte _ n
    | abs a => exact .word _ a
    | zpy n | absx a | absy a | indx n | indy n => cases h
  | bit m =>
    cases m with
    | zp n => exact .byte _ n
    | abs a => exact .word _ a
    | zpx n | zpy n | absx a | absy a | indx n | indy n => cases h
  | inc m | dec m =>
    cases m with
    | zp n | zpx n => exact .byte _ n
    | abs a | absx a => exact .word _ a
    | zpy n | absy a | indx n | indy n => cases h
  | asl m | lsr m | rol m | ror m =>
    cases m with
    | acc => exact .imp _
    | mem m =>
      cases m with
      | zp n | zpx n => exact .byte _ n
      | abs a | absx a => exact .word _ a
      | zpy n | absy a | indx n | indy n => cases h
  | bpl d | bmi d | bvc d | bvs d | bcc d | bcs d | bne d | beq d => exact .byte _ d
  | jmp m =>
    cases m with
    | abs a | ind a => exact .word _ a
  | jsr a => exact .word _ a
  | undef op => 
    show Builds (opcodeEntry op) (.undef op)
    rw [opcodeEntry_undef (List.contains_iff_mem.1 h)]
    exact .imp _
  | inx | iny | dex | dey | rts | pha | php | pla | plp | tax | tay | txa | tya | tsx | txs | clc | sec |
    cli | sei | cld | sed | clv | nop | brk | rti => exact .imp _

/-- Every well-formed instruction is encoded in the form of its opcode byte (R71 to R77). -/
theorem encode_encoded {i : Instr} (h : i.wf = true) : Encoded i (encode i) := by
  have hb := opcode_builds h
  have he := opcodeEntry_encode (i.opcode.getD 0)
  generalize i.opcode.getD 0 = op at hb he
  generalize hop : opcodeEntry op = e at hb he
  cases hb with
  | imp i => exact he.2 ▸ .plain (plainForm_iff.2 hop)
  | byte f n => exact (he n).2 ▸ .byte (byteForm_iff.2 hop) n
  | word f a => exact (he a).2 ▸ .word (wordForm_iff.2 hop) a

/-- A step in a CPU run with budget left is the fetch, then the instruction (R83, R179). -/
theorem step_running {s : State} {r : Run} (hp : s.phase = .running r) (hb : 0 < s.cpu.budget) :
    step s = exec s.fetchInstr.1 s.fetchInstr.2 := by
  simp only [step, hp, if_pos hb, cpuStep_eq]

/-- The CPU after `k` bytes of an instruction with opcode byte `op` were fetched and its cost was paid
(R82, R83). -/
def State.fetched (s : State) (op : Byte) (k : Nat) : Cpu :=
  { s.cpu with
    pc := s.cpu.pc + BitVec.ofNat 16 k
    budget := s.cpu.budget - cycles s.config.params op }

theorem State.fetched_succ (s : State) (op : Byte) (k : Nat) :
    { s.fetched op k with pc := (s.fetched op k).pc + 1 } = s.fetched op (k + 1) := by
  rw [State.fetched, State.fetched, BitVec.ofNat_add, ← BitVec.add_assoc]
  rfl

/-- The fetch of an operand byte, from the read at its address (R82). -/
theorem State.fetchByte_operand {s u v : State} {op b : Byte} {k : Nat}
    (h : (u.withCpu (s.fetched op k)).memRead (s.cpu.pc + BitVec.ofNat 16 k) = (b, v)) :
    (u.withCpu (s.fetched op k)).fetchByte = (b, v.withCpu (s.fetched op (k + 1))) := by
  rw [State.fetchByte_eq, State.withCpu_cpu, State.fetched_succ]
  exact congrArg (fun p => (p.1, p.2.withCpu (s.fetched op (k + 1)))) h

section reads

variable {s u0 u1 u2 : State} {r : Run} {op b1 b2 : Byte}
  (hp : s.phase = .running r) (hb : 0 < s.cpu.budget) (h0 : s.memRead s.cpu.pc = (op, u0))
  (h1 : (u0.withCpu (s.fetched op 1)).memRead (s.cpu.pc + BitVec.ofNat 16 1) = (b1, u1))
  (h2 : (u1.withCpu (s.fetched op 2)).memRead (s.cpu.pc + BitVec.ofNat 16 2) = (b2, u2))

include h0

/-- The opcode byte, and the state after its cost was charged (R83). -/
theorem State.fetchByte_opcode :
    s.fetchByte.1 = op ∧
      s.fetchByte.2.charge (cycles s.config.params op) = u0.withCpu (s.fetched op 1) := by
  rw [s.fetchByte_eq, h0]; exact ⟨rfl, rfl⟩

include hp hb

/-- A step on an opcode byte that is an instruction alone (R71, R83). -/
theorem step_plain {i : Instr} (hf : PlainForm op i) :
    step s = exec i (u0.withCpu (s.fetched op 1)) := by
  obtain ⟨hop, hu⟩ := State.fetchByte_opcode h0
  rw [step_running hp hb, s.fetchInstr_eq, hop, hu, hf.entry]

include h1

/-- A step on an opcode byte that asks for one operand byte (R71, R83). -/
theorem step_byte {f : Byte → Instr} (hf : ByteForm op f) :
    step s = exec (f b1) (u1.withCpu (s.fetched op 2)) := by
  obtain ⟨hop, hu⟩ := State.fetchByte_opcode h0
  rw [step_running hp hb, s.fetchInstr_eq, hop, hu, hf.entry]
  simp only [State.fetchByte_operand h1]

include h2

/-- A step on an opcode byte that asks for two operand bytes (R71, R72, R83). -/
theorem step_word {f : Addr → Instr} (hf : WordForm op f) :
    step s = exec (f (operand16 b1 b2)) (u2.withCpu (s.fetched op 3)) := by
  obtain ⟨hop, hu⟩ := State.fetchByte_opcode h0
  rw [step_running hp hb, s.fetchInstr_eq, hop, hu, hf.entry]
  simp only [State.fetch16_eq, State.fetchByte_operand h1, State.fetchByte_operand h2]

end reads

/-- A step on plain bytes: an instruction whose bytes lie at plain addresses from `PC` on runs on the
state with `PC` after them and its cost paid (R18, R56, R83). -/
theorem step_encoded {s : State} {r : Run} {i : Instr} {bs : List Byte} (he : Encoded i bs)
    (hp : s.phase = .running r) (hb : 0 < s.cpu.budget)
    (hbs : ∀ (k : Nat) (h : k < bs.length), plainAddr (s.cpu.pc + BitVec.ofNat 16 k) = true ∧
      s.cpuMem.read (s.cpu.pc + BitVec.ofNat 16 k).toNat = bs[k]) :
    step s = exec i (s.withCpu (s.fetched (bs.headD 0) bs.length)) := by
  have read (c : Cpu) (k : Nat) (h : k < bs.length) :
      (s.withCpu c).memRead (s.cpu.pc + BitVec.ofNat 16 k) = (bs[k], s.withCpu c) := by
    obtain ⟨hplain, hbyte⟩ := hbs k h
    rw [State.memRead_plain _ hplain, State.withCpu_cpuMem, hbyte]
  have read0 (h : 0 < bs.length) : s.memRead s.cpu.pc = (bs[0], s) := by
    have hr := read s.cpu 0 h
    rw [BitVec.add_zero] at hr
    exact hr
  cases he with
  | plain hf => exact step_plain hp hb (read0 (by simp)) hf
  | byte hf n => exact step_byte hp hb (read0 (by simp)) (read _ 1 (by simp)) hf
  | word hf a =>
    have h := step_word hp hb (read0 (by simp)) (read _ 1 (by simp [addrBytes]))
      (read _ 2 (by simp [addrBytes])) hf
    rw [← operand16_addrBytes a]
    exact h

/-- Settles O4: the fetch is successive reads through the map; at plain addresses they read the bytes of
the encoding and have no effect. -/
theorem stepRunsDecoded : Obligations.StepRunsDecoded := by
  refine ⟨fun s r i hp hb hw hbs => step_encoded (encode_encoded hw) hp hb hbs,
    fun s r hp hb => ⟨fun i hf => ?_, fun f hf => ?_, fun f hf => ?_⟩, form_cases⟩
  · exact step_plain hp hb rfl hf
  · exact step_byte hp hb rfl rfl hf
  · exact step_word hp hb rfl rfl rfl hf

end Sys2Proof.Machine
end

section
/-! PROOFS. That every step keeps the mirrors of RAM, of the palette pair and of the nametables (O57),
and that the states runs start from have the invariants (O59). -/

namespace Sys2Proof.Machine

/-! ### The mirrors -/

/-- The mirrors are a matter of the two memories and the configuration. -/
theorem State.Mirrored.congr {s t : State} (h : s.Mirrored) (hc : t.cpuMem = s.cpuMem)
    (hp : t.ppuMem = s.ppuMem) (hcfg : t.config = s.config) : t.Mirrored where
  ram := hc ▸ h.ram
  palette := hp ▸ h.palette
  nametables := by rw [hp, hcfg]; exact h.nametables

/-- A register write keeps the PPU's mirrors: at most it stores through `PpuWrite` (R61, R171). -/
theorem State.ppuRegWrite_mirrored {s : State} (hp : Cells.wf s.ppuMem = true) (h : s.Mirrored)
    (r : BitVec 3) (d : Byte) : (s.ppuRegWrite r d).Mirrored := by
  obtain ⟨p, o, m, he, -, -, hm⟩ := s.ppuRegWrite_state r d
  rw [he]
  obtain rfl | rfl := hm
  · exact h.congr rfl rfl rfl
  · exact ⟨h.ram, palette_ppuStore hp h.palette _ _ _, fun hd => (h.nametables hd).ppuStore hp _ _⟩

/-- The mapper's write hook keeps the mirrors: a plug-in reaches neither RAM nor what lies above the
pattern tables, and its nametables are exempt (R47). -/
theorem State.mapperWrite_mirrored {s : State} (hs : s.MemOk) (h : s.Mirrored) (a : Addr) (v : Byte) :
    (s.mapperWrite a v).Mirrored := by
  obtain ⟨he, -⟩ | ⟨e, he, hplug⟩ := s.mapperWrite_state a v <;> rw [he]
  · exact h
  · refine ⟨h.ram.congr fun b hb => read_writePrg hs.cpuMem.1 _ (by omega), ?_, fun hd => ?_⟩
    · rw [State.applyMapper_ppuMem, read_writeChr hs.ppuMem.1 _ (by omega),
        read_writeChr hs.ppuMem.1 _ (by omega), h.palette]
    · cases hplug.symm.trans hd

/-- Every write keeps the mirrors (R44, R62, R63). -/
theorem State.memWrite_mirrored {s t : State} {a : Addr} {v : Byte} (hs : s.MemOk) (h : s.Mirrored)
    (hw : s.memWrite a v = .next t) : t.Mirrored := by
  have hram := State.memWrite_ramMirrored hs.cpuMem.1 h.ram hw
  obtain ⟨-, h'⟩ | ⟨-, t', h', hc⟩ := s.memWrite_split a v
  · cases h'.symm.trans hw
  · cases h'.symm.trans hw
    obtain ⟨-, rfl⟩ | ⟨-, -, rfl⟩ | ⟨-, rfl⟩ | ⟨-, rfl⟩ | ⟨-, -, -, -, rfl⟩ | ⟨-, rfl⟩ := hc
    · exact ⟨hram, h.palette, h.nametables⟩
    · exact State.ppuRegWrite_mirrored hs.ppuMem.1 h _ v
    · exact h.congr rfl rfl rfl
    · exact h.congr rfl rfl rfl
    · exact ⟨hram, h.palette, h.nametables⟩
    · exact State.mapperWrite_mirrored hs h a v

/-- Every chain of accesses keeps the mirrors. -/
theorem Touches.mirrored {s t : State} (h : Touches s t) (hs : s.MemOk) (hm : s.Mirrored) :
    t.Mirrored := by
  induction h with
  | refl => exact hm
  | read _ a ih => exact ih.congr (by simp) (by simp) (by simp)
  | write h hw ih => exact State.memWrite_mirrored (h.memOk hs) ih hw
  | cpu _ c ih => exact ih.congr rfl rfl rfl

/-- Every move keeps the mirrors: an access does, and the rest of the schedule leaves the memories and
the configuration as they are (R180). -/
theorem Move.mirrored {s t : State} (h : Move s t) (hs : s.MemOk) (hm : s.Mirrored) : t.Mirrored := by
  cases h with
  | instr r hp ht => exact ht.mirrored hs hm
  | vblankStart hp hu | lineDone n hp hu =>
    exact (hu.mirrored (hs.congr rfl rfl rfl) (hm.congr rfl rfl rfl)).congr rfl rfl rfl
  | lineStart n hp =>
    obtain ⟨hc, hp, -, hcfg, -⟩ := s.lineStart_frame n
    exact hm.congr hc hp hcfg
  | boundary | halted | enterRun | leaveRun | vblankEnd | latchScroll | sprites | present | input =>
    exact hm.congr rfl rfl rfl

/-- Settles O57: a step is a move, and a move from canonical memories keeps the mirrors. -/
theorem stepKeepsMirrors : Obligations.StepKeepsMirrors := by
  intro s t hs hm h
  exact (step_move h).mirrored hs.memOk hm

/-! ### The states that runs start from -/

/-- What every start leaves: nothing drawn, nothing below ROM in CPU memory and nothing above the
pattern tables in PPU memory, between two frames (R206 to R209). -/
structure State.Fresh (s : State) : Prop where
  cpuMem : s.cpuMem.ok 65536
  belowRom : ∀ b < 0x8000, s.cpuMem.read b = 0
  ppuMem : s.ppuMem.ok 0x2000
  oam : s.oam = []
  video : s.video = ⟨[], [], [], []⟩
  phase : s.phase = .boundary

/-- A tighter bound is a bound. -/
theorem Cells.within_mono {w : Nat} {m : Cells w} {n k : Nat} (h : m.within n = true) (hnk : n ≤ k) :
    m.within k = true := by
  simp only [Cells.within, List.all_eq_true, decide_eq_true_eq] at h ⊢
  exact fun c hc => (h c hc).trans_le hnk

/-- Cells below the nametables have each a name of its own (R59). -/
theorem noAlias_of_within {m : Memory} (h : Cells.within 0x2000 m = true) : NoAlias m := by
  simp only [Cells.within, List.all_eq_true, decide_eq_true_eq] at h
  exact fun c hc => .inl ((h c hc).trans (by decide))

theorem State.Fresh.canonical {s : State} (h : s.Fresh) : s.Canonical where
  cpuMem := h.cpuMem
  ppuMem := ⟨h.ppuMem.1, Cells.within_mono h.ppuMem.2 (by decide)⟩
  oam := h.oam ▸ ⟨rfl, rfl⟩
  fb := h.video ▸ ⟨rfl, rfl⟩
  bgCache := h.video ▸ ⟨rfl, rfl⟩
  spr0Cache := h.video ▸ ⟨rfl, rfl⟩
  spr0Line := h.video ▸ ⟨rfl, rfl⟩
  noAlias := noAlias_of_within h.ppuMem.2
  line := fun n hn => by rw [h.phase] at hn; cases hn

/-- The mirrored places all read 0. -/
theorem State.Fresh.mirrored {s : State} (h : s.Fresh) : s.Mirrored := by
  have hppu {b : Nat} (hb : 0x2000 ≤ b) : s.ppuMem.read b = 0 := Cells.read_beyond h.ppuMem.2 hb
  refine ⟨fun a ha k hk => ?_, ?_, fun _ n _ k _ o _ => ?_⟩
  · rw [h.belowRom _ (by omega), h.belowRom _ (by omega)]
  · rw [hppu (by omega), hppu (by omega)]
  · rw [hppu (by omega), hppu (by omega)]

theorem State.Fresh.tracked {s : State} (h : s.Fresh) : s.video.SpriteZeroTracked := by
  intro row _
  simp [h.video, Video.spr0On]

/-- The machine after power-on has nothing loaded (R206, log 11). -/
theorem powerOn_fresh (std : VideoStandard) :
    ({ State.powerOn with config := { Configuration.powerOn with standard := std } } : State).Fresh :=
  ⟨⟨rfl, rfl⟩, fun _ _ => rfl, ⟨rfl, rfl⟩, rfl, rfl, rfl⟩

/-- A change of the CPU alone, as `CpuReset` is (R207), leaves a fresh state fresh. -/
theorem State.Fresh.withCpu {s : State} (h : s.Fresh) (c : Cpu) : (s.withCpu c).Fresh :=
  ⟨h.cpuMem, h.belowRom, h.ppuMem, h.oam, h.video, h.phase⟩

/-- Loading fills ROM and the pattern tables only, and plugs in the default mapping (R209.1). -/
theorem State.Fresh.load {s t : State} {c : Cartridge} (h : s.Fresh) (hl : s.load c = some t) :
    t.Fresh ∧ t.ppu = s.ppu ∧ t.config.mapper = .default := by
  obtain ⟨m, p, hm, hp, rfl⟩ := State.load_some hl
  obtain ⟨hok, hread⟩ := loadPrg_ok hm h.cpuMem
  exact ⟨⟨hok, fun b hb => (hread b hb).trans (h.belowRom b hb), loadChr_ok hp h.ppuMem, h.oam, h.video,
    h.phase⟩, rfl, rfl⟩

/-- Settles O59: every start leaves a fresh state, and a fresh state has the three invariants. -/
theorem resetHasInvariants : Obligations.ResetHasInvariants := by
  refine ⟨fun std c s hb => ?_, fun s hs => ?_⟩
  · obtain ⟨t, hl, rfl⟩ := Option.map_eq_some_iff.1 hb
    obtain ⟨hf, hppu, hd⟩ := (powerOn_fresh std).load hl
    rw [State.cpuReset_withCpu]
    have hf' := hf.withCpu t.cpuReset.cpu
    exact ⟨hf'.canonical, hf'.mirrored, hf'.tracked, congrArg Ppu.status hppu, hd⟩
  · obtain ⟨hf, hst, hd⟩ : s.Fresh ∧ s.ppu.status = 0 ∧ s.config.mapper = .default := by
      obtain rfl | rfl := hs
      · exact ⟨powerOn_fresh .ntsc, rfl, rfl⟩
      · exact ⟨(powerOn_fresh .ntsc).withCpu _, rfl, rfl⟩
    exact ⟨hf.canonical, hf.mirrored, hf.tracked, hst, hd⟩

end Sys2Proof.Machine
end

section
/-! PROOFS. The regions of the CPU memory map (O10), the images of a RAM byte (O11) and of a cell of PPU
memory (O42). -/

namespace Sys2Proof.Machine

/-- Settles O10: each region's branch of the two case lemmas, with RAM's four images written out. -/
theorem memoryMapRegions : Obligations.MemoryMapRegions := by
  intro s a v
  refine ⟨fun h => ?_, fun h h' => ?_, fun h => ?_, fun h => ?_, fun h h' hd hp => ?_,
    fun h => ⟨s.memRead_rom h, s.memWrite_rom h v⟩⟩
  · rw [s.memRead_ram h, s.memWrite_cases, if_pos h, State.ramWrite, ramStore_eq]
    exact ⟨rfl, rfl⟩
  · simp [s.memRead_cases, s.memWrite_cases, h.not_gt, h']
  · simp [s.memRead_cases, s.memWrite_cases, h]
  · simp [s.memRead_cases, s.memWrite_cases, h]
  · refine ⟨s.memRead_plain ((plainAddr_iff a).2 ⟨.inr h, hp⟩), ?_⟩
    rw [s.memWrite_cases, if_neg (by omega), if_neg (by omega), if_neg hd, if_neg hp, if_pos h']
    rfl

/-- Settles O11: the images a RAM store makes, and that they stay equal under every write. -/
theorem ramImages : Obligations.RamImages := by
  refine ⟨fun s a v hm ha => ⟨s.memRead_ram ha, s.ramWrite a v, ?_, ramStore_wf hm a v,
    read_ramStore hm a v⟩, fun _ _ _ _ => rfl, fun s t a v hm hr h => ?_⟩
  · rw [s.memWrite_cases, if_pos ha]
  · exact State.memWrite_ramMirrored hm hr h

/-- Which cells a PPU write stores to, from the cell read back (R61 to R63): nametable by nametable,
the offset is the same and the tables are of one group. -/
theorem ppuStored_canon_iff (mir : Mirroring) (a b : PpuAddr) :
    PpuStored mir a (canon b).toNat ↔
      (canon b).toNat = (canon a).toNat ∨
      (0x2000 ≤ (canon a).toNat ∧ (canon a).toNat < 0x3000 ∧
        0x2000 ≤ (canon b).toNat ∧ (canon b).toNat < 0x3000 ∧
        (canon b).toNat % 0x400 = (canon a).toNat % 0x400 ∧
        ((canon b).toNat - 0x2000) / 0x400 ∈
          nametableGroup mir (((canon a).toNat - 0x2000) / 0x400)) ∨
      ((canon a).toNat = 0x3F10 ∧ (canon b).toNat = 0x3F00) ∨
      ((canon a).toNat = 0x3F00 ∧ (canon b).toNat = 0x3F10) := by
  unfold PpuStored
  generalize (canon a).toNat = c, (canon b).toNat = d
  refine or_congr_right (or_congr_left ⟨?_, ?_⟩)
  · rintro ⟨h1, h2, k, hk, rfl⟩
    have hk4 := nametableGroup_lt mir (Nat.mod_lt _ (by omega)) hk
    refine ⟨h1, by omega, by omega, by omega, by omega, ?_⟩
    rwa [show (0x2000 + 0x400 * k + c % 0x400 - 0x2000) / 0x400 = k by omega,
      show (c - 0x2000) / 0x400 = c / 0x400 % 4 by omega]
  · rintro ⟨h1, h2, h3, h4, h5, hk⟩
    rw [show (c - 0x2000) / 0x400 = c / 0x400 % 4 by omega] at hk
    exact ⟨h1, by omega, _, hk, by omega⟩

/-- Settles O42: the statement's images are the cells that a write stores to, and a store gives each of
them the byte and leaves every other cell. -/
theorem ppuWriteImages : Obligations.PpuWriteImages := by
  intro s a b v hm cell table sameGroup image
  have hcell (x : PpuAddr) : cell x = (canon x).toNat := (canon_toNat x).symm
  have hgroup {n k : Nat} (hn : n < 4) (hk : k < 4) :
      sameGroup n k ↔ k ∈ nametableGroup s.config.mirroring n := (mem_nametableGroup _ hn hk).symm
  have himage : image ↔ PpuStored s.config.mirroring a (canon b).toNat := by
    simp only [image, hcell, ppuStored_canon_iff]
    refine or_congr_right (or_congr_left ?_)
    refine and_congr_right fun h1 => and_congr_right fun h2 => and_congr_right fun h3 =>
      and_congr_right fun h4 => and_congr_right fun _ => ?_
    exact hgroup (by simp only [table]; omega) (by simp only [table]; omega)
  obtain ⟨hin, hout⟩ := read_ppuStore hm s.config.mirroring a v (canon b).toNat
  exact ⟨fun h => hin (himage.1 h), fun h => hout (mt himage.2 h), rfl⟩

end Sys2Proof.Machine
end

section
/-! PROOFS. The access patterns of the instructions, said once (`Accesses`), and their two frames: the
bytes of CPU memory (O53) and the devices (O54). -/

namespace Sys2Proof.Machine

/-! ### The access patterns -/

/-- Reads at several addresses in turn, for their side effects (R97). -/
def State.readAll (s : State) (l : List Addr) : State := l.foldl (fun u a => (u.memRead a).2) s

/-- Several pushes in turn (R141). -/
def State.pushAll (s : State) (l : List Byte) : State := l.foldl State.push s

/-- How an instruction accesses memory: it reads its operand's addresses, pushes its bytes on the stack,
or stores to its operand's address after at most a read there; then it changes the CPU (R97 to R99,
R141). An instruction that works in the CPU alone reads at no address. -/
inductive Accesses (i : Instr) (s : State) : State → Prop where
  | reads (hi : i.storeOperand = none) (c : Cpu) : Accesses i s ((s.readAll (s.accessed i)).withCpu c)
  | pushes (hi : i.storeOperand = none) (bs : List Byte) (hn : bs.length = i.pushes) (c : Cpu) :
      Accesses i s ((s.pushAll bs).withCpu c)
  | store {m : MemOperand} (hi : i.storeOperand = some m) {r u : State} {v : Byte}
      (hr : r = s ∨ r = (s.memRead (s.effAddr m)).2) (hw : r.memWrite (s.effAddr m) v = .next u)
      (c : Cpu) : Accesses i s (u.withCpu c)

/-- An entry pushes the return address and the flags (R160). -/
theorem State.enterVector_pushAll (s : State) (vec : Addr) :
    s.enterVector vec =
      (s.pushAll [hiByte s.cpu.pc, loByte s.cpu.pc, s.cpu.flags.pack]).withCpu (s.enterVector vec).cpu :=
  rfl

/-- Pushes see the stack pointer only of the CPU (R141). -/
theorem State.pushAll_withCpu (s : State) (bs : List Byte) {c : Cpu} (h : c.sp = s.cpu.sp) (c' : Cpu) :
    ((s.withCpu c).pushAll bs).withCpu c' = (s.pushAll bs).withCpu c' := by
  induction bs generalizing s c with
  | nil => rfl
  | cons v bs ih =>
    have hpush : (s.withCpu c).push v = (s.push v).withCpu { c with sp := c.sp - 1 } := by
      simp only [State.push, State.ramWrite, State.withCpu, h]
    rw [State.pushAll, List.foldl_cons, hpush]
    exact ih (s.push v) (by simp [h])

/-- A read-modify-write accesses memory as a store (R99). -/
theorem State.modify_accesses {i : Instr} {s t : State} {m : MemOperand} {f : Byte → Byte}
    {g : Byte → Flags → Flags} (hi : i.storeOperand = some m) (h : s.modify m f g = .next t) :
    Accesses i s t := by
  obtain ⟨u, hu, rfl⟩ := State.modify_inv h
  exact .store hi (.inr rfl) hu _

/-- Every instruction that completes accesses memory in one of the three patterns. -/
theorem exec_accesses {i : Instr} {s t : State} (h : exec i s = .next t) : Accesses i s t := by
  cases i with
  | lda m | ldx m | ldy m | adc m | sbc m | and m | ora m | eor m | cmp m | cpx m | cpy m =>
    simp only [exec_lda, exec_ldx, exec_ldy, exec_adc, exec_sbc, exec_and, exec_ora, exec_eor,
      exec_cmp, exec_cpx, exec_cpy] at h
    cases h
    cases m <;> exact .reads rfl _
  | bit m => cases (exec_bit s m).symm.trans h; exact .reads rfl _
  | jmp j => cases (exec_jmp s j).symm.trans h; cases j <;> exact .reads rfl _
  | sta m | stx m | sty m => exact .store rfl (.inl rfl) h t.cpu
  | inc m | dec m =>
    simp only [exec_inc, exec_dec] at h
    exact State.modify_accesses rfl h
  | asl o | lsr o | rol o | ror o =>
    simp only [exec_asl, exec_lsr, exec_rol, exec_ror] at h
    cases o with
    | acc => cases h; exact .reads rfl _
    | mem m => rw [State.shiftOperand_mem] at h; exact State.modify_accesses rfl h
  | bpl d | bmi d | bvc d | bvs d | bcc d | bcs d | bne d | beq d =>
    cases h
    unfold State.branch
    split
    · exact .reads rfl _
    · exact .reads rfl s.cpu
  | pha => cases h; exact .pushes rfl [s.cpu.a] rfl _
  | php => cases h; exact .pushes rfl [s.cpu.flags.pack ||| 0x10] rfl _
  | jsr a => cases h; exact .pushes rfl [hiByte (s.cpu.pc - 1), loByte (s.cpu.pc - 1)] rfl _
  | brk =>
    rw [exec_brk] at h
    cases h
    rw [State.enterVector_pushAll, State.pushAll_withCpu]
    · exact .pushes rfl _ rfl _
    · rfl
  | rts | pla | plp | rti | inx | iny | dex | dey | tax | tay | txa | tya | tsx | txs | clc | sec |
    cli | sei | cld | sed | clv => cases h; exact .reads rfl _
  | nop | undef op => cases h; exact .reads rfl s.cpu

/-! ### The memory frame -/

@[simp] theorem State.readAll_cpuMem (s : State) (l : List Addr) : (s.readAll l).cpuMem = s.cpuMem := by
  induction l generalizing s with
  | nil => rfl
  | cons a l ih => exact (ih _).trans (s.memRead_cpuMem a)

/-- Pushes leave every byte outside their stack slots (R141). -/
theorem State.read_pushAll {s : State} (hm : Cells.wf s.cpuMem = true) {bs : List Byte} {b : Nat}
    (h : ∀ k < bs.length, b ∉ storedCells (stackAddr (s.cpu.sp - BitVec.ofNat 8 k))) :
    (s.pushAll bs).cpuMem.read b = s.cpuMem.read b := by
  induction bs generalizing s with
  | nil => rfl
  | cons v bs ih =>
    have hslot : ∀ k < bs.length, b ∉ storedCells (stackAddr ((s.push v).cpu.sp - BitVec.ofNat 8 k)) := by
      intro k hk
      have hsp : (s.push v).cpu.sp - BitVec.ofNat 8 k = s.cpu.sp - BitVec.ofNat 8 (k + 1) := by
        rw [State.push_cpu, BitVec.ofNat_add]
        bv_omega
      rw [hsp]
      exact h (k + 1) (by simpa using hk)
    have htop := h 0 (by simp)
    rw [storedCells_stack] at htop
    calc (s.pushAll (v :: bs)).cpuMem.read b
      _ = (s.push v).cpuMem.read b := ih (s.push_wf hm v) hslot
      _ = s.cpuMem.read b := by rw [s.read_push hm, if_neg (by simpa using htop)]

/-- Settles O53, by the access pattern: reads store nothing, pushes store to their slots, and a store to
the bytes its address names. -/
theorem memoryFrame : Obligations.MemoryFrame := by
  intro i s t hm h b hb hrom
  cases exec_accesses h with
  | reads hi c => rw [State.withCpu_cpuMem, State.readAll_cpuMem]
  | pushes hi bs hn c =>
    rw [s.mem_storedBytes_push hi rfl] at hb
    exact State.read_pushAll hm fun k hk hk' => hb ⟨k, hn ▸ hk, hk'⟩
  | store hi hr hw c =>
    rw [s.storedBytes_store hi] at hb
    obtain rfl | rfl := hr
    · exact (State.memWrite_cpuMem hw hm b).2 hb hrom
    · have hkept := (State.memWrite_cpuMem hw (by rwa [State.memRead_cpuMem]) b).2 hb
        (by rwa [State.memRead_config])
      rwa [State.memRead_cpuMem] at hkept

/-! ### The device frame -/

/-- The devices of the block, the configuration and the free draws are in `t` as they are in `s`. -/
def State.SameDevices (s t : State) : Prop :=
  t.ppu = s.ppu ∧ t.ppuMem = s.ppuMem ∧ t.oam = s.oam ∧ t.padStep = s.padStep ∧
  t.mapperState = s.mapperState ∧ t.config = s.config ∧ t.draws = s.draws

/-- Reads at plain addresses change nothing (R56). -/
theorem State.readAll_plain (s : State) {l : List Addr} (h : ∀ a ∈ l, plainAddr a = true) :
    s.readAll l = s := by
  induction l with
  | nil => rfl
  | cons a l ih =>
    rw [State.readAll, List.foldl_cons, s.memRead_plain (h a (by simp))]
    exact ih fun b hb => h b (by simp [hb])

/-- Pushes touch no device: they store to RAM (R56, R141). -/
theorem State.pushAll_sameDevices (s : State) (bs : List Byte) : s.SameDevices (s.pushAll bs) := by
  induction bs generalizing s with
  | nil => exact ⟨rfl, rfl, rfl, rfl, rfl, rfl, rfl⟩
  | cons v bs ih => exact ih (s.push v)

/-- A storing instruction accesses the address it stores to (R98, R99). -/
theorem State.accessed_store (s : State) {i : Instr} {m : MemOperand} (h : i.storeOperand = some m) :
    s.effAddr m ∈ s.accessed i := by
  cases i with
  | sta m' | stx m' | sty m' | inc m' | dec m' => cases h; exact List.mem_singleton_self _
  | asl o | lsr o | rol o | ror o => cases o <;> cases h; exact List.mem_singleton_self _
  | _ => cases h

/-- Settles O54, by the access pattern: quiet reads change nothing, pushes touch no device, and a quiet
store is quiet in the memory map. -/
theorem deviceFrame : Obligations.DeviceFrame := by
  intro i s t h hq
  cases exec_accesses h with
  | reads hi c =>
    rw [s.readAll_plain fun a ha => (hq a ha).1]
    exact ⟨rfl, rfl, rfl, rfl, rfl, rfl, rfl⟩
  | pushes hi bs hn c => exact s.pushAll_sameDevices bs
  | store hi hr hw c =>
    obtain ⟨hplain, hstore⟩ := hq _ (s.accessed_store hi)
    obtain ⟨hdma, hrom⟩ := hstore.resolve_left (by simp [hi])
    rw [s.memRead_plain hplain, or_self] at hr
    subst hr
    exact (State.memWrite_quiet hw hplain hdma hrom :)

end Sys2Proof.Machine
end

section
/-! PROOFS. That `decode` and `encode` are inverse on well-formed instructions (O1, O2), by what it is to
be encoded, `Encoded`; and the byte strings of O3. -/

namespace Sys2Proof.Machine

/-- What has the bytes `bs` is well-formed, and `bs` is its encoding: the map of R74 agrees with the table
of R75. -/
theorem Encoded.wf_and_encode_eq {i : Instr} {bs : List Byte} (h : Encoded i bs) :
    i.wf = true ∧ encode i = bs := by
  cases h with
  | @plain op _ hf => have he := opcodeEntry_encode op; rw [hf.entry] at he; exact he
  | @byte op _ hf n => have he := opcodeEntry_encode op; rw [hf.entry] at he; exact he n
  | @word op _ hf a => have he := opcodeEntry_encode op; rw [hf.entry] at he; exact he a

/-- The decoder takes the bytes of the instruction and leaves the rest (R71 to R73). -/
theorem Encoded.decode_append {i : Instr} {bs : List Byte} (h : Encoded i bs) (rest : List Byte) :
    decode (bs ++ rest) = .ok (i, rest) := by
  cases h with
  | plain hf => exact hf rest
  | byte hf n => exact hf n rest
  | @word _ f hf a =>
    have ha : a.extractLsb' 8 8 ++ a.extractLsb' 0 8 = a := operand16_addrBytes a
    calc decode (_ :: addrBytes a ++ rest)
      _ = .ok (f (a.extractLsb' 8 8 ++ a.extractLsb' 0 8), rest) := hf _ _ rest
      _ = .ok (f a, rest) := by rw [ha]

/-- What the decoder accepts begins with the bytes of the instruction it answers, in the form of their
opcode byte (R71 to R73). -/
theorem encoded_of_decode {bs rest : List Byte} {i : Instr} (h : decode bs = .ok (i, rest)) :
    ∃ taken, Encoded i taken ∧ taken ++ rest = bs := by
  cases bs with
  | nil => cases h
  | cons op bs =>
    simp only [decode] at h
    split at h
    next he => cases h; exact ⟨_, .plain (plainForm_iff.2 he), rfl⟩
    next he => cases h; exact ⟨_, .byte (byteForm_iff.2 he) _, rfl⟩
    next l hi _ he =>
      cases h
      refine ⟨_, .word (wordForm_iff.2 he) (operand16 l hi), ?_⟩
      rw [addrBytes_operand16]
      rfl
    next => cases h

/-- Settles O1: a well-formed instruction is encoded in the form of its opcode byte, which the decoder
follows. -/
theorem decodeOfEncode : Obligations.DecodeOfEncode :=
  fun _ rest h => (encode_encoded h).decode_append rest

/-- Settles O2: the bytes consumed have the form of their opcode byte, and such bytes are the encoding. -/
theorem encodeOfDecode : Obligations.EncodeOfDecode := by
  intro bs i rest h
  obtain ⟨taken, henc, hbs⟩ := encoded_of_decode h
  obtain ⟨hwf, htaken⟩ := henc.wf_and_encode_eq
  exact ⟨hwf, htaken ▸ hbs⟩

/-- Settles O3: each closed byte string is run through the decoder. -/
theorem specWordsDecode : Obligations.SpecWordsDecode :=
  ⟨rfl, rfl, rfl, rfl, rfl, rfl, rfl, rfl, rfl, rfl, rfl, rfl, rfl, rfl⟩

end Sys2Proof.Machine
end

section
/-! PROOFS. The effective addresses in numbers (O13): indexed sums wrap in the width of their operand, and
a pointer in page 0 is two plain reads through the memory map. -/

namespace Sys2Proof.Machine

/-- An index is added to a zero-page operand modulo 2^8, so the sum stays in page 0 (R88, R89). -/
theorem toNat_zeroPage_add_index (n i : Byte) :
    ((n + i).setWidth 16 : Addr).toNat = (n.toNat + i.toNat) % 0x100 := by bv_omega

/-- An index is added to an address modulo 2^16 (R91, R92, R94). -/
theorem toNat_add_index (a : Addr) (i : Byte) :
    (a + i.setWidth 16).toNat = (a.toNat + i.toNat) % 0x10000 := by bv_omega

/-- An access in page 0 is to RAM, so reading there leaves the state as it is (R48). -/
theorem State.memRead_zeroPage_state (s : State) (p : Byte) : (s.memRead (p.setWidth 16)).2 = s := by
  rw [s.memRead_ram (by bv_omega)]

/-- A pointer in page 0 is two successive reads, low byte first, the second at the next address of the
same page; neither changes the state (R93, R94). -/
theorem State.zpPointer_reads (s : State) {p : Byte} {k : Nat} (hk : p.toNat = k) :
    let lo := s.memRead (BitVec.ofNat 16 k)
    let hi := lo.2.memRead (BitVec.ofNat 16 ((k + 1) % 0x100))
    hi.2 = s ∧ (s.zpPointer p).toNat = hi.1.toNat * 0x100 + lo.1.toNat := by
  have hnext : (p + 1).toNat = (k + 1) % 0x100 := by rw [← hk]; exact BitVec.toNat_add p 1
  rw [← hnext, ← hk, BitVec.ofNat_toNat, BitVec.ofNat_toNat]
  simp only [s.memRead_zeroPage_state, s.zpPointer_eq_memRead, operand16_toNat, and_self]

/-- Settles O13: indexed sums wrap in the width of their operand, and both indirect modes read their
pointer in page 0. -/
theorem effectiveAddresses : Obligations.EffectiveAddresses := by
  intro s n a m
  refine ⟨?zp, toNat_zeroPage_add_index n s.cpu.x, toNat_zeroPage_add_index n s.cpu.y, rfl,
    toNat_add_index a s.cpu.x, toNat_add_index a s.cpu.y, ?indx, ?indy, rfl, rfl⟩
  case zp => exact BitVec.toNat_setWidth_of_le (by decide)
  case indx => exact s.zpPointer_reads (BitVec.toNat_add n s.cpu.x)
  case indy =>
    obtain ⟨hstate, hptr⟩ := s.zpPointer_reads (p := n) rfl
    refine ⟨hstate, ?_⟩
    rw [← hptr]
    exact toNat_add_index (s.zpPointer n) s.cpu.y

end Sys2Proof.Machine
end

section
/-! PROOFS. The loads (O14) and the stores (O15). -/

namespace Sys2Proof.Machine

/-! ### Loads -/

/-- Settles O14: a load is the operand's read, which leaves the CPU as it was, and then one change of the
CPU; the encodings are entries of the opcode map. -/
theorem loadResults : Obligations.LoadResults := by
  refine ⟨fun s m => ?results, ?lda, ?ldx, ?ldy⟩
  case results =>
    simp only [exec_lda, exec_ldx, exec_ldy, Flags.setNZ_eq, State.readOperand_cpu, and_self]
  case lda =>
    exact ⟨byteForm_iff.2 rfl, byteForm_iff.2 rfl, byteForm_iff.2 rfl, wordForm_iff.2 rfl,
      wordForm_iff.2 rfl, wordForm_iff.2 rfl, byteForm_iff.2 rfl, byteForm_iff.2 rfl⟩
  case ldx =>
    exact ⟨byteForm_iff.2 rfl, byteForm_iff.2 rfl, byteForm_iff.2 rfl, wordForm_iff.2 rfl,
      wordForm_iff.2 rfl⟩
  case ldy =>
    exact ⟨byteForm_iff.2 rfl, byteForm_iff.2 rfl, byteForm_iff.2 rfl, wordForm_iff.2 rfl,
      wordForm_iff.2 rfl⟩

/-! ### Stores -/

/-- A store is one `MemWrite` of its register at the effective address (R98, R103 to R105). -/
theorem exec_store {s : State} {m : MemOperand} {i : Instr} {v : Byte}
    (h : i = .sta m ∧ v = s.cpu.a ∨ i = .stx m ∧ v = s.cpu.x ∨ i = .sty m ∧ v = s.cpu.y) :
    exec i s = s.memWrite (s.effAddr m) v := by
  obtain ⟨rfl, rfl⟩ | ⟨rfl, rfl⟩ | ⟨rfl, rfl⟩ := h
  · exact exec_sta s m
  · exact exec_stx s m
  · exact exec_sty s m

/-- Settles O15: a store is one write through the memory map, whose refusal, frame and stored bytes are
those of `MemWrite`; the encodings are entries of the opcode map. -/
theorem storeResults : Obligations.StoreResults := by
  refine ⟨fun s m i v hwf hstore => ?results, ?sta, ?stx, ?sty⟩
  case results =>
    rw [exec_store hstore]
    refine ⟨State.memWrite_refused, fun hd => ?_⟩
    obtain ⟨t, ht⟩ := State.memWrite_next (s := s) hd
    have hcells := State.memWrite_cpuMem ht hwf
    exact ⟨t, ht, ht, State.memWrite_cpu ht, fun b => (hcells b).1, fun b => (hcells b).2⟩
  case sta =>
    exact ⟨byteForm_iff.2 rfl, byteForm_iff.2 rfl, wordForm_iff.2 rfl, wordForm_iff.2 rfl,
      wordForm_iff.2 rfl, byteForm_iff.2 rfl, byteForm_iff.2 rfl, plainForm_iff.2 rfl⟩
  case stx => exact ⟨byteForm_iff.2 rfl, byteForm_iff.2 rfl, wordForm_iff.2 rfl⟩
  case sty => exact ⟨byteForm_iff.2 rfl, byteForm_iff.2 rfl, wordForm_iff.2 rfl⟩

end Sys2Proof.Machine
end

section
/-! PROOFS. Arithmetic and logic on the accumulator (O16 to O18), and increments and decrements of memory
(O19) and of the index registers (O20). -/

namespace Sys2Proof.Machine

/-! ### Encodings -/

/-- The encodings of an accumulator operation are eight entries of the opcode map (R74). -/
theorem accForms_iff {imm zp zpx abs absx absy indx indy : Byte} {f : ReadOperand → Instr} :
    AccForms imm zp zpx abs absx absy indx indy f ↔
      opcodeEntry imm = .byte (fun n => f (.imm n)) ∧
      opcodeEntry zp = .byte (fun n => f (.mem (.zp n))) ∧
      opcodeEntry zpx = .byte (fun n => f (.mem (.zpx n))) ∧
      opcodeEntry abs = .word (fun a => f (.mem (.abs a))) ∧
      opcodeEntry absx = .word (fun a => f (.mem (.absx a))) ∧
      opcodeEntry absy = .word (fun a => f (.mem (.absy a))) ∧
      opcodeEntry indx = .byte (fun n => f (.mem (.indx n))) ∧
      opcodeEntry indy = .byte (fun n => f (.mem (.indy n))) := by
  simp only [AccForms, byteForm_iff, wordForm_iff]

/-- The encodings of a read-modify-write instruction are four entries of the opcode map (R74). -/
theorem rmwForms_iff {zp zpx abs absx : Byte} {f : MemOperand → Instr} :
    RmwForms zp zpx abs absx f ↔
      opcodeEntry zp = .byte (fun n => f (.zp n)) ∧
      opcodeEntry zpx = .byte (fun n => f (.zpx n)) ∧
      opcodeEntry abs = .word (fun a => f (.abs a)) ∧
      opcodeEntry absx = .word (fun a => f (.absx a)) := by
  simp only [RmwForms, byteForm_iff, wordForm_iff]

/-! ### Addition and subtraction -/

/-- The flags of an addition in numbers (R106, R108). -/
theorem Flags.add_eq (f : Flags) (a b : Byte) :
    f.add a b = { f.withNZ (addResult a b f.c) with
      c := decide (255 < a.toNat + b.toNat + bitNat f.c)
      v := decide (a.toInt + b.toInt + bitNat f.c < -128 ∨
        127 < a.toInt + b.toInt + bitNat f.c) } := by
  have hv : (((a ^^^ addResult a b f.c) &&& (b ^^^ addResult a b f.c) &&& 0x80) != 0) =
      decide (a.toInt + b.toInt + bitNat f.c < -128 ∨ 127 < a.toInt + b.toInt + bitNat f.c) := by
    rw [Bool.eq_iff_iff, bne_iff_ne, overflow_iff, decide_eq_true_iff]
  rw [Flags.add, Flags.setNZ_eq, hv, addSum_eq]
  rfl

theorem addResult_eq (a b : Byte) (c : Bool) :
    addResult a b c = BitVec.ofNat 8 ((a.toNat + b.toNat + bitNat c) % 256) :=
  BitVec.eq_of_toNat_eq (by rw [addResult_toNat, BitVec.toNat_ofNat, Nat.mod_mod])

/-- Settles O16: the sum's flags in numbers, and the bit formula of overflow. -/
theorem adcResult : Obligations.AdcResult := by
  refine ⟨fun s m => ?result, accForms_iff.2 ⟨rfl, rfl, rfl, rfl, rfl, rfl, rfl, rfl⟩⟩
  simp only [State.readOperand_cpu, ← addResult_eq]
  exact ⟨by rw [exec_adc, Flags.add_eq]; rfl, (overflow_iff _ _ _).symm⟩

/-- Adding the complement is subtracting with borrow, 256 higher (R109). -/
theorem add_compl_toNat (a b : Byte) (c : Bool) :
    ((a.toNat + (~~~b).toNat + bitNat c : Nat) : Int) =
      a.toNat - b.toNat - (1 - bitNat c) + 256 := by
  have := b.isLt
  rw [BitVec.toNat_not]
  omega

/-- The signed reading of the same identity (R106, R109). -/
theorem add_compl_toInt (a b : Byte) (c : Bool) :
    a.toInt + (~~~b).toInt + bitNat c = a.toInt - b.toInt - (1 - bitNat c) := by
  have := b.isLt
  simp only [BitVec.toInt_eq_toNat_cond, BitVec.toNat_not]
  split_ifs <;> omega

theorem addResult_compl (a b : Byte) (c : Bool) :
    addResult a (~~~b) c = BitVec.ofInt 8 (a.toNat - b.toNat - (1 - bitNat c)) := by
  have h := add_compl_toNat a b c
  apply BitVec.eq_of_toNat_eq
  rw [addResult_toNat, BitVec.toNat_ofInt]
  omega

/-- The carry out of that addition says that there is no borrow (R109). -/
theorem carry_compl_iff (a b : Byte) (c : Bool) :
    255 < a.toNat + (~~~b).toNat + bitNat c ↔ (0 : Int) ≤ a.toNat - b.toNat - (1 - bitNat c) := by
  have := add_compl_toNat a b c
  omega

/-- Settles O17: SBC is ADC of the complement, whose carry is the absence of a borrow. -/
theorem sbcResult : Obligations.SbcResult := by
  refine ⟨fun s m => ?result, accForms_iff.2 ⟨rfl, rfl, rfl, rfl, rfl, rfl, rfl, rfl⟩⟩
  simp only [State.readOperand_cpu, ← addResult_compl, ← add_compl_toInt]
  refine ⟨?next, (overflow_iff _ _ _).symm⟩
  simp only [exec_sbc, Flags.add_eq, carry_compl_iff]
  rfl

/-! ### Logic -/

/-- A conjunction of bytes is zero when no bit is set in both (R113). -/
theorem and_eq_zero_eq (a b : Byte) :
    (a &&& b == 0) = (List.range 8).all fun k => !(a.getLsbD k && b.getLsbD k) := by
  rw [Bool.eq_iff_iff, beq_iff_eq, BitVec.eq_of_getLsbD_eq_iff]
  simp only [BitVec.getLsbD_and, BitVec.ofNat_eq_ofNat, BitVec.getLsbD_zero, List.all_eq_true,
    List.mem_range, Bool.not_eq_true']

/-- Settles O18: the bits of each result, and BIT's `Z` as a statement about the bits. -/
theorem logicResults : Obligations.LogicResults := by
  refine ⟨fun s m => ?results, fun s m => ?bit, ?and, ?ora, ?eor, byteForm_iff.2 rfl, wordForm_iff.2 rfl⟩
  case results =>
    simp only [exec_and, exec_ora, exec_eor, Flags.setNZ_eq, State.readOperand_cpu]
    exact ⟨⟨_, fun _ _ => BitVec.getLsbD_and, rfl⟩, ⟨_, fun _ _ => BitVec.getLsbD_or, rfl⟩,
      ⟨_, fun _ _ => BitVec.getLsbD_xor, rfl⟩⟩
  case bit =>
    simp only [exec_bit, Flags.bitTest, and_eq_zero_eq, State.memRead_cpu]
  case and | ora | eor => exact accForms_iff.2 ⟨rfl, rfl, rfl, rfl, rfl, rfl, rfl, rfl⟩

/-! ### Increment and decrement -/

theorem eq_add_one_of_toNat {r b : Byte} (h : r.toNat = (b.toNat + 1) % 256) : r = b + 1 :=
  BitVec.eq_of_toNat_eq h

theorem eq_sub_one_of_toNat {r b : Byte} (h : r.toNat = (b.toNat + 255) % 256) : r = b - 1 := by
  bv_omega

/-- A read-modify-write that sets `N` and `Z` from its result `r` (R99, R24). -/
theorem State.modify_setNZ (s : State) (m : MemOperand) (f : Byte → Byte) {r : Byte}
    (hr : r = f (s.memRead (s.effAddr m)).1) :
    (DmaRefused (s.effAddr m) r →
      s.modify m f (fun b fl => fl.setNZ (f b)) = .refused .dmaFromSideEffectPage) ∧
    (¬DmaRefused (s.effAddr m) r →
      ∃ t, (s.memRead (s.effAddr m)).2.memWrite (s.effAddr m) r = .next t ∧
        s.modify m f (fun b fl => fl.setNZ (f b)) =
          .next (t.withCpu { s.cpu with flags := s.cpu.flags.withNZ r })) := by
  subst hr
  rw [← Flags.setNZ_eq]
  exact ⟨s.modify_refused m f _, s.modify_next m f _⟩

/-- Settles O19: both are read-modify-writes with `N` and `Z` from the result. -/
theorem incDecMemoryResults : Obligations.IncDecMemoryResults := by
  refine ⟨fun s m i r => ?result, rmwForms_iff.2 ⟨rfl, rfl, rfl, rfl⟩,
    rmwForms_iff.2 ⟨rfl, rfl, rfl, rfl⟩⟩
  intro ea b u h
  obtain ⟨rfl, hr⟩ | ⟨rfl, hr⟩ := h
  · exact s.modify_setNZ m (· + 1) (eq_add_one_of_toNat hr)
  · exact s.modify_setNZ m (· - 1) (eq_sub_one_of_toNat hr)

/-! ### The index registers -/

theorem exec_inx (s : State) : exec .inx s = .next (s.withCpu { s.cpu with
    x := s.cpu.x + 1, flags := s.cpu.flags.setNZ (s.cpu.x + 1) }) := rfl

theorem exec_iny (s : State) : exec .iny s = .next (s.withCpu { s.cpu with
    y := s.cpu.y + 1, flags := s.cpu.flags.setNZ (s.cpu.y + 1) }) := rfl

theorem exec_dex (s : State) : exec .dex s = .next (s.withCpu { s.cpu with
    x := s.cpu.x - 1, flags := s.cpu.flags.setNZ (s.cpu.x - 1) }) := rfl

theorem exec_dey (s : State) : exec .dey s = .next (s.withCpu { s.cpu with
    y := s.cpu.y - 1, flags := s.cpu.flags.setNZ (s.cpu.y - 1) }) := rfl

/-- Settles O20: the byte with the required number is the register's successor or predecessor. -/
theorem incDecRegisterResults : Obligations.IncDecRegisterResults := by
  refine ⟨fun s r => ⟨fun h => ?inx, fun h => ?iny, fun h => ?dex, fun h => ?dey⟩,
    plainForm_iff.2 rfl, plainForm_iff.2 rfl, plainForm_iff.2 rfl, plainForm_iff.2 rfl⟩
  case inx => rw [exec_inx, Flags.setNZ_eq, eq_add_one_of_toNat h]
  case iny => rw [exec_iny, Flags.setNZ_eq, eq_add_one_of_toNat h]
  case dex => rw [exec_dex, Flags.setNZ_eq, eq_sub_one_of_toNat h]
  case dey => rw [exec_dey, Flags.setNZ_eq, eq_sub_one_of_toNat h]

end Sys2Proof.Machine
end

section
/-! PROOFS. The shifts and rotates, on the accumulator and on memory (O21). -/

namespace Sys2Proof.Machine

/-! ### The byte operations in numbers -/

/-- The byte operation `f` in numbers: its result is `g` of the byte, the bit shifted out is `out` of it. -/
def ShiftsTo (f : Byte → Byte × Bool) (g : Nat → Nat) (out : Nat → Bool) : Prop :=
  ∀ b, (f b).1.toNat = g b.toNat ∧ (f b).2 = out b.toNat

theorem lowBit_eq (b : Byte) : b.getLsbD 0 = decide (b.toNat % 2 = 1) := Nat.testBit_zero b.toNat

theorem toNat_carryByte (c : Bool) : ((BitVec.ofBool c).setWidth 8).toNat = bitNat c := by
  cases c <;> rfl

/-- Shifting left leaves bit 0 free for the carry (R122). -/
theorem toNat_shiftLeft_or_carry (b : Byte) (c : Bool) :
    (b <<< 1 ||| (BitVec.ofBool c).setWidth 8).toNat = b.toNat * 2 % 256 + bitNat c := by
  have hshift : (b <<< 1).toNat = (b.toNat % 128) <<< 1 := by
    rw [BitVec.toNat_shiftLeft, Nat.shiftLeft_eq, Nat.shiftLeft_eq]; omega
  have hc : bitNat c < 2 ^ 1 := by have := bitNat_le c; omega
  rw [BitVec.toNat_or, hshift, toNat_carryByte, ← Nat.shiftLeft_add_eq_or_of_lt hc, Nat.shiftLeft_eq]
  omega

/-- Shifting right leaves bit 7 free for the carry (R123). -/
theorem toNat_carry_or_shiftRight (b : Byte) (c : Bool) :
    ((BitVec.ofBool c).setWidth 8 <<< 7 ||| b >>> 1).toNat = b.toNat / 2 + 128 * bitNat c := by
  have hshift : ((BitVec.ofBool c).setWidth 8 <<< 7 : Byte).toNat = bitNat c <<< 7 := by
    cases c <;> rfl
  have hb : b.toNat >>> 1 < 2 ^ 7 := by have := b.isLt; rw [Nat.shiftRight_eq_div_pow]; omega
  rw [BitVec.toNat_or, hshift, BitVec.toNat_ushiftRight, ← Nat.shiftLeft_add_eq_or_of_lt hb,
    Nat.shiftLeft_eq, Nat.shiftRight_eq_div_pow]
  omega

theorem aslByte_shiftsTo : ShiftsTo aslByte (fun b => b * 2 % 256) (fun b => decide (128 ≤ b)) :=
  fun b => ⟨by rw [aslByte, BitVec.toNat_shiftLeft, Nat.shiftLeft_eq], signBit_eq b⟩

theorem lsrByte_shiftsTo : ShiftsTo lsrByte (fun b => b / 2) (fun b => decide (b % 2 = 1)) :=
  fun b => ⟨by rw [lsrByte, BitVec.toNat_ushiftRight, Nat.shiftRight_eq_div_pow], lowBit_eq b⟩

theorem rolByte_shiftsTo (c : Bool) :
    ShiftsTo (rolByte c) (fun b => b * 2 % 256 + bitNat c) (fun b => decide (128 ≤ b)) :=
  fun b => ⟨toNat_shiftLeft_or_carry b c, signBit_eq b⟩

theorem rorByte_shiftsTo (c : Bool) :
    ShiftsTo (rorByte c) (fun b => b / 2 + 128 * bitNat c) (fun b => decide (b % 2 = 1)) :=
  fun b => ⟨toNat_carry_or_shiftRight b c, lowBit_eq b⟩

/-! ### The two kinds of operand -/

theorem Flags.shift_eq (f : Flags) (r : Byte) (out : Bool) :
    f.shift r out = { f.withNZ r with c := out } := by
  rw [Flags.shift, Flags.setNZ_eq]; rfl

section
variable {f : Byte → Byte × Bool} {g : Nat → Nat} {out : Nat → Bool} {r b : Byte}

/-- A byte with the number of the result is the result. -/
theorem ShiftsTo.eq_result (hf : ShiftsTo f g out) (hr : r.toNat = g b.toNat) : r = (f b).1 :=
  BitVec.eq_of_toNat_eq (hr.trans (hf b).1.symm)

/-- A shift or rotate of the accumulator (R85). -/
theorem ShiftsTo.acc (hf : ShiftsTo f g out) (s : State) (hr : r.toNat = g s.cpu.a.toNat) :
    s.shiftOperand .acc f = .next (s.withCpu { s.cpu with
      a := r, flags := { s.cpu.flags.withNZ r with c := out s.cpu.a.toNat } }) := by
  rw [hf.eq_result hr, ← (hf _).2, ← Flags.shift_eq, State.shiftOperand_acc]

/-- A shift or rotate of memory is a read-modify-write (R99). -/
theorem ShiftsTo.mem (hf : ShiftsTo f g out) (s : State) (m : MemOperand)
    (hr : r.toNat = g (s.memRead (s.effAddr m)).1.toNat) :
    (DmaRefused (s.effAddr m) r →
      s.shiftOperand (.mem m) f = .refused .dmaFromSideEffectPage) ∧
    (¬DmaRefused (s.effAddr m) r →
      ∃ t, (s.memRead (s.effAddr m)).2.memWrite (s.effAddr m) r = .next t ∧
        s.shiftOperand (.mem m) f = .next (t.withCpu { s.cpu with
          flags := { s.cpu.flags.withNZ r with c := out (s.memRead (s.effAddr m)).1.toNat } })) := by
  rw [hf.eq_result hr, ← (hf _).2, ← Flags.shift_eq, State.shiftOperand_mem]
  exact ⟨s.modify_refused m (fun b => (f b).1) _, s.modify_next m (fun b => (f b).1) _⟩

end

/-- Settles O21: each instruction is its byte operation, on the accumulator or by a read-modify-write. -/
theorem shiftResults : Obligations.ShiftResults := by
  refine ⟨fun s i g out h => ?results, ?asl, ?lsr, ?rol, ?ror⟩
  case results =>
    obtain ⟨f, hexec, hf⟩ : ∃ f, (∀ o, exec (i o) s = s.shiftOperand o f) ∧ ShiftsTo f g out := by
      obtain ⟨rfl, rfl, rfl⟩ | ⟨rfl, rfl, rfl⟩ | ⟨rfl, rfl, rfl⟩ | ⟨rfl, rfl, rfl⟩ := h
      · exact ⟨aslByte, exec_asl s, aslByte_shiftsTo⟩
      · exact ⟨lsrByte, exec_lsr s, lsrByte_shiftsTo⟩
      · exact ⟨rolByte s.cpu.flags.c, exec_rol s, rolByte_shiftsTo _⟩
      · exact ⟨rorByte s.cpu.flags.c, exec_ror s, rorByte_shiftsTo _⟩
    simp only [hexec]
    exact ⟨fun r => hf.acc s, fun m r => hf.mem s m⟩
  case asl | lsr | rol | ror => exact ⟨plainForm_iff.2 rfl, rmwForms_iff.2 ⟨rfl, rfl, rfl, rfl⟩⟩

end Sys2Proof.Machine
end

section
/-! PROOFS. The compares (O22). -/

namespace Sys2Proof.Machine

theorem beq_eq_decide_toNat (r m : Byte) : (r == m) = decide (r.toNat = m.toNat) := by
  rw [beq_eq_decide, decide_eq_decide, BitVec.toNat_inj]

/-- Bit 7 of the difference modulo 2^8 (R124). -/
theorem signBit_sub_eq (r m : Byte) :
    (r - m).getLsbD 7 = decide (128 ≤ (r.toNat + 256 - m.toNat) % 256) := by
  have hdiff : (r - m).toNat = (r.toNat + 256 - m.toNat) % 256 := by bv_omega
  rw [signBit_eq, hdiff]

/-- The flags of `Compare(r, m)` in numbers (R124). -/
theorem Flags.compare_eq (f : Flags) (r m : Byte) :
    f.compare r m = { f with
      c := decide (m.toNat ≤ r.toNat), z := decide (r.toNat = m.toNat)
      n := decide (128 ≤ (r.toNat + 256 - m.toNat) % 256) } := by
  rw [Flags.compare, beq_eq_decide_toNat, signBit_sub_eq]

/-- The encodings of CPX or CPY are three entries of the opcode map (R74). -/
theorem cpxForms_iff {imm zp abs : Byte} {f : ReadOperand → Instr} :
    CpxForms imm zp abs f ↔
      opcodeEntry imm = .byte (fun n => f (.imm n)) ∧
      opcodeEntry zp = .byte (fun n => f (.mem (.zp n))) ∧
      opcodeEntry abs = .word (fun a => f (.mem (.abs a))) := by
  simp only [CpxForms, byteForm_iff, wordForm_iff]

/-- Settles O22: a compare is the operand's read, which leaves the CPU as it was, and then the flags of
`Compare`. -/
theorem compareResults : Obligations.CompareResults := by
  refine ⟨fun s m => ?results, ?cmp, ?cpx, ?cpy⟩
  case results =>
    simp only [exec_cmp, exec_cpx, exec_cpy, Flags.compare_eq, State.readOperand_cpu, and_self]
  case cmp => exact accForms_iff.2 ⟨rfl, rfl, rfl, rfl, rfl, rfl, rfl, rfl⟩
  case cpx | cpy => exact cpxForms_iff.2 ⟨rfl, rfl, rfl⟩

end Sys2Proof.Machine
end

section
/-! PROOFS. Branches, jumps, calls and returns (O23 to O26). -/

namespace Sys2Proof.Machine

/-- A signed number is added to an address modulo 2^16 (R96, R139). -/
theorem add_ofInt (a : Addr) (k : Int) : a + BitVec.ofInt 16 k = BitVec.ofInt 16 (a.toNat + k) := by
  rw [BitVec.ofInt_add, BitVec.ofInt_natCast, BitVec.ofNat_toNat, BitVec.setWidth_eq]

/-! ### Branches -/

/-- A branch in numbers: to `PC` plus the signed displacement, or no change (R128). -/
theorem State.branch_eq (s : State) (taken : Bool) (d : Byte) :
    s.branch taken d = if taken = true then s.withCpu { s.cpu with
      pc := BitVec.ofInt 16 (s.cpu.pc.toNat + d.toInt) } else s := by
  rw [← add_ofInt]; rfl

/-- Settles O23: each branch tests one flag for one value and is otherwise the branch of R128. -/
theorem branchResults : Obligations.BranchResults := by
  refine ⟨fun s d => ?results, ?encodings⟩
  case results =>
    simp only [exec_bpl, exec_bmi, exec_bvc, exec_bvs, exec_bcc, exec_bcs, exec_bne, exec_beq,
      State.branch_eq, Bool.not_eq_true', and_self]
  case encodings => simp only [byteForm_iff]; exact ⟨rfl, rfl, rfl, rfl, rfl, rfl, rfl, rfl⟩

/-! ### JMP -/

/-- The second address of the pointer of `JMP (a)`, as the word of its number (R95). -/
theorem pointerHigh_eq_ofNat (wrap : Bool) (a : Addr) :
    pointerHigh wrap a = BitVec.ofNat 16 (if wrap = true
      then a.toNat / 0x100 * 0x100 + (a.toNat + 1) % 0x100 else (a.toNat + 1) % 0x10000) := by
  rw [← pointerHigh_toNat, BitVec.ofNat_toNat, BitVec.setWidth_eq]

/-- Settles O24: JMP goes to its target, the second pointer read being at `pointerHigh`. -/
theorem jmpResult : Obligations.JmpResult := by
  refine ⟨fun s a => ⟨exec_jmp s (.abs a), ?indirect⟩, rfl, wordForm_iff.2 rfl, wordForm_iff.2 rfl⟩
  case indirect =>
    simp only [← pointerHigh_eq_ofNat]
    exact exec_jmp s (.ind a)

/-! ### JSR and RTS -/

/-- The address before, modulo 2^16: what JSR pushes (R139). -/
theorem sub_one_eq_ofInt (a : Addr) : a - 1 = BitVec.ofInt 16 (a.toNat - 1) := by
  rw [Int.sub_eq_add_neg, ← add_ofInt, BitVec.ofInt_neg, BitVec.sub_eq_add_neg]; rfl

/-- The address after two bytes' address, modulo 2^16: where RTS goes (R140). -/
theorem operand16_add_one (lo hi : Byte) :
    operand16 lo hi + 1 = BitVec.ofNat 16 (hi.toNat * 0x100 + lo.toNat + 1) := by
  rw [← operand16_toNat, BitVec.ofNat_add, BitVec.ofNat_toNat, BitVec.setWidth_eq]; rfl

/-- A stack slot lies in RAM, so a read through the map gives its byte (R48, R141). -/
theorem State.memRead_stackAddr (s : State) (p : Byte) :
    (s.memRead (stackAddr p)).1 = s.peek (stackAddr p) :=
  congrArg Prod.fst (s.memRead_ram (stackAddr_lt p))

/-- Settles O25: the pushes and pulls are accesses to the two slots next to `S`, the return address
minus 1 and plus 1 being taken modulo 2^16. -/
theorem jsrRtsResults : Obligations.JsrRtsResults := by
  refine ⟨fun s a => ⟨?jsr, ?rts⟩, wordForm_iff.2 rfl, plainForm_iff.2 rfl⟩
  case jsr =>
    have hsp : s.cpu.sp - 1 - 1 = s.cpu.sp - 2 := by bv_omega
    rw [exec_jsr, sub_one_eq_ofInt, hsp]; rfl
  case rts =>
    have hsp : s.cpu.sp + 1 + 1 = s.cpu.sp + 2 := by bv_omega
    rw [exec_rts, hsp, operand16_add_one, ← s.memRead_stackAddr, ← s.memRead_stackAddr]; rfl

/-- Settles O26: RTS pulls the two bytes that JSR pushed, from the slots where JSR put them. -/
theorem jsrThenRtsReturns : Obligations.JsrThenRtsReturns := by
  intro s a hm
  refine ⟨_, _, exec_jsr s a, rfl, exec_rts _, ?_⟩
  obtain ⟨hhi, hlo⟩ := s.push2_slots hm (hiByte (s.cpu.pc - 1)) (loByte (s.cpu.pc - 1))
  have hlow : s.cpu.sp - 1 - 1 + 1 = s.cpu.sp - 1 := by bv_omega
  have hhigh : s.cpu.sp - 1 + 1 = s.cpu.sp := by bv_omega
  have hpc : s.cpu.pc - 1 + 1 = s.cpu.pc := by bv_omega
  simp only [State.withCpu_cpu, State.withCpu_cpuMem, State.peek, State.pushAddr, hlow, hhigh, hhi, hlo,
    operand16_bytes, hpc]

end Sys2Proof.Machine
end

section
/-! PROOFS. The stack primitives and instructions (O27, O28) and the register transfers (O29). -/

namespace Sys2Proof.Machine

/-! ### Push and Pull -/

/-- The stack address in numbers (R19). -/
theorem stackAddr_eq_ofNat (p : Byte) : stackAddr p = BitVec.ofNat 16 (0x100 + p.toNat) := by
  rw [← stackAddr_toNat, BitVec.ofNat_toNat, BitVec.setWidth_eq]

/-- `S` minus 1 modulo 2^8, as a push leaves it (R141). -/
theorem sub_one_eq_ofNat (p : Byte) : p - 1 = BitVec.ofNat 8 (p.toNat + 255) := by bv_omega

/-- Settles O27: the model's accesses to the stack slots are the map's own, since a slot lies in RAM. -/
theorem pushAndPull : Obligations.PushAndPull := by
  refine fun s v => ⟨?push, ?pull, fun hm => s.pull_push hm v⟩
  case push =>
    rw [← stackAddr_eq_ofNat, ← sub_one_eq_ofNat]
    exact s.push_eq_memWrite v
  case pull =>
    have hsp : (s.cpu.sp.toNat + 1) % 256 = (s.cpu.sp + 1).toNat := (BitVec.toNat_add s.cpu.sp 1).symm
    simp only [hsp, ← stackAddr_eq_ofNat, BitVec.ofNat_toNat, BitVec.setWidth_eq]
    exact s.pull_eq_memRead

/-! ### PHA, PHP, PLA and PLP -/

/-- The byte PHP pushes, in numbers: bits 5 and 4 are 1 whatever `B` holds (R143). -/
theorem Flags.pack_or_break_eq (f : Flags) :
    f.pack ||| 0x10 = BitVec.ofNat 8 (128 * bitNat f.n + 64 * bitNat f.v + 32 + 16 +
      8 * bitNat f.d + 4 * bitNat f.i + 2 * bitNat f.z + bitNat f.c) := by
  rw [Flags.pack_or_break, Flags.pack_eq]; rfl

/-- Settles O28: each instruction is one push or one pull, with the byte and the flags in numbers. -/
theorem stackInstructionResults : Obligations.StackInstructionResults := by
  refine ⟨fun s => ⟨exec_pha s, ?php, ?pla, exec_plp s⟩,
    plainForm_iff.2 rfl, plainForm_iff.2 rfl, plainForm_iff.2 rfl, plainForm_iff.2 rfl⟩
  case php => rw [exec_php, Flags.pack_or_break_eq]
  case pla => rw [exec_pla, Flags.setNZ_eq]; rfl

/-! ### The register transfers -/

theorem exec_tax (s : State) : exec .tax s = .next (s.withCpu { s.cpu with
    x := s.cpu.a, flags := s.cpu.flags.setNZ s.cpu.a }) := rfl

theorem exec_tay (s : State) : exec .tay s = .next (s.withCpu { s.cpu with
    y := s.cpu.a, flags := s.cpu.flags.setNZ s.cpu.a }) := rfl

theorem exec_txa (s : State) : exec .txa s = .next (s.withCpu { s.cpu with
    a := s.cpu.x, flags := s.cpu.flags.setNZ s.cpu.x }) := rfl

theorem exec_tya (s : State) : exec .tya s = .next (s.withCpu { s.cpu with
    a := s.cpu.y, flags := s.cpu.flags.setNZ s.cpu.y }) := rfl

theorem exec_tsx (s : State) : exec .tsx s = .next (s.withCpu { s.cpu with
    x := s.cpu.sp, flags := s.cpu.flags.setNZ s.cpu.sp }) := rfl

theorem exec_txs (s : State) : exec .txs s = .next (s.withCpu { s.cpu with sp := s.cpu.x }) := rfl

/-- Settles O29: each transfer is one change of the CPU, and all but TXS set `N` and `Z` from the byte. -/
theorem transferResults : Obligations.TransferResults := by
  refine ⟨fun s => ?results, ?encodings⟩
  case results =>
    simp only [exec_tax, exec_tay, exec_txa, exec_tya, exec_tsx, exec_txs, Flags.setNZ_eq, and_self]
  case encodings => simp only [plainForm_iff]; exact ⟨rfl, rfl, rfl, rfl, rfl, rfl⟩

end Sys2Proof.Machine
end

section
/-! PROOFS. The cost of every opcode byte (O60). -/

namespace Sys2Proof.Machine

/-- The opcode map and the cycle table agree: whatever instruction a byte leads to costs what the table
gives the byte (R74, R213). -/
theorem Builds.cost_eq {op : Byte} {i : Instr} (h : Builds (opcodeEntry op) i) (p : Params) :
    cycles p op = i.cost p := by
  have key : ∀ k < 256, Builds (opcodeEntry (BitVec.ofNat 8 k)) i →
      cycles p (BitVec.ofNat 8 k) = i.cost p := by
    intro k hk hb
    interval_cases k <;> (cases hb; rfl)
  have hop : BitVec.ofNat 8 op.toNat = op := by rw [BitVec.ofNat_toNat, BitVec.setWidth_eq]
  simpa only [hop] using key op.toNat op.isLt (hop.symm ▸ h)

theorem State.oamDma_budget {s t : State} {d : Byte} (h : s.oamDma d = .next t) :
    t.cpu.budget = s.cpu.budget := by
  unfold State.oamDma at h
  split at h <;> cases h
  rfl

/-- Settles O60: the byte of a well-formed instruction leads back to it, and the two tables agree on
where a byte leads. -/
theorem cycleCosts : Obligations.CycleCosts := by
  refine ⟨fun p i hw => ?_, fun s t d h => State.oamDma_budget h, fun s => rfl, rfl⟩
  rw [encode_head, (opcode_builds hw).cost_eq p]

end Sys2Proof.Machine
end

section
/-! PROOFS. The flag instructions, NOP and the unrecognised opcodes (O30, O31). -/

namespace Sys2Proof.Machine

/-- Settles O30: each instruction is one change of one flag. -/
theorem flagInstructionResults : Obligations.FlagInstructionResults := by
  refine ⟨fun s => ?results, ?encodings⟩
  case results => exact ⟨rfl, rfl, rfl, rfl, rfl, rfl, rfl⟩
  case encodings => simp only [plainForm_iff]; exact ⟨rfl, rfl, rfl, rfl, rfl, rfl, rfl⟩

/-- The 105 bytes are exactly those that are an unrecognised instruction alone (R77). -/
theorem mem_undefOpcodes_iff {op : Byte} : op ∈ undefOpcodes ↔ PlainForm op (.undef op) := by
  refine ⟨fun h => plainForm_iff.2 (opcodeEntry_undef h), fun h => ?_⟩
  obtain ⟨hwf, -⟩ := (Encoded.plain h).wf_and_encode_eq
  exact List.contains_iff_mem.1 hwf

/-- An unrecognised byte costs `UNDEF_CYCLES` (R162). -/
theorem cycles_undef (p : Params) {op : Byte} (h : op ∈ undefOpcodes) :
    cycles p op = p.undefCycles := by
  have hb : Builds (opcodeEntry op) (.undef op) := by rw [opcodeEntry_undef h]; exact .imp _
  exact hb.cost_eq p

/-- A step on an instruction of one byte that does nothing: only `PC` and the budget move (R159,
R162). -/
theorem step_noEffect {s : State} {r : Run} {op : Byte} {i : Instr} (hp : s.phase = .running r)
    (hb : 0 < s.cpu.budget) (hplain : plainAddr s.cpu.pc = true)
    (hop : s.cpuMem.read s.cpu.pc.toNat = op) (hf : PlainForm op i)
    (hexec : ∀ t, exec i t = .next t) :
    step s = .next (s.withCpu { s.cpu with
      pc := s.cpu.pc + 1, budget := s.cpu.budget - cycles s.config.params op }) := by
  have hread : s.memRead s.cpu.pc = (op, s) := by rw [s.memRead_plain hplain, hop]
  rw [step_plain hp hb hread hf, hexec]
  rfl

/-- Settles O31: each of the bytes is an instruction of its own whose meaning is the identity. -/
theorem nopAndUnrecognised : Obligations.NopAndUnrecognised := by
  have hnop : PlainForm 0xEA .nop := plainForm_iff.2 rfl
  refine ⟨fun _ => rfl, hnop, fun _ => rfl, rfl, by decide, fun _ => mem_undefOpcodes_iff,
    fun _ _ => rfl, fun p _ => cycles_undef p, rfl, fun s r op hp hb hplain hop hcases => ?step⟩
  case step =>
    obtain rfl | hmem := hcases
    · exact step_noEffect hp hb hplain hop hnop fun _ => rfl
    · have hne : op ≠ 0xEA := fun h => absurd (h ▸ hmem) (by decide)
      rw [if_neg hne, ← cycles_undef _ hmem]
      exact step_noEffect hp hb hplain hop (mem_undefOpcodes_iff.1 hmem) fun _ => rfl

end Sys2Proof.Machine
end

section
/-! PROOFS. BRK, RTI and the interrupts (O32 to O35). -/

namespace Sys2Proof.Machine

/-! ### The entry -/

/-- The shared entry from a state whose CPU was replaced, with the same `S`: what is pushed and where it
goes are the new CPU's (R160, R195). -/
theorem State.enterVector_withCpu (s : State) {c : Cpu} (hsp : c.sp = s.cpu.sp) {vec : Addr}
    (h : plainAddr vec = true) (h' : plainAddr (vec + 1) = true) :
    (s.withCpu c).enterVector vec =
      (((s.push (hiByte c.pc)).push (loByte c.pc)).push c.flags.pack).withCpu { c with
        sp := c.sp - 3
        flags := { c.flags with i := true }
        pc := (((((s.push (hiByte c.pc)).push (loByte c.pc)).push c.flags.pack).memRead
          (vec + 1)).1 ++ ((((s.push (hiByte c.pc)).push (loByte c.pc)).push c.flags.pack).memRead
            vec).1 : Addr) } := by
  obtain ⟨a, x, y, sp, pc, flags, budget⟩ := c
  subst hsp
  rw [State.enterVector_eq _ h h', State.memRead_plain _ h, State.memRead_plain _ h',
    State.memRead_plain _ h, State.memRead_plain _ h']
  rfl

/-- Settles O35: an interrupt is the shared entry with the flags as they were, then `B` cleared and the
cost charged. -/
theorem interruptEntry : Obligations.InterruptEntry := by
  intro s f status t
  refine ⟨fun vec hvec => ?entry, rfl⟩
  case entry =>
    have hplain : plainAddr vec = true ∧ plainAddr (vec + 1) = true := by
      obtain rfl | rfl := hvec <;> decide
    have hstatus : status = s.cpu.flags.pack := (Flags.pack_eq _).symm
    rw [s.interrupt_eq, s.enterVector_eq hplain.1 hplain.2, ← hstatus]
    rfl

/-- Settles O32: BRK is the shared entry with `PC` past the padding byte and `B` set. -/
theorem brkResult : Obligations.BrkResult := by
  refine ⟨fun s => ?result, plainForm_iff.2 rfl, fun _ => rfl⟩
  case result =>
    intro f ret status t
    have hret : ret = s.cpu.pc + 1 := by
      simp only [ret, BitVec.ofNat_add, BitVec.ofNat_toNat, BitVec.setWidth_eq]; rfl
    let c : Cpu := { s.cpu with pc := ret, flags := { f with b := true } }
    have hstatus : status = c.flags.pack := by rw [Flags.pack_eq]; rfl
    have hbrk : exec .brk s = .next ((s.withCpu c).enterVector 0xFFFE) := by rw [exec_brk, ← hret]
    rw [hbrk, s.enterVector_withCpu (c := c) rfl (by decide) (by decide), ← hstatus]
    rfl

/-- Settles O33: three pulls, each a read of a stack slot through the memory map. -/
theorem rtiResult : Obligations.RtiResult := by
  refine ⟨fun s => ?result, plainForm_iff.2 rfl⟩
  case result =>
    have h2 : s.cpu.sp + 1 + 1 = s.cpu.sp + 2 := by bv_omega
    have h3 : s.cpu.sp + 2 + 1 = s.cpu.sp + 3 := by bv_omega
    rw [exec_rti, h2, h3, ← s.memRead_stackAddr, ← s.memRead_stackAddr, ← s.memRead_stackAddr]
    rfl

/-! ### The return -/

/-- RTI right after an entry finds the three bytes that the entry pushed (R161, R195). -/
theorem exec_rti_enterVector {s t : State} (hm : Cells.wf s.cpuMem = true) {vec : Addr}
    (hmem : t.cpuMem = (s.enterVector vec).cpuMem) (hsp : t.cpu.sp = (s.enterVector vec).cpu.sp) :
    exec .rti t = .next (t.withCpu { t.cpu with
      sp := s.cpu.sp, flags := s.cpu.flags, pc := s.cpu.pc }) := by
  obtain ⟨hhi, hlo, hflags⟩ := s.push3_slots hm (hiByte s.cpu.pc) (loByte s.cpu.pc) s.cpu.flags.pack
  have h1 : t.cpu.sp + 1 = s.cpu.sp - 2 := by rw [hsp, State.enterVector_cpu]; bv_omega
  have h2 : s.cpu.sp - 2 + 1 = s.cpu.sp - 1 := by bv_omega
  have h3 : s.cpu.sp - 1 + 1 = s.cpu.sp := by bv_omega
  rw [exec_rti]
  simp only [h1, h2, h3, State.peek, hmem, State.enterVector_cpuMem, hhi, hlo, hflags,
    Flags.unpack_pack, operand16_bytes]

/-- Settles O34: RTI restores `S`, the flags and `PC` that the entry saw; neither touches the other
registers. -/
theorem interruptReturnRestores : Obligations.InterruptReturnRestores := by
  refine fun s hm => ⟨fun vec => ⟨_, exec_rti_enterVector (vec := vec) hm rfl rfl, rfl⟩,
    _, _, exec_brk s, exec_rti_enterVector ?_ rfl rfl, rfl⟩
  exact hm

end Sys2Proof.Machine
end

section
/-! PROOFS. The PPU registers (O36 to O40) and OAM DMA (O41). -/

namespace Sys2Proof.Machine

/-! ### Reads -/

/-- A read of a register, by any of its addresses (R45, R163). -/
theorem State.memRead_register (s : State) {a : Addr} {k : Nat} (h : 0x2000 ≤ a.toNat)
    (h' : a.toNat < 0x4000) (hk : a.toNat % 8 = k) : s.memRead a = s.ppuRegRead (BitVec.ofNat 3 k) := by
  rw [s.memRead_cases, if_neg (by omega), if_pos h', hk]

/-- The mask of a status read keeps the top three bits (R173). -/
theorem and_topThree_toNat (b : Byte) : (b &&& 0xE0).toNat = b.toNat / 32 * 32 := by revert b; decide

/-- The byte of a status read in numbers (R173). -/
theorem statusByte_toNat (st latch : Byte) :
    ((st &&& 0xE0) ||| (latch &&& 0x1F)).toNat = st.toNat / 32 * 32 + latch.toNat % 32 := by
  have hhigh : (st &&& 0xE0).toNat = (st.toNat / 32) <<< 5 := by
    rw [and_topThree_toNat, Nat.shiftLeft_eq]
  have hlow : (latch &&& 0x1F).toNat = latch.toNat % 32 := toNat_and_lowMask latch 5 0x1F rfl
  rw [BitVec.toNat_or, hhigh, hlow, ← Nat.shiftLeft_add_eq_or_of_lt (by omega), Nat.shiftLeft_eq]

/-- Settles O36: by any of its addresses the read is a status read; the second one finds the two bits
clear and clears nothing more. -/
theorem statusReadClears : Obligations.StatusReadClears := by
  intro s a h h' hk
  have hread (u : State) : u.memRead a = u.statusRead := u.memRead_register h h' hk
  simp only [hread]
  refine ⟨statusByte_toNat _ _, rfl, ?vbl, ?s0, ?again⟩
  case vbl | s0 => simp [State.statusRead]
  case again =>
    have hclear : s.ppu.status &&& 0x3F &&& 0x3F = s.ppu.status &&& 0x3F := by
      rw [BitVec.and_assoc]; rfl
    simp only [State.statusRead, hclear]

/-! ### The data port -/

/-- A write to a register, by any of its addresses (R45, R163). -/
theorem State.memWrite_image (s : State) {a : Addr} {k : Nat} (h : 0x2000 ≤ a.toNat)
    (h' : a.toNat < 0x4000) (hk : a.toNat % 8 = k) (d : Byte) :
    s.memWrite a d = .next (s.ppuRegWrite (BitVec.ofNat 3 k) d) := by
  rw [s.memWrite_cases, if_neg (by omega), if_pos h', hk]

/-- A register that is neither the status nor the data port has no read rule (R175). -/
theorem State.ppuRegRead_other (s : State) {k : Nat} (hk : k < 8) (h2 : k ≠ 2) (h7 : k ≠ 7) :
    s.ppuRegRead (BitVec.ofNat 3 k) = s.otherRead := by
  have hr : (BitVec.ofNat 3 k).toNat = k := by rw [BitVec.toNat_ofNat, Nat.mod_eq_of_lt hk]
  rw [s.ppuRegRead_cases, hr, if_neg h2, if_neg h7]

/-- Settles O37: the port is one of the two registers with a read rule, and `v` advances by `Inc()`. -/
theorem dataPortAccess : Obligations.DataPortAccess := by
  intro s a d h h' step' next va
  have hnext : s.ppu.v + s.ppu.inc = next := s.ppu.v_inc
  have hva : s.ppu.v.setWidth 14 = va := s.ppu.v_setWidth
  refine ⟨fun hk => ⟨?read, ?write⟩, fun h7 h2 => ?free⟩
  case read => rw [s.memRead_register h h' hk, ← hnext, ← hva]; rfl
  case write => rw [s.memWrite_image h h' hk, ← hnext, ← hva]; rfl
  case free =>
    rw [s.memRead_register h h' rfl, s.ppuRegRead_other (Nat.mod_lt _ (by decide)) h2 h7]
    rfl

/-! ### The scroll and address registers -/

/-- Setting coarse-X leaves the bits above it (R30). -/
theorem getLsbD_setCoarseX_of_ge (r : Loopy) (n : BitVec 5) {k : Nat} (hk : 5 ≤ k) :
    (setCoarseX r n).getLsbD k = r.getLsbD k := by
  by_cases h : k < 15
  · interval_cases k <;> simp [setCoarseX]
  · rw [BitVec.getLsbD_of_ge _ _ (by omega), BitVec.getLsbD_of_ge _ _ (by omega)]

/-- In numbers: what coarse-X does not reach (R30). -/
theorem setCoarseX_toNat_div (r : Loopy) (n : BitVec 5) :
    (setCoarseX r n).toNat / 32 = r.toNat / 32 := by
  have hy := congrArg BitVec.toNat (coarseY_setCoarseX r n)
  have hn := congrArg BitVec.toNat (ntSelect_setCoarseX r n)
  have hf := congrArg BitVec.toNat (fineY_setCoarseX r n)
  rw [coarseY_toNat, coarseY_toNat] at hy
  rw [ntSelect_toNat, ntSelect_toNat] at hn
  rw [fineY_toNat, fineY_toNat] at hf
  omega

section
variable (s : State) (d : Byte)

theorem State.memWrite_2005_first (h : s.ppu.w = false) :
    s.memWrite 0x2005 d = .next { s with ppu := { s.ppu with
      t := setCoarseX s.ppu.t ((d >>> 3).setWidth 5), fineX := d.setWidth 3, w := true } } := by
  rw [← s.ppu.write2005_first d h]; exact s.memWrite_register (k := 5) (by decide) d

theorem State.memWrite_2005_second (h : s.ppu.w = true) :
    s.memWrite 0x2005 d = .next { s with ppu := { s.ppu with
      t := setCoarseY (setFineY s.ppu.t (d.setWidth 3)) ((d >>> 3).setWidth 5), w := false } } := by
  rw [← s.ppu.write2005_second d h]; exact s.memWrite_register (k := 5) (by decide) d

theorem State.memWrite_2006_first (h : s.ppu.w = false) :
    s.memWrite 0x2006 d = .next { s with ppu := { s.ppu with
      t := (s.ppu.t &&& (0x00FF : Loopy)) ||| ((d &&& 0x3F).setWidth 15 <<< 8)
      addrLatch := d, w := true } } := by
  rw [← s.ppu.write2006_first d h]; exact s.memWrite_register (k := 6) (by decide) d

theorem State.memWrite_2006_second (h : s.ppu.w = true) :
    s.memWrite 0x2006 d = .next { s with ppu := { s.ppu with
      t := (s.ppu.t &&& (0x7F00 : Loopy)) ||| d.setWidth 15
      v := (s.ppu.t &&& (0x7F00 : Loopy)) ||| d.setWidth 15
      addrLatch := d, w := false } } := by
  rw [← s.ppu.write2006_second d h]; exact s.memWrite_register (k := 6) (by decide) d

end

/-- Settles O38: the first write is one `setCoarseX`, the second a `setFineY` and a `setCoarseY`, and
each setter leaves the other fields. -/
theorem scrollWritePair : Obligations.ScrollWritePair := by
  intro s d e
  refine ⟨fun hw => ⟨_, _, s.memWrite_2005_first d hw, ?_, lowThree_toNat d,
      fun k hk => getLsbD_setCoarseX_of_ge _ _ hk⟩,
    fun hw => ⟨_, s.memWrite_2005_second d hw, ?_⟩,
    fun hw => ⟨_, _, s.memWrite_2005_first d hw, State.memWrite_2005_second _ e rfl, ?_⟩⟩
  · rw [coarseX_setCoarseX, highFive_toNat]
  · simp only [coarseY_setCoarseY, fineY_setCoarseY, fineY_setFineY, coarseX_setCoarseY,
      coarseX_setFineY, ntSelect_setCoarseY, ntSelect_setFineY, highFive_toNat, lowThree_toNat,
      and_self]
  · simp only [coarseX_setCoarseX, coarseX_setCoarseY, coarseX_setFineY, coarseY_setCoarseY,
      fineY_setCoarseY, fineY_setFineY, ntSelect_setCoarseY, ntSelect_setFineY, ntSelect_setCoarseX,
      highFive_toNat, lowThree_toNat, true_and, hw, and_true]
    exact fun k hk => getLsbD_setCoarseX_of_ge _ _ hk

/-- Settles O39: the two phases in numbers; in a pair the second write starts from the `t` that the
first one left. -/
theorem addressWritePair : Obligations.AddressWritePair := by
  intro s d e
  refine ⟨fun hw => ⟨_, s.memWrite_2006_first d hw, address_first _ d⟩,
    fun hw => ⟨_, s.memWrite_2006_second d hw, address_second _ d⟩, fun hw => ?twice,
    fun hw => ?scrollSecond, fun hw => ?scrollFirst⟩
  case twice =>
    refine ⟨_, _, s.memWrite_2006_first d hw, State.memWrite_2006_second _ e rfl,
      address_first _ d, rfl, rfl, rfl, ?_, by simp only [hw]⟩
    rw [address_second, address_first]
    omega
  case scrollSecond =>
    refine ⟨_, _, s.memWrite_2006_first d hw, State.memWrite_2005_second _ e rfl, ?_⟩
    simp only [coarseX_setCoarseY, coarseX_setFineY, coarseY_setCoarseY, fineY_setCoarseY,
      fineY_setFineY, ntSelect_setCoarseY, ntSelect_setFineY, highFive_toNat, lowThree_toNat,
      coarseX_toNat, ntSelect_toNat, address_first, hw, true_and, and_true]
    omega
  case scrollFirst =>
    refine ⟨_, _, s.memWrite_2005_first d hw, State.memWrite_2006_second _ e rfl, ?_,
      lowThree_toNat d, by simp only [hw]⟩
    have := setCoarseX_toNat_div s.ppu.t ((d >>> 3).setWidth 5)
    simp only [address_second]
    omega

/-! ### The control registers and OAM -/

/-- Settles O40: each register's branch of the write, with the two bits that 0x2000 moves and the
advance of `oam_addr`. -/
theorem controlAndOamWrites : Obligations.ControlAndOamWrites := by
  intro s d
  have hwrite (k : Nat) (hk : k < 8) := s.memWrite_register hk d
  have hadvance : BitVec.ofNat 8 (s.ppu.oamAddr.toNat + 1) = s.ppu.oamAddr + 1 := by
    rw [BitVec.ofNat_add, BitVec.ofNat_toNat, BitVec.setWidth_eq]; rfl
  refine ⟨⟨_, hwrite 0 (by decide), ?_, ?_, fun k h10 h11 => ?_⟩, hwrite 1 (by decide),
    hwrite 2 (by decide), hwrite 3 (by decide), ?_⟩
  · rw [control_first, if_pos rfl]
  · rw [control_first, if_neg (by decide), if_pos rfl]
  · rw [control_first, if_neg h10, if_neg h11]
  · rw [hadvance]; exact hwrite 4 (by decide)

/-- A byte of a page without side effects is what a read of it gives: the page lies outside the PPU
registers and the controller port (R176). -/
theorem State.pageByte_eq_memRead (s : State) {d : Byte} (hd : ¬(0x20 ≤ d.toNat ∧ d.toNat ≤ 0x40))
    {k : Nat} (hk : k < 256) :
    s.pageByte d k = (s.memRead (BitVec.ofNat 16 (d.toNat * 256 + k))).1 := by
  have ha : (BitVec.ofNat 16 (d.toNat * 256 + k)).toNat = d.toNat * 256 + k := by
    rw [BitVec.toNat_ofNat, Nat.mod_eq_of_lt (by have := d.isLt; omega)]
  rw [s.memRead_plain ((plainAddr_iff _).2 (by rw [ha]; omega))]
  rfl

theorem State.memWrite_dma (s : State) (d : Byte) : s.memWrite 0x4014 d = s.oamDma d := by
  rw [s.memWrite_cases]; rfl

/-- Settles O41: the copy fills all of OAM with the bytes of the page. -/
theorem oamDmaCopies : Obligations.OamDmaCopies := by
  intro s d hm
  have hread {k : Nat} (hk : k < 256) :
      (s.oam.fill 0 256 (s.pageByte d)).read k = s.pageByte d k := by
    rw [Cells.read_fill hm, if_pos (by omega), Nat.sub_zero]
  rw [s.memWrite_dma, State.oamDma, ← sideEffectPage_iff]
  generalize s.oam.fill 0 256 (s.pageByte d) = copied at hread
  refine ⟨fun h => if_pos h, fun h => ⟨{ s with oam := copied }, if_neg h, rfl, fun k hk => ?_⟩⟩
  rw [← s.pageByte_eq_memRead (mt (sideEffectPage_iff d).2 h) hk]
  exact hread hk

end Sys2Proof.Machine
end

section
/-! PROOFS. The scroll increments (O44), the background (O45, O46), and the sprite rows and the disabled
sprite pass (O48). -/

namespace Sys2Proof.Machine

/-! ### The scroll increments -/

/-- `HInc` on the fields (R184). -/
theorem hInc_fields (r : Loopy) :
    coarseX (hInc r) = coarseX r + 1#5 ∧
    ntSelect (hInc r) = (if coarseX r = 31#5 then ntSelect r ^^^ 1#2 else ntSelect r) ∧
    coarseY (hInc r) = coarseY r ∧ fineY (hInc r) = fineY r := by
  unfold hInc
  by_cases h : coarseX r = 31#5 <;> simp [h]

/-- `VInc` on the fields while fine-Y does not wrap (R185). -/
theorem vInc_fields_of_ne {r : Loopy} (h : (fineY r).toNat ≠ 7) :
    fineY (vInc r) = fineY r + 1#3 ∧ coarseY (vInc r) = coarseY r ∧ ntSelect (vInc r) = ntSelect r ∧
    coarseX (vInc r) = coarseX r := by
  have hlt : fineY r < 7#3 := by rw [BitVec.lt_def, BitVec.toNat_ofNat]; omega
  simp [vInc, hlt]

/-- `VInc` on the fields where fine-Y wraps: the row of tiles after 29 is in the next nametable, the one
after 31 in the same (R185). -/
theorem vInc_fields_of_eq {r : Loopy} (h : (fineY r).toNat = 7) :
    fineY (vInc r) = 0#3 ∧ coarseY (vInc r) = (if coarseY r = 29#5 then 0#5 else coarseY r + 1#5) ∧
    ntSelect (vInc r) = (if coarseY r = 29#5 then ntSelect r ^^^ 2#2 else ntSelect r) ∧
    coarseX (vInc r) = coarseX r := by
  have hlt : ¬fineY r < 7#3 := by rw [BitVec.lt_def, h]; decide
  by_cases h29 : coarseY r = 29#5
  · simp [vInc, hlt, h29]
  · by_cases h31 : coarseY r = 31#5 <;> simp [vInc, hlt, h29, h31]

theorem coarse_eq_iff (n : BitVec 5) (k : Nat) (hk : k < 32) : n = BitVec.ofNat 5 k ↔ n.toNat = k := by
  rw [← BitVec.toNat_inj, BitVec.toNat_ofNat, Nat.mod_eq_of_lt hk]

/-- Settles O44: the fields of each increment, as numbers and as the two nametable bits. -/
theorem scrollIncrements : Obligations.ScrollIncrements := by
  intro r
  simp only [ntX_eq, ntY_eq, ← coarse_eq_iff _ 31 (by decide), ← coarse_eq_iff _ 29 (by decide)]
  refine ⟨?hInc, ?vInc⟩
  case hInc =>
    obtain ⟨hx, hn, hy, hf⟩ := hInc_fields r
    rw [hx, hn, hy, hf]
    refine ⟨BitVec.toNat_add _ _, ?_, rfl, ?_, rfl⟩ <;> split <;> simp
  case vInc =>
    by_cases hwrap : (fineY r).toNat = 7
    · obtain ⟨hf, hy, hn, hx⟩ := vInc_fields_of_eq hwrap
      rw [hf, hy, hn, hx, hwrap]
      by_cases h29 : coarseY r = 29#5 <;> simp [h29]
    · obtain ⟨hf, hy, hn, hx⟩ := vInc_fields_of_ne hwrap
      rw [hf, hy, hn, hx, if_neg hwrap, if_neg fun h => hwrap h.1]
      exact ⟨BitVec.toNat_add _ _, rfl, rfl, rfl, rfl⟩

/-! ### The background -/

/-- A row of a tile of 16 bytes in one of the two pattern tables, in numbers (R183, R188). -/
theorem patternRow_eq (table : Bool) (tile : Byte) (k : Nat) :
    (if table then 0x1000 else 0x0000 : PpuAddr) + tile.setWidth 14 * 16 + BitVec.ofNat 14 k =
      BitVec.ofNat 14 ((if table = true then 0x1000 else 0) + tile.toNat * 16 + k) := by
  rw [BitVec.ofNat_add, BitVec.ofNat_add, BitVec.ofNat_mul, BitVec.ofNat_toNat]
  cases table <;> rfl

/-- The address of a background pattern row in numbers (R183). -/
theorem bgRowAddr_eq (p : Ppu) (tile : Byte) (fy : BitVec 3) :
    bgRowAddr p tile fy = BitVec.ofNat 14
      ((if p.ctrl1.getLsbD 4 = true then 0x1000 else 0) + tile.toNat * 16 + fy.toNat) := by
  rw [← Ppu.bgPattern, ← patternRow_eq, BitVec.ofNat_toNat]
  rfl

/-- A palette group is two bits of a byte, at the shift of its quadrant (R183). -/
theorem attrGroup_toNat (b : Byte) (k : Nat) :
    (((b >>> k) &&& 0x03).setWidth 2).toNat = b.toNat / 2 ^ k % 4 := by
  have hmask : ((b >>> k) &&& (0x03 : Byte)).toNat = (b >>> k).toNat % 4 :=
    toNat_and_lowMask (b >>> k) 2 0x03 rfl
  rw [BitVec.toNat_setWidth, hmask, BitVec.toNat_ushiftRight, Nat.shiftRight_eq_div_pow, Nat.mod_mod]

/-- Settles O45: the four addresses of `BgTile` and the shift of the quadrant, in numbers. -/
theorem backgroundTile : Obligations.BackgroundTile := by
  intro s a fy cx cy nt read tile attr base t
  have htile : s.tileByte a = tile := congrArg s.ppuRead (tileAddr_eq a)
  have hattr : s.attrByte a = attr := congrArg s.ppuRead (attrAddr_eq a)
  have hbase : bgRowAddr s.ppu (s.tileByte a) fy = BitVec.ofNat 14 base := by rw [bgRowAddr_eq, htile]
  have hlo : t.lo = read base := congrArg s.ppuRead hbase
  have hhi : t.hi = read (base + 8) := by
    show s.ppuRead (bgRowAddr s.ppu (s.tileByte a) fy + 8) = s.ppuRead (BitVec.ofNat 14 (base + 8))
    rw [hbase, BitVec.ofNat_add base 8]; rfl
  refine ⟨?group, fun i _ => ?pixel⟩
  case group =>
    show (((s.attrByte a >>> quadrantShift a) &&& 0x03).setWidth 2).toNat = _
    rw [attrGroup_toNat, hattr, quadrantShift_eq]
  case pixel => rw [tilePixel, planePixel_toNat, hlo, hhi]

/-- Settles O46: the 33 tile columns cover the row for every fine-X, and nothing else is drawn. -/
theorem backgroundRow : Obligations.BackgroundRow := by
  intro s row hs v t
  obtain ⟨hover, hpixel⟩ := s.drawBgTiles_read row (fineY v) 33 0 v s.video hs.videoWf
  refine ⟨fun X hX => ?pixel, hover.other hs.videoWf, ?frame⟩
  case pixel =>
    have := s.ppu.fineX.isLt
    exact (hpixel X hX).1 (by omega) (by omega)
  case frame =>
    obtain ⟨hcache, hline⟩ := hover.sprites
    exact congrArg₂ (fun cache line => ({ s with
      ppu := { s.ppu with v := vInc v }
      video := { t.video with spr0Cache := cache, spr0Line := line } } : State)) hcache hline

/-! ### The sprites -/

/-- The address of a pattern row of an 8x8 sprite in numbers (R188). -/
theorem sprRowAddr_small {p : Ppu} (h : p.tallSprites = false) (tile : Byte) {rr : Nat} (hr : rr < 8) :
    (sprRowAddr p tile rr).toNat =
      (if p.spritePattern = true then 0x1000 else 0) + tile.toNat * 16 + rr := by
  have := tile.isLt
  rw [sprRowAddr, h, if_neg Bool.false_ne_true, patternRow_eq, BitVec.toNat_ofNat]
  split <;> omega

/-- The mask of an 8x16 sprite's tile drops bit 0 (R188). -/
theorem and_evenMask_toNat (b : Byte) : (b &&& 0xFE).toNat = b.toNat / 2 * 2 := by revert b; decide

/-- The address of a pattern row of an 8x16 sprite in numbers: bit 0 of the tile is the table (R188). -/
theorem sprRowAddr_tall {p : Ppu} (h : p.tallSprites = true) (tile : Byte) {rr : Nat} (hr : rr < 16) :
    (sprRowAddr p tile rr).toNat =
      tile.toNat % 2 * 0x1000 + (tile.toNat / 2 * 2 + rr / 8) * 16 + rr % 8 := by
  have := tile.isLt
  have htable : (tile &&& 1).toNat = tile.toNat % 2 := toNat_and_lowMask tile 1 1 rfl
  have htile : (tile &&& 0xFE).toNat = tile.toNat / 2 * 2 := and_evenMask_toNat tile
  have haddr : sprRowAddr p tile rr = BitVec.ofNat 14
      ((tile &&& 1).toNat * 0x1000 + ((tile &&& 0xFE).toNat + rr / 8) * 16 + rr % 8) := by
    simp only [sprRowAddr, if_pos h, BitVec.ofNat_add, BitVec.ofNat_mul, BitVec.ofNat_toNat]
    rfl
  rw [haddr, htable, htile, BitVec.toNat_ofNat]
  omega

/-- No row has the sprite-zero line flag, so no check hits (R190). -/
theorem State.s0Check_of_noLine {s : State} (h : s.video.spr0Line = []) (n : Nat) : s.s0Check n = s := by
  have hmiss : ¬s.s0Hit n = true := fun hhit => by
    obtain ⟨-, -, hon, -⟩ := (s.s0Hit_iff n).1 hhit
    rw [Video.spr0On, h] at hon
    cases hon
  rw [State.s0Check, if_neg hmiss]

/-- Settles O48: the two sizes of sprites, and the pass that only clears the sprite-zero caches. -/
theorem spriteRowsAndDisabled : Obligations.SpriteRowsAndDisabled := by
  refine ⟨fun s tile rr => ⟨fun h hr => sprRowAddr_small h tile hr, fun h hr => sprRowAddr_tall h tile hr⟩,
    fun s h => ?disabled⟩
  case disabled =>
    rw [s.renderSprites_disabled h]
    exact ⟨rfl, State.s0Check_of_noLine rfl⟩

end Sys2Proof.Machine
end

section
/-! PROOFS. Power-on, `CpuReset` and the loaded machine (O7 to O9). -/

namespace Sys2Proof.Machine

/-- Settles O7: the power-on state lists no cell, so that every index reads as an unlisted one. -/
theorem powerOnIsZero : Obligations.PowerOnIsZero := by
  refine ⟨⟨rfl, rfl, rfl, rfl, rfl, rfl⟩, rfl, ⟨rfl, rfl, rfl, rfl, rfl, rfl, rfl, rfl, rfl, rfl⟩,
    fun a => ⟨Cells.read_nil a, Cells.read_nil a, Cells.read_nil a⟩,
    fun k => ⟨Cells.read_nil k, Cells.read_nil k, Cells.read_nil k⟩, fun row => rfl, ?buttons,
    rfl, rfl, rfl⟩
  case buttons => decide

/-- Settles O8: the reset vector lies at plain addresses, so its two reads are the map's. -/
theorem cpuResetState : Obligations.CpuResetState := by
  refine fun s => ⟨?_, (by decide : Flags.reset.pack = 0x22)⟩
  rw [State.cpuReset, s.vector_eq_memRead (by decide) (by decide)]
  rfl

/-- The start of a machine whose banks the default loader takes (R208, R209.1 to R209.3). -/
theorem bootState_eq (std : VideoStandard) {c : Cartridge} {m p : Memory}
    (hm : loadPrg [] c.prg = some m) (hp : loadChr [] c.chr = some p) :
    bootState std c = some (State.cpuReset { State.powerOn with
      cpuMem := m, ppuMem := p
      config := { Configuration.powerOn with
        standard := std, mirroring := c.mirroring, prgBanks := c.prg.length
        chrBanks := c.chr.length, mapperNumber := c.mapperNumber } }) := by
  rw [bootState, State.load_eq { State.powerOn with
    config := { Configuration.powerOn with standard := std } } c hm hp]
  rfl

/-- Settles O9: the loader's two memories byte by byte, under `CpuReset`. -/
theorem bootMapsTheBanks : Obligations.BootMapsTheBanks := by
  intro std c p q hprg hchr
  obtain ⟨m, hm, -, hprgByte⟩ := loadPrg_read hprg
  obtain ⟨v, hv, -, hchrByte⟩ := loadChr_read hchr
  have hrom {i : Nat} (hi : i < 0x4000) : m.read (0xC000 + i) = q.getD i 0 := by
    rw [hprgByte, if_neg (by omega), if_pos (by omega), Nat.add_sub_cancel_left]
  refine ⟨_, bootState_eq std hm hv, fun i hi => ⟨?low, hrom hi⟩, fun a ha => ?below, fun i hi => ?chr,
    fun a ha => ?above, ?cpu, rfl, rfl, c.mapperNumber_toNat, rfl, rfl, rfl, rfl, rfl, rfl, rfl, rfl⟩
  case low =>
    refine (hprgByte _).trans ?_
    rw [if_pos (by omega), Nat.add_sub_cancel_left]
  case below => exact (hprgByte a).trans (by rw [if_neg (by omega), if_neg (by omega)])
  case chr => exact (hchrByte i).trans (if_pos hi)
  case above => exact (hchrByte a).trans (if_neg (by omega))
  case cpu =>
    rw [← hrom (i := 0x3FFD) (by decide), ← hrom (i := 0x3FFC) (by decide)]
    rfl

end Sys2Proof.Machine
end

section
/-! PROOFS. The frame schedule (O5) and the end of a CPU run (O6). -/

namespace Sys2Proof.Machine

/-! ### The steps of the frame -/

section
variable {s : State}

theorem step_boundary (h : s.phase = .boundary) : step s = .next s.frameBoundary := by
  simp only [step, h]

theorem step_halted (h : s.phase = .halted) : step s = .next s := by simp only [step, h]

theorem step_enter {r : Run} (h : s.phase = .enter r) : step s = .next (s.enterRun r) := by
  simp only [step, h]

theorem step_leave {r : Run} (h : s.phase = .running r) (hb : s.cpu.budget ≤ 0) :
    step s = .next (s.leaveRun r) := by
  simp only [step, h, if_neg hb.not_gt]

theorem step_vblankStart (h : s.phase = .vblankStart) : step s = .next s.vblankStart := by
  simp only [step, h]

theorem step_vblankEnd (h : s.phase = .vblankEnd) : step s = .next s.vblankEnd := by
  simp only [step, h]

theorem step_latchScroll (h : s.phase = .latchScroll) : step s = .next s.latchScroll := by
  simp only [step, h]

theorem step_line {n : Nat} (h : s.phase = .line n) : step s = .next (s.lineStart n) := by
  simp only [step, h]

theorem step_lineEnd {n : Nat} (h : s.phase = .lineEnd n) : step s = .next (s.lineDone n) := by
  simp only [step, h]

theorem step_sprites (h : s.phase = .sprites) : step s = .next s.spriteStep := by
  simp only [step, h]

theorem step_present (h : s.phase = .present) : step s = .next s.presentStep := by
  simp only [step, h]

theorem step_input (h : s.phase = .input) : step s = .next s.inputStep := by simp only [step, h]

end

/-- The background is drawn on a scanline where it is enabled, NTSC's first eight lines excepted
(R181). -/
theorem State.bgEnabled_iff (s : State) (n : Nat) :
    s.bgEnabled n = true ↔
      s.ppu.ctrl2.getLsbD 3 = true ∧ ¬(s.config.standard = .ntsc ∧ n < 8) := by
  simp only [State.bgEnabled, Ppu.bgEnable, Bool.and_eq_true, Bool.not_eq_true', Bool.and_eq_false_iff,
    decide_eq_false_iff_not, ← not_and_or]

/-- The check changes neither the enable bit nor the standard (R190). -/
theorem State.s0Check_bgEnabled (s : State) (n : Nat) : (s.s0Check n).bgEnabled n = s.bgEnabled n := by
  rw [s.s0Check_state]
  rfl

/-- Settles O5: each place's step is the operation that R180 names there. -/
theorem frameSchedule : Obligations.FrameSchedule := by
  intro s
  refine ⟨fun r h => ?enter, fun r h hb => ?leave, step_vblankStart, step_vblankEnd, fun h => ?latchScroll,
    fun n h => ?line, fun n h => ?lineEnd, fun h n => ?noIrq, fun h n => State.mapperIrq_plugin h n,
    step_sprites, step_present, fun h => ⟨_, step_input h⟩, fun h => ⟨_, _, step_boundary h⟩,
    step_halted⟩
  case enter => rw [step_enter h]; cases r <;> rfl
  case leave => rw [step_leave h hb]; cases r <;> rfl
  case latchScroll => rw [step_latchScroll h, State.latchScroll]; cases s.config.standard <;> rfl
  case line =>
    have hiff := s.bgEnabled_iff n
    rw [step_line h, s.lineStart_eq, s.s0Check_bgEnabled]
    by_cases hen : s.bgEnabled n = true
    · simp only [if_pos hen, if_pos (hiff.1 hen)]; rfl
    · simp only [if_neg hen, if_neg (mt hiff.2 hen)]; rfl
  case lineEnd => rw [step_lineEnd h]; rfl
  case noIrq => simp only [State.mapperIrq, h]

/-! ### The end of a CPU run -/

/-- An instruction's step in a CPU run: the refusal, or a state of the same run with 1 to 7 cycles less
(R83, R179, R213). -/
theorem step_running_budget {s : State} {r : Run} (hp : s.phase = .running r)
    (h1 : 1 ≤ s.config.params.undefCycles) (h7 : s.config.params.undefCycles ≤ 7)
    (hb : 0 < s.cpu.budget) :
    step s = .refused .dmaFromSideEffectPage ∨
    ∃ t, step s = .next t ∧ t.phase = .running r ∧ t.config.params = s.config.params ∧
      s.cpu.budget - 7 ≤ t.cpu.budget ∧ t.cpu.budget ≤ s.cpu.budget - 1 := by
  have hstep : step s = cpuStep s := by rw [step_running hp hb, cpuStep_eq]
  obtain ⟨t, ht⟩ | ⟨ht, -⟩ := instructionsComplete s.fetchInstr.1 s.fetchInstr.2
  · right
    rw [← cpuStep_eq] at ht
    obtain ⟨-, -, hphase, -, -, hconfig⟩ := (cpuStep_touches ht).frame
    obtain ⟨hlow, hhigh⟩ := cycles_bounds s.config.params h1 h7 s.fetchByte.1
    have hbudget := cpuStep_budget ht
    exact ⟨t, hstep.trans ht, hphase.trans hp, by rw [hconfig], by omega, by omega⟩
  · left
    rw [hstep, cpuStep_eq, ht]

/-- Some number of steps, at most `n`, ends the run from `s`: at the refusal, or at a state with no
budget left and an overshoot of at most 6 (R179). -/
def RunEndsWithin (n : Nat) (r : Run) (s : State) : Prop :=
  ∃ k ≤ n, core.run k s = .refused .dmaFromSideEffectPage ∨
    ∃ t, core.run k s = .next t ∧ t.phase = .running r ∧ -6 ≤ t.cpu.budget ∧ t.cpu.budget ≤ 0

/-- A run ends one step later from the state before. -/
theorem RunEndsWithin.step {n : Nat} {r : Run} {s t : State} (h : RunEndsWithin n r t)
    (hs : step s = .next t) : RunEndsWithin (n + 1) r s := by
  obtain ⟨k, hk, h⟩ := h
  rw [← core_run_next hs k] at h
  exact ⟨k + 1, by omega, h⟩

/-- A run with `n` cycles left ends within `n` steps: every instruction costs at least one cycle, and the
last one starts with at least one left and costs at most 7 (R179, R213). -/
theorem runEndsWithin (n : Nat) {r : Run} {s : State} (hp : s.phase = .running r)
    (h1 : 1 ≤ s.config.params.undefCycles) (h7 : s.config.params.undefCycles ≤ 7)
    (hlow : -6 ≤ s.cpu.budget) (hn : s.cpu.budget ≤ n) : RunEndsWithin n r s := by
  induction n generalizing s with
  | zero => exact ⟨0, le_rfl, .inr ⟨s, rfl, hp, hlow, hn⟩⟩
  | succ n ih =>
    by_cases hb : 0 < s.cpu.budget
    · obtain hs | ⟨t, hs, hpt, hparams, hlow', hhigh⟩ := step_running_budget hp h1 h7 hb
      · exact ⟨1, by omega, .inl (core_run_refused hs 0)⟩
      · have ht : RunEndsWithin n r t :=
          ih hpt (by rwa [hparams]) (by rwa [hparams]) (by omega) (by omega)
        exact ht.step hs
    · exact ⟨0, by omega, .inr ⟨s, rfl, hp, hlow, by omega⟩⟩

/-- Settles O6: the run ends within its budget, and a step without budget left leaves it. -/
theorem cpuRunEnds : Obligations.CpuRunEnds := by
  intro s r hp h1 h7 hb
  obtain ⟨k, hk, h⟩ := runEndsWithin s.cpu.budget.toNat hp h1 h7 (by omega) (by omega)
  refine ⟨k, hk, h.imp_right ?_⟩
  rintro ⟨t, ht, hpt, hlow, hhigh⟩
  exact ⟨t, ht, hpt, hlow, hhigh, step_leave hpt hhigh⟩

end Sys2Proof.Machine
end
